-- ==== Sys2Proof/Word.lean ====
section
/-! DEFINITION. The bit-vector types of the LVU. Bit 0 is the least significant bit everywhere (00_scope.md R12). -/

namespace Sys2Proof

/-- One byte of memory (20_memory.md R40). -/
abbrev Byte := BitVec 8

/-- A binary16 pattern, the compact format (40_fp_numerics.md R81). -/
abbrev Half := BitVec 16

/-- A 32-bit pattern: a command word, a lane, a scalar register, a response's data
(00_scope.md R13, 30_encoding.md R60). -/
abbrev Word := BitVec 32

/-- The value of an operand bus, and a byte address: XLEN bits (00_scope.md R9). XLEN is the
parameter's default, 64. DESIGN CHOICE (log 5), unsafe for an instance with another XLEN. -/
abbrev Addr := BitVec 64

end Sys2Proof
end

