-- ==== Sys2Proof/Config.lean ====
section
/-! DEFINITION. What an LVU instance fixes when it is built: its variant (00_scope.md R7), the
parameters derived from it (R8), the register counts and the address width (R9), and the NaN
pattern its adder and multiplier produce (40_fp_numerics.md R88). -/

namespace Sys2Proof

/-- The element type in memory, ETYPE (00_scope.md R7). -/
inductive EType where
  | f32
  | f16
deriving DecidableEq, Repr

/-- The three variants that exist (00_scope.md R7). There is no constructor for
(SIZE = 4, ETYPE = F16): that combination cannot be built. -/
inductive Variant where
  | w4
  | w8
  | h8
deriving DecidableEq, Repr

/-- SIZE, the number of lanes (00_scope.md R7). -/
def Variant.size : Variant → Nat
  | .w4 => 4
  | .w8 => 8
  | .h8 => 8

/-- ETYPE, the element type (00_scope.md R7). -/
def Variant.etype : Variant → EType
  | .w4 => .f32
  | .w8 => .f32
  | .h8 => .f16

/-- The variant with a given SIZE and ETYPE, or none where 00_scope.md R7 says that the
combination does not exist and a model refuses to build it. -/
def Variant.build : Nat → EType → Option Variant
  | 4, .f32 => some .w4
  | 8, .f32 => some .w8
  | 8, .f16 => some .h8
  | _, _ => none

/-- EW, the width of an element in memory in bits (00_scope.md R8). -/
def EType.ew : EType → Nat
  | .f32 => 32
  | .f16 => 16

/-- ESZ, the size of an element in bytes (00_scope.md R8). -/
def EType.esz : EType → Nat
  | .f32 => 4
  | .f16 => 2

/-- ESZ of a variant. -/
def Variant.esz (v : Variant) : Nat := v.etype.esz

/-- VBYTES, the number of bytes of a vector window (00_scope.md R8). -/
def Variant.vbytes (v : Variant) : Nat := v.size * v.esz

/-- NVREG (00_scope.md R9). -/
abbrev Config.nvreg : Nat := 8

/-- NSREG (00_scope.md R9). -/
abbrev Config.nsreg : Nat := 4

/-- XLEN, the width of an address in bits (00_scope.md R9), at its default. DESIGN CHOICE (log 5). -/
abbrev Config.xlen : Nat := 64

/-- The addresses that exist are the naturals below this bound (20_memory.md R40, R46). -/
def Config.addrLimit : Nat := 2 ^ Config.xlen

/-- The default of the parameter NAN_RESULT (00_scope.md R9, 40_fp_numerics.md R88). -/
def Config.nanDefault : Word := 0x7FC00000

/-- The variant of the instance that `State.reset` describes. DESIGN CHOICE (log 3): the only variant
on which all thirteen commands are legal. -/
def Config.resetVariant : Variant := .h8

/-- What a byte that nothing has placed or written reads as. DESIGN CHOICE (log 7), unsafe: the spec
gives memory no content of its own (10_state.md R30). -/
def Config.unplacedByte : Byte := 0

/-- What the bits of a register that nothing has written since reset are. DESIGN CHOICE (log 1),
unsafe: 10_state.md R32 leaves them unspecified. -/
def Config.unwrittenBits : Word := 0

/-- The parameters of one instance, constant for its whole life (00_scope.md R7, 92_eei_decisions.md
D19). They are arguments of the model: every statement over all states is over all of them. -/
structure Params where
  /-- SIZE and ETYPE (00_scope.md R7). -/
  variant : Variant
  /-- NAN_RESULT (40_fp_numerics.md R88). That it is a quiet NaN
  (92_eei_decisions.md D19, log 4) is part of `State.wf`. -/
  nanResult : Word
deriving DecidableEq, Repr

end Sys2Proof
end

