-- ==== Sys2Proof/Machine/Numerics.lean ====
section
/-! DEFINITION. The number formats and the functions of the four functional units, on bit patterns and
exactly (40_fp_numerics.md). Every function is total and depends on its operands and on NAN_RESULT
alone (R83). There is no rounding mode, no flush-to-zero and no flag (R85, R87, 10_state.md R27). -/

namespace Sys2Proof.Machine

/-- `bitlength(N)` of 00_scope.md R12: the index of the most significant set bit plus one. -/
def bitlength (n : Nat) : Nat := if n = 0 then 0 else Nat.log2 n + 1

/-! ## Binary32 (40_fp_numerics.md R80) -/

/-- The sign bit `f[31]`. -/
def sign32 (f : Word) : Bool := f.getLsbD 31

/-- The biased exponent `f[30:23]`. -/
def exp32 (f : Word) : Nat := (f.extractLsb' 23 8).toNat

/-- The fraction `f[22:0]`. -/
def frac32 (f : Word) : Nat := (f.extractLsb' 0 23).toNat

/-- The pattern `{s, e[7:0], m[22:0]}`. -/
def pack32 (s : Bool) (e m : Nat) : Word := BitVec.ofBool s ++ BitVec.ofNat 8 e ++ BitVec.ofNat 23 m

/-- The class of a pattern (40_fp_numerics.md R80, R81). -/
inductive NumClass where
  | zero
  | subnormal
  | normal
  | infinity
  | quietNaN
  | signallingNaN
deriving DecidableEq, Repr

/-- The class of a binary32 pattern. -/
def class32 (f : Word) : NumClass :=
  if exp32 f = 255 then
    if frac32 f = 0 then .infinity else if f.getLsbD 22 then .quietNaN else .signallingNaN
  else if exp32 f = 0 then
    if frac32 f = 0 then .zero else .subnormal
  else .normal

/-- The pattern is a NaN. -/
def isNaN32 (f : Word) : Bool := exp32 f == 255 && frac32 f != 0

/-- The pattern is a quiet NaN: the exponent and the quiet bit are all ones (40_fp_numerics.md R80). -/
def isQuietNaN32 (f : Word) : Bool := exp32 f == 255 && f.getLsbD 22

/-- The pattern is an infinity. -/
def isInf32 (f : Word) : Bool := exp32 f == 255 && frac32 f == 0

/-- The pattern is a zero of either sign. -/
def isZero32 (f : Word) : Bool := exp32 f == 0 && frac32 f == 0

/-- The pattern is a number: neither infinite nor a NaN. -/
def isFinite32 (f : Word) : Bool := exp32 f != 255

/-- The integer significand of `sigexp32` for a finite pattern. -/
def sig32 (f : Word) : Nat := if exp32 f = 0 then frac32 f else 2 ^ 23 + frac32 f

/-- The exponent of `sigexp32` for a finite pattern: `|value| = sig * 2^E`. -/
def scale32 (f : Word) : Int := if exp32 f = 0 then -149 else (exp32 f : Int) - 150

/-- `sigexp32` of 40_fp_numerics.md R80. -/
def sigexp32 (f : Word) : Nat × Int := (sig32 f, scale32 f)

/-- An integer with a sign bit: `(-1)^s * n`. -/
def signed (s : Bool) (n : Nat) : Int := if s then -(n : Int) else n

/-- The exact value of a finite binary32 pattern in units of `2^-149`, the smallest positive value
(40_fp_numerics.md R80): every finite value is a whole number of these units. -/
def value32 (f : Word) : Int := signed (sign32 f) (sig32 f <<< (scale32 f + 149).toNat)

/-! ## Binary16 (40_fp_numerics.md R81) -/

/-- The sign bit `h[15]`. -/
def sign16 (h : Half) : Bool := h.getLsbD 15

/-- The biased exponent `h[14:10]`. -/
def exp16 (h : Half) : Nat := (h.extractLsb' 10 5).toNat

/-- The fraction `h[9:0]`. -/
def frac16 (h : Half) : Nat := (h.extractLsb' 0 10).toNat

/-- The pattern `{s, e[4:0], m[9:0]}`. -/
def pack16 (s : Bool) (e m : Nat) : Half := BitVec.ofBool s ++ BitVec.ofNat 5 e ++ BitVec.ofNat 10 m

/-- The pattern `{s, r[14:0]}`. -/
def pack16Magnitude (s : Bool) (r : Nat) : Half := BitVec.ofBool s ++ BitVec.ofNat 15 r

/-- The class of a binary16 pattern. -/
def class16 (h : Half) : NumClass :=
  if exp16 h = 31 then
    if frac16 h = 0 then .infinity else if h.getLsbD 9 then .quietNaN else .signallingNaN
  else if exp16 h = 0 then
    if frac16 h = 0 then .zero else .subnormal
  else .normal

/-- The pattern is a NaN. -/
def isNaN16 (h : Half) : Bool := exp16 h == 31 && frac16 h != 0

/-- The pattern is a number: neither infinite nor a NaN. -/
def isFinite16 (h : Half) : Bool := exp16 h != 31

/-- The exact value of a finite binary16 pattern in units of `2^-24`, the smallest positive value
(40_fp_numerics.md R81). -/
def value16 (h : Half) : Int :=
  signed (sign16 h)
    (if exp16 h = 0 then frac16 h else (2 ^ 10 + frac16 h) <<< (exp16 h - 1))

/-! ## Rounding (40_fp_numerics.md R84, R85) -/

/-- `n / 2^sh` rounded to the nearest integer, ties to even: the rounding step that R84 and R93
share. -/
def roundShift (n sh : Nat) : Nat :=
  let q := n >>> sh
  let rem := n % 2 ^ sh
  let half := 2 ^ (sh - 1)
  if rem > half ∨ (rem = half ∧ q % 2 = 1) then q + 1 else q

/-- The exponent `qe` of the unit in the last place of `N * 2^E` (40_fp_numerics.md R84). -/
def unitExponent (N : Nat) (E : Int) : Int :=
  let e : Int := (bitlength N : Int) - 1 + E
  if e < -126 then -149 else e - 23

/-- The rounded significand before a carry is renormalised (40_fp_numerics.md R84). -/
def roundedSig (N : Nat) (E : Int) : Nat :=
  let sh := unitExponent N E - E
  if sh ≤ 0 then N <<< (-sh).toNat else roundShift N sh.toNat

/-- The last part of `round_pack32`: the pattern with significand `q` (at most `2^24`) and unit
exponent `qe`. -/
def packSig (s : Bool) (q : Nat) (qe : Int) : Word :=
  if q = 2 ^ 24 then
    if qe + 151 ≥ 255 then pack32 s 255 0 else pack32 s (qe + 151).toNat (2 ^ 23)
  else if q < 2 ^ 23 then pack32 s 0 q
  else if qe + 150 ≥ 255 then pack32 s 255 0
  else pack32 s (qe + 150).toNat q

/-- `round_pack32(s, N, E)` of 40_fp_numerics.md R84, for `N > 0`: the binary32 pattern of
`(-1)^s * N * 2^E` rounded to nearest, ties to even. -/
def roundPack32 (s : Bool) (N : Nat) (E : Int) : Word :=
  packSig s (roundedSig N E) (unitExponent N E)

/-! ## fp32_adder and fp32_multiplier, one lane -/

/-- A finite pattern's signed significand at a common exponent `em` not above its own. -/
def alignedSig (f : Word) (em : Int) : Int := signed (sign32 f) (sig32 f <<< (scale32 f - em).toNat)

/-- `fadd32(a, b)` (40_fp_numerics.md R89); `nan` is NAN_RESULT. -/
def fadd32 (nan a b : Word) : Word :=
  if isNaN32 a || isNaN32 b then nan
  else if isInf32 a && isInf32 b then (if sign32 a = sign32 b then a else nan)
  else if isInf32 a then a
  else if isInf32 b then b
  else if isZero32 a && isZero32 b then pack32 (sign32 a && sign32 b) 0 0
  else
    let em := min (scale32 a) (scale32 b)
    let S := alignedSig a em + alignedSig b em
    if S = 0 then pack32 false 0 0 else roundPack32 (decide (S < 0)) S.natAbs em

/-- `fmul32(a, b)` (40_fp_numerics.md R90); `nan` is NAN_RESULT. -/
def fmul32 (nan a b : Word) : Word :=
  if isNaN32 a || isNaN32 b then nan
  else
    let s := sign32 a ^^ sign32 b
    if isInf32 a || isInf32 b then
      if isZero32 a || isZero32 b then nan else pack32 s 255 0
    else if isZero32 a || isZero32 b then pack32 s 0 0
    else roundPack32 s (sig32 a * sig32 b) (scale32 a + scale32 b)

/-! ## The converters, one lane -/

/-- `h2f(h)` (40_fp_numerics.md R92): exact for every non-NaN, NaNs made quiet. -/
def h2f (h : Half) : Word :=
  let s := sign16 h
  let e := exp16 h
  let m := frac16 h
  if e = 31 ∧ m = 0 then pack32 s 255 0
  else if e = 31 then pack32 s 255 (2 ^ 22 + (m % 2 ^ 9) <<< 13)
  else if e = 0 ∧ m = 0 then pack32 s 0 0
  else if e = 0 then
    let k := bitlength m - 1
    pack32 s (k + 103) (m <<< (23 - k))
  else pack32 s (e + 112) (m <<< 13)

/-- `f2h(f)` (40_fp_numerics.md R93): round to nearest, ties to even, with gradual underflow;
magnitudes from 65520 up give infinity; NaNs made quiet. -/
def f2h (f : Word) : Half :=
  let s := sign32 f
  let e := exp32 f
  let m := frac32 f
  if e = 255 ∧ m = 0 then pack16 s 31 0
  else if e = 255 then pack16 s 31 (2 ^ 9 + (m >>> 13) % 2 ^ 9)
  else if e = 0 then pack16Magnitude s 0
  else
    let sig := 2 ^ 23 + m
    let ue : Int := (e : Int) - 127
    if ue > 15 then pack16 s 31 0
    else if ue ≥ -14 then
      let q := roundShift sig 13
      let r := ((ue + 15).toNat <<< 10) + (q - 0x400)
      pack16Magnitude s (if r ≥ 0x7C00 then 0x7C00 else r)
    else
      let sh := (-ue - 1).toNat
      if sh ≥ 26 then pack16Magnitude s 0 else pack16Magnitude s (roundShift sig sh)

/-! ## The units over SIZE lanes (40_fp_numerics.md R95 to R100) -/

/-- `fp32_adder`: `r[i] = fadd32(a[i], b[i])` (40_fp_numerics.md R95). -/
def addLanes (nan : Word) (a b : List Word) : List Word := List.zipWith (fadd32 nan) a b

/-- `fp32_multiplier`: `r[i] = fmul32(a[i], b[i])` (40_fp_numerics.md R96). -/
def mulLanes (nan : Word) (a b : List Word) : List Word := List.zipWith (fmul32 nan) a b

/-- `horizontal_adder` (40_fp_numerics.md R99): a left-to-right chain that starts from lane 0 itself.
A register has at least four lanes, so the empty list is no lane vector: its sum is set to the zero
pattern (log 16). -/
def hsum (nan : Word) : List Word → Word
  | [] => pack32 false 0 0
  | w :: ws => ws.foldl (fadd32 nan) w

end Sys2Proof.Machine
end

