-- ==== Sys2Proof/Syntax.lean ====
section
/-! DEFINITION. The command transaction of the LVU (30_encoding.md R60) and its thirteen commands, one
constructor for each row of the opcode map (R65). A command carries its operand values: the
transaction, not the word alone, is the LVU's instruction (00_scope.md glossary, "Command"). -/

namespace Sys2Proof

/-- A vector register number, 0 to NVREG - 1 (10_state.md R21). -/
abbrev VReg := Fin Config.nvreg

/-- A scalar register number, 0 to NSREG - 1 (10_state.md R23). -/
abbrev SReg := Fin Config.nsreg

/-- One command transaction as the host presents it: the command word and the two operand buses
(30_encoding.md R60). -/
structure Command where
  word : Word
  x : Addr
  y : Addr
deriving DecidableEq, Repr

/-- The commands (30_encoding.md R65). Register fields are numbers in range (R62); `addr` operands are
whole bus values, `val16` and `val32` operands are the bus bits the command uses (R63, R64). -/
inductive Instr where
  /-- `VZERO vd` (41_vector_memory.md R110). -/
  | vzero (vd : VReg)
  /-- `VLOAD vd, (x)` (41_vector_memory.md R111). -/
  | vload (vd : VReg) (x : Addr)
  /-- `VSTORE vs1, (x)` (41_vector_memory.md R112). -/
  | vstore (vs1 : VReg) (x : Addr)
  /-- `VADD vd, vs1, vs2` (42_vector_arith.md R120). -/
  | vadd (vd vs1 vs2 : VReg)
  /-- `VMUL vd, vs1, vs2` (42_vector_arith.md R121). -/
  | vmul (vd vs1 vs2 : VReg)
  /-- `VACC vd, vs1` (42_vector_arith.md R122). -/
  | vacc (vd vs1 : VReg)
  /-- `HSUM sd, vs1` (43_reduce_scalar.md R130). -/
  | hsum (sd : SReg) (vs1 : VReg)
  /-- `SMULM sd, (x), (y)` (43_reduce_scalar.md R131). -/
  | smulm (sd : SReg) (x y : Addr)
  /-- `SADD sd, ss1, ss2` (43_reduce_scalar.md R132). -/
  | sadd (sd ss1 ss2 : SReg)
  /-- `SGET ss1` (43_reduce_scalar.md R133). -/
  | sget (ss1 : SReg)
  /-- `CVTHS x`, `x` the binary16 pattern on bus bits 15:0 (44_convert_caps.md R140). -/
  | cvths (x : Half)
  /-- `CVTSH x`, `x` the binary32 pattern on bus bits 31:0 (44_convert_caps.md R141). -/
  | cvtsh (x : Word)
  /-- `CAPS` (44_convert_caps.md R142). -/
  | caps
deriving DecidableEq, Repr

/-- The twelve operand formats (30_encoding.md R63). -/
inductive Format where
  | FV | FVM | FMV | FVVV | FVV | FSV | FSMM | FSSS | FS | FX16 | FX32 | F0
deriving DecidableEq, Repr

/-- What a register field of a format holds: the columns `rd`, `rs1`, `rs2` of 30_encoding.md R63. -/
inductive FieldKind where
  /-- `V`: a vector register number. -/
  | vector
  /-- `S`: a scalar register number. -/
  | scalar
  /-- `-`: the field must be zero. -/
  | unused
deriving DecidableEq, Repr

/-- How a format uses an operand bus: the columns `x`, `y` of 30_encoding.md R63. -/
inductive BusKind where
  /-- `addr`: the whole bus, a byte address. -/
  | addr
  /-- `val16`: bits 15:0. -/
  | val16
  /-- `val32`: bits 31:0. -/
  | val32
  /-- `-`: the bus is ignored. -/
  | ignored
deriving DecidableEq, Repr

/-- Column `rd` of 30_encoding.md R63. -/
def Format.rdKind : Format → FieldKind
  | .FV => .vector
  | .FVM => .vector
  | .FMV => .unused
  | .FVVV => .vector
  | .FVV => .vector
  | .FSV => .scalar
  | .FSMM => .scalar
  | .FSSS => .scalar
  | .FS => .unused
  | .FX16 => .unused
  | .FX32 => .unused
  | .F0 => .unused

/-- Column `rs1` of 30_encoding.md R63. -/
def Format.rs1Kind : Format → FieldKind
  | .FV => .unused
  | .FVM => .unused
  | .FMV => .vector
  | .FVVV => .vector
  | .FVV => .vector
  | .FSV => .vector
  | .FSMM => .unused
  | .FSSS => .scalar
  | .FS => .scalar
  | .FX16 => .unused
  | .FX32 => .unused
  | .F0 => .unused

/-- Column `rs2` of 30_encoding.md R63. -/
def Format.rs2Kind : Format → FieldKind
  | .FVVV => .vector
  | .FSSS => .scalar
  | .FV => .unused
  | .FVM => .unused
  | .FMV => .unused
  | .FVV => .unused
  | .FSV => .unused
  | .FSMM => .unused
  | .FS => .unused
  | .FX16 => .unused
  | .FX32 => .unused
  | .F0 => .unused

/-- Column `x` of 30_encoding.md R63. -/
def Format.xKind : Format → BusKind
  | .FVM => .addr
  | .FMV => .addr
  | .FSMM => .addr
  | .FX16 => .val16
  | .FX32 => .val32
  | .FV => .ignored
  | .FVVV => .ignored
  | .FVV => .ignored
  | .FSV => .ignored
  | .FSSS => .ignored
  | .FS => .ignored
  | .F0 => .ignored

/-- Column `y` of 30_encoding.md R63: only SMULM uses the second bus. -/
def Format.yKind : Format → BusKind
  | .FSMM => .addr
  | .FV => .ignored
  | .FVM => .ignored
  | .FMV => .ignored
  | .FVVV => .ignored
  | .FVV => .ignored
  | .FSV => .ignored
  | .FSSS => .ignored
  | .FS => .ignored
  | .FX16 => .ignored
  | .FX32 => .ignored
  | .F0 => .ignored

/-- The operand format of each command (30_encoding.md R63). -/
def Instr.format : Instr → Format
  | .vzero _ => .FV
  | .vload _ _ => .FVM
  | .vstore _ _ => .FMV
  | .vadd _ _ _ => .FVVV
  | .vmul _ _ _ => .FVVV
  | .vacc _ _ => .FVV
  | .hsum _ _ => .FSV
  | .smulm _ _ _ => .FSMM
  | .sadd _ _ _ => .FSSS
  | .sget _ => .FS
  | .cvths _ => .FX16
  | .cvtsh _ => .FX32
  | .caps => .F0

/-- The mnemonic of each command (30_encoding.md R65, R70). -/
def Instr.mnemonic : Instr → String
  | .vzero _ => "VZERO"
  | .vload _ _ => "VLOAD"
  | .vstore _ _ => "VSTORE"
  | .vadd _ _ _ => "VADD"
  | .vmul _ _ _ => "VMUL"
  | .vacc _ _ => "VACC"
  | .hsum _ _ => "HSUM"
  | .smulm _ _ _ => "SMULM"
  | .sadd _ _ _ => "SADD"
  | .sget _ => "SGET"
  | .cvths _ => "CVTHS"
  | .cvtsh _ => "CVTSH"
  | .caps => "CAPS"

/-- A value in hexadecimal, as 30_encoding.md R70 writes operands. -/
def hexText (n : Nat) : String :=
  "0x" ++ String.ofList ((Nat.toDigits 16 n).map Char.toUpper)

/-- The operands of a command in assembler syntax: destination first, addresses in parentheses,
by-value operands bare (30_encoding.md R70). -/
def Instr.operandText : Instr → List String
  | .vzero vd => ["v" ++ toString vd.val]
  | .vload vd x => ["v" ++ toString vd.val, "(" ++ hexText x.toNat ++ ")"]
  | .vstore vs1 x => ["v" ++ toString vs1.val, "(" ++ hexText x.toNat ++ ")"]
  | .vadd vd vs1 vs2 => ["v" ++ toString vd.val, "v" ++ toString vs1.val, "v" ++ toString vs2.val]
  | .vmul vd vs1 vs2 => ["v" ++ toString vd.val, "v" ++ toString vs1.val, "v" ++ toString vs2.val]
  | .vacc vd vs1 => ["v" ++ toString vd.val, "v" ++ toString vs1.val]
  | .hsum sd vs1 => ["s" ++ toString sd.val, "v" ++ toString vs1.val]
  | .smulm sd x y =>
      ["s" ++ toString sd.val, "(" ++ hexText x.toNat ++ ")", "(" ++ hexText y.toNat ++ ")"]
  | .sadd sd ss1 ss2 => ["s" ++ toString sd.val, "s" ++ toString ss1.val, "s" ++ toString ss2.val]
  | .sget ss1 => ["s" ++ toString ss1.val]
  | .cvths x => [hexText x.toNat]
  | .cvtsh x => [hexText x.toNat]
  | .caps => []

/-- One line of assembly: the mnemonic, then the operands separated by commas (30_encoding.md R70). -/
def Instr.assembly (i : Instr) : String :=
  match i.operandText with
  | [] => i.mnemonic
  | ops => i.mnemonic ++ " " ++ ", ".intercalate ops

end Sys2Proof
end

