-- ==== Sys2Proof/WellFormed.lean ====
section
/-! DEFINITION. Which commands an instance has. Register numbers are in range by their types
(30_encoding.md R62), so the one check left is 30_encoding.md R66 clause (e): the by-value conversions
exist only where the converter hardware exists (44_convert_caps.md R143). -/

namespace Sys2Proof

/-- `wellFormed et i`: command `i` is a command of an instance whose element type is `et`. -/
def wellFormed (et : EType) : Instr → Bool
  | .vzero _ => true
  | .vload _ _ => true
  | .vstore _ _ => true
  | .vadd _ _ _ => true
  | .vmul _ _ _ => true
  | .vacc _ _ => true
  | .hsum _ _ => true
  | .smulm _ _ _ => true
  | .sadd _ _ _ => true
  | .sget _ => true
  | .cvths _ => et == .f16
  | .cvtsh _ => et == .f16
  | .caps => true

end Sys2Proof
end

