-- ==== Sys2Proof/Decode.lean ====
section
/-! DEFINITION. The decoder and the encoder of the command set LVU-CS 1.0 (30_encoding.md R61 to R68,
R72), and the opcode map as a table of rows (R65). The decoder is total and strict: every word is one
of the thirteen commands or is illegal for a reason it names (R66). -/

namespace Sys2Proof

/-- Why a command word is illegal: the clauses of 30_encoding.md R66. The hardware does not report
which one holds (60_exceptions.md R181); the name is for the reader. -/
inductive Illegal where
  /-- Clause (a): `op` is 0x00 or at least 0x0E. -/
  | unassignedOpcode
  /-- Clause (b): bits 11:0 are not all zero. -/
  | reservedBits
  /-- Clause (c): a register field the command does not use is not zero. -/
  | unusedField
  /-- Clause (d): a register number is out of range. -/
  | registerRange
  /-- Clause (e): CVTHS or CVTSH on an instance without a converter. -/
  | noConverter
deriving DecidableEq, Repr

/-! ## The fields of the word (30_encoding.md R61) -/

/-- `op = w[31:24]`. -/
def opField (w : Word) : BitVec 8 := w.extractLsb' 24 8

/-- `rd = w[23:20]`. -/
def rdField (w : Word) : BitVec 4 := w.extractLsb' 20 4

/-- `rs1 = w[19:16]`. -/
def rs1Field (w : Word) : BitVec 4 := w.extractLsb' 16 4

/-- `rs2 = w[15:12]`. -/
def rs2Field (w : Word) : BitVec 4 := w.extractLsb' 12 4

/-- The reserved bits `w[11:0]`. -/
def zeroField (w : Word) : BitVec 12 := w.extractLsb' 0 12

/-- A field that names a vector register (30_encoding.md R62): never truncated. -/
def vectorField (f : BitVec 4) : Except Illegal VReg :=
  if h : f.toNat < 8 then .ok ⟨f.toNat, h⟩ else .error .registerRange

/-- A field that names a scalar register (30_encoding.md R62): never truncated. -/
def scalarField (f : BitVec 4) : Except Illegal SReg :=
  if h : f.toNat < 4 then .ok ⟨f.toNat, h⟩ else .error .registerRange

/-- A field the command does not use must be zero (30_encoding.md R62). -/
def unusedField (f : BitVec 4) : Except Illegal Unit :=
  if f = 0 then .ok () else .error .unusedField

/-- The converter a by-value conversion needs (30_encoding.md R66 clause (e)). -/
def converterPresent (et : EType) : Except Illegal Unit :=
  if et = .f16 then .ok () else .error .noConverter

/-! ## Decoding -/

/-- Decode a command whose reserved bits are zero, by its opcode (30_encoding.md R63, R65). -/
def decodeOp (et : EType) (op : Nat) (rd rs1 rs2 : BitVec 4) (x y : Addr) : Except Illegal Instr :=
  match op with
  | 0x01 => do
      unusedField rs1; unusedField rs2
      return .vzero (← vectorField rd)
  | 0x02 => do
      unusedField rs1; unusedField rs2
      return .vload (← vectorField rd) x
  | 0x03 => do
      unusedField rd; unusedField rs2
      return .vstore (← vectorField rs1) x
  | 0x04 => do
      return .vadd (← vectorField rd) (← vectorField rs1) (← vectorField rs2)
  | 0x05 => do
      return .vmul (← vectorField rd) (← vectorField rs1) (← vectorField rs2)
  | 0x06 => do
      unusedField rs2
      return .vacc (← vectorField rd) (← vectorField rs1)
  | 0x07 => do
      unusedField rs2
      return .hsum (← scalarField rd) (← vectorField rs1)
  | 0x08 => do
      unusedField rs1; unusedField rs2
      return .smulm (← scalarField rd) x y
  | 0x09 => do
      return .sadd (← scalarField rd) (← scalarField rs1) (← scalarField rs2)
  | 0x0A => do
      unusedField rd; unusedField rs2
      return .sget (← scalarField rs1)
  | 0x0B => do
      unusedField rd; unusedField rs1; unusedField rs2
      converterPresent et
      return .cvths (x.setWidth 16)
  | 0x0C => do
      unusedField rd; unusedField rs1; unusedField rs2
      converterPresent et
      return .cvtsh (x.setWidth 32)
  | 0x0D => do
      unusedField rd; unusedField rs1; unusedField rs2
      return .caps
  | _ => .error .unassignedOpcode

/-- The decoder: the command a transaction is on an instance whose element type is `et`, or why its
word is illegal (30_encoding.md R66). Nothing but the word and `et` decides which (R68). -/
def decode (et : EType) (c : Command) : Except Illegal Instr :=
  if zeroField c.word = 0 then
    decodeOp et (opField c.word).toNat (rdField c.word) (rs1Field c.word) (rs2Field c.word) c.x c.y
  else .error .reservedBits

/-- The word is legal on an instance whose element type is `et` (30_encoding.md R66). -/
def legalWord (et : EType) (w : Word) : Bool := (decode et ⟨w, 0, 0⟩).isOk

/-! ## Encoding -/

/-- `encode(op, rd, rs1, rs2)` of 30_encoding.md R72. -/
def encodeWord (op rd rs1 rs2 : Nat) : Word :=
  BitVec.ofNat 32 ((op <<< 24) ||| (rd <<< 20) ||| (rs1 <<< 16) ||| (rs2 <<< 12))

/-- The `op` value of each command (30_encoding.md R65). -/
def Instr.opcode : Instr → Nat
  | .vzero _ => 0x01
  | .vload _ _ => 0x02
  | .vstore _ _ => 0x03
  | .vadd _ _ _ => 0x04
  | .vmul _ _ _ => 0x05
  | .vacc _ _ => 0x06
  | .hsum _ _ => 0x07
  | .smulm _ _ _ => 0x08
  | .sadd _ _ _ => 0x09
  | .sget _ => 0x0A
  | .cvths _ => 0x0B
  | .cvtsh _ => 0x0C
  | .caps => 0x0D

/-- The register number in field `rd`, zero where the command does not use it (30_encoding.md R63). -/
def Instr.rd : Instr → Nat
  | .vzero vd => vd
  | .vload vd _ => vd
  | .vstore _ _ => 0
  | .vadd vd _ _ => vd
  | .vmul vd _ _ => vd
  | .vacc vd _ => vd
  | .hsum sd _ => sd
  | .smulm sd _ _ => sd
  | .sadd sd _ _ => sd
  | .sget _ => 0
  | .cvths _ => 0
  | .cvtsh _ => 0
  | .caps => 0

/-- The register number in field `rs1`, zero where the command does not use it (30_encoding.md R63). -/
def Instr.rs1 : Instr → Nat
  | .vzero _ => 0
  | .vload _ _ => 0
  | .vstore vs1 _ => vs1
  | .vadd _ vs1 _ => vs1
  | .vmul _ vs1 _ => vs1
  | .vacc _ vs1 => vs1
  | .hsum _ vs1 => vs1
  | .smulm _ _ _ => 0
  | .sadd _ ss1 _ => ss1
  | .sget ss1 => ss1
  | .cvths _ => 0
  | .cvtsh _ => 0
  | .caps => 0

/-- The register number in field `rs2`, zero where the command does not use it (30_encoding.md R63). -/
def Instr.rs2 : Instr → Nat
  | .vzero _ => 0
  | .vload _ _ => 0
  | .vstore _ _ => 0
  | .vadd _ _ vs2 => vs2
  | .vmul _ _ vs2 => vs2
  | .vacc _ _ => 0
  | .hsum _ _ => 0
  | .smulm _ _ _ => 0
  | .sadd _ _ ss2 => ss2
  | .sget _ => 0
  | .cvths _ => 0
  | .cvtsh _ => 0
  | .caps => 0

/-- The value the host places on bus `x`, zero where the command ignores it (30_encoding.md R63). -/
def Instr.busX : Instr → Addr
  | .vzero _ => 0
  | .vload _ x => x
  | .vstore _ x => x
  | .vadd _ _ _ => 0
  | .vmul _ _ _ => 0
  | .vacc _ _ => 0
  | .hsum _ _ => 0
  | .smulm _ x _ => x
  | .sadd _ _ _ => 0
  | .sget _ => 0
  | .cvths x => x.setWidth 64
  | .cvtsh x => x.setWidth 64
  | .caps => 0

/-- The value the host places on bus `y`, zero where the command ignores it (30_encoding.md R63). -/
def Instr.busY : Instr → Addr
  | .vzero _ => 0
  | .vload _ _ => 0
  | .vstore _ _ => 0
  | .vadd _ _ _ => 0
  | .vmul _ _ _ => 0
  | .vacc _ _ => 0
  | .hsum _ _ => 0
  | .smulm _ _ y => y
  | .sadd _ _ _ => 0
  | .sget _ => 0
  | .cvths _ => 0
  | .cvtsh _ => 0
  | .caps => 0

/-- The encoder: the transaction that is a command (30_encoding.md R65, R72). -/
def encode (i : Instr) : Command :=
  ⟨encodeWord i.opcode i.rd i.rs1 i.rs2, i.busX, i.busY⟩

/-! ## The opcode map (30_encoding.md R65) -/

/-- One row of the opcode map. -/
structure OpcodeRow where
  op : Nat
  mnemonic : String
  format : Format
  pattern : Word
  mask : Word
deriving DecidableEq, Repr

/-- The thirteen rows of the opcode map, as 30_encoding.md R65 prints them. -/
def opcodeMap : List OpcodeRow :=
  [ ⟨0x01, "VZERO", .FV, 0x01000000, 0xFF8FFFFF⟩,
    ⟨0x02, "VLOAD", .FVM, 0x02000000, 0xFF8FFFFF⟩,
    ⟨0x03, "VSTORE", .FMV, 0x03000000, 0xFFF8FFFF⟩,
    ⟨0x04, "VADD", .FVVV, 0x04000000, 0xFF888FFF⟩,
    ⟨0x05, "VMUL", .FVVV, 0x05000000, 0xFF888FFF⟩,
    ⟨0x06, "VACC", .FVV, 0x06000000, 0xFF88FFFF⟩,
    ⟨0x07, "HSUM", .FSV, 0x07000000, 0xFFC8FFFF⟩,
    ⟨0x08, "SMULM", .FSMM, 0x08000000, 0xFFCFFFFF⟩,
    ⟨0x09, "SADD", .FSSS, 0x09000000, 0xFFCCCFFF⟩,
    ⟨0x0A, "SGET", .FS, 0x0A000000, 0xFFFCFFFF⟩,
    ⟨0x0B, "CVTHS", .FX16, 0x0B000000, 0xFFFFFFFF⟩,
    ⟨0x0C, "CVTSH", .FX32, 0x0C000000, 0xFFFFFFFF⟩,
    ⟨0x0D, "CAPS", .F0, 0x0D000000, 0xFFFFFFFF⟩ ]

/-- A word matches a row when `w & mask == match` (30_encoding.md R65). -/
def OpcodeRow.matchesWord (r : OpcodeRow) (w : Word) : Bool := w &&& r.mask == r.pattern

/-- A row's command exists on an instance (30_encoding.md R65: CVTHS and CVTSH need ETYPE = F16). -/
def OpcodeRow.availableOn (r : OpcodeRow) (et : EType) : Bool :=
  match r.format with
  | .FX16 => et == .f16
  | .FX32 => et == .f16
  | _ => true

/-! ## The bits of a bus a command uses (30_encoding.md R64) -/

/-- The part of a bus value that a command of this kind uses; the other bits are ignored. -/
def BusKind.used : BusKind → Addr → Addr
  | .addr, b => b
  | .val16, b => (b.setWidth 16).setWidth 64
  | .val32, b => (b.setWidth 32).setWidth 64
  | .ignored, _ => 0

/-- A register field that does not fit its kind makes the word illegal: clause (c) for a field the
command does not use, clause (d) for a register number out of range (30_encoding.md R66). -/
def FieldKind.rejects : FieldKind → BitVec 4 → Bool
  | .vector, f => decide (8 ≤ f.toNat)
  | .scalar, f => decide (4 ≤ f.toNat)
  | .unused, f => f != 0

/-! ## The command as a string of bits -/

/-- The transaction whose bits are `w`: the command word in bits 31:0, then bus `x` in bits 95:32,
then bus `y` in bits 159:96; bits at and above `nbits` are zero. DESIGN CHOICE (log 14): the spec gives
the word 32 bits and the buses no place beside it. -/
def Command.ofBits (nbits w : Nat) : Command :=
  let b := w % 2 ^ nbits
  ⟨BitVec.ofNat 32 b, BitVec.ofNat 64 (b >>> 32), BitVec.ofNat 64 (b >>> 96)⟩

/-- The instruction the decoder reads from a transaction's bits, on the variant that has all thirteen
commands (log 14). -/
def decodeTableWord (nbits w : Nat) : Option Instr :=
  (decode Config.resetVariant.etype (Command.ofBits nbits w)).toOption

end Sys2Proof
end

