-- ==== Sys2Proof/Machine/State.lean ====
section
/-! DEFINITION. The state of one LVU instance (10_state.md R20), together with what the spec keeps outside
the unit but every step reads or writes: the memory (R30), the launch's valid windows (20_memory.md
R45), the command port (30_encoding.md R60) and the responses delivered (70_reset_and_hazards.md
R208). There is no program counter, no flag, no status or control register and no hidden state
(R26, R27, R29, R31). -/

namespace Sys2Proof.Machine

/-- Why a step has no successor state (60_exceptions.md R182). The hardware reports neither of these and
what it does is undefined; the model stops. Both are safe: the hardware may go on, and nothing true of
a conforming command sequence is lost. -/
inductive Fault where
  /-- VLOAD or SMULM touches a byte outside READABLE, or past the top of the address space
  (20_memory.md R45, R46). Safe. -/
  | outsideReadable
  /-- VSTORE touches a byte outside WRITABLE, or past the top of the address space (20_memory.md R45,
  R46). Safe. -/
  | outsideWritable
deriving DecidableEq, Repr

/-- Why an instruction has no meaning. No arm of `exec` uses it: all thirteen commands are modelled, and
an illegal word is answered, not refused (60_exceptions.md R181). -/
inductive Refusal where
  /-- An instruction whose arm has no meaning yet. Raised by no arm. Safe. -/
  | notModelled (mnemonic : String)
deriving DecidableEq, Repr

/-- A vector register (10_state.md R21): its lanes, lane 0 first, and whether a command has written it
since reset (R32). -/
structure VectorReg where
  lanes : List Word
  written : Bool
deriving DecidableEq, Repr

/-- A scalar register (10_state.md R23), and whether a command has written it since reset (R32). -/
structure ScalarReg where
  bits : Word
  written : Bool
deriving DecidableEq, Repr

/-- The memory behind the port: (address, byte) pairs in the canonical form `Memory.wf` of
Machine/Ops.lean. -/
abbrev Memory := List Host.Cell

/-- What the caller lets the LVU do with a region: WRITABLE is a subset of READABLE (20_memory.md R45),
so there is no write-only region. -/
inductive Perm where
  | readOnly
  | readWrite
deriving DecidableEq, Repr

/-- A range of addresses the caller makes valid: `size` bytes from `base` on (20_memory.md R45). -/
structure Region where
  base : Nat
  size : Nat
  perm : Perm
deriving DecidableEq, Repr

/-- The parameters of a launch: READABLE and WRITABLE as a list of regions (20_memory.md R45). No command
changes them. -/
structure Launch where
  regions : List Region
deriving DecidableEq, Repr

/-- A response (30_encoding.md R69). -/
structure Response where
  err : Bool
  data : Word
deriving DecidableEq, Repr

/-- What the host does at the ports (70_reset_and_hazards.md R209): it presents a command, or it pulses
`rst` between two commands (R200). -/
inductive HostAction where
  | command (c : Command)
  | reset
deriving DecidableEq, Repr

/-- The state a step reads and writes. -/
structure State where
  /-- The instance's constants (00_scope.md R7, R9). -/
  params : Params
  /-- `v[0]` to `v[7]` (10_state.md R21). -/
  vregs : Vector VectorReg Config.nvreg
  /-- `s[0]` to `s[3]` (10_state.md R23). -/
  sregs : Vector ScalarReg Config.nsreg
  /-- The memory behind the port (10_state.md R30). -/
  mem : Memory
  /-- The launch's parameters (20_memory.md R45). -/
  launch : Launch
  /-- What the host will do next at the ports, first action first (log 8). -/
  port : List HostAction
  /-- The responses delivered since the run began, first response first (70_reset_and_hazards.md
  R208). -/
  responses : List Response
deriving DecidableEq, Repr

/-- A vector register that no command has written since reset (10_state.md R32); its bits are the
model's choice (log 1). -/
def VectorReg.unwritten (size : Nat) : VectorReg :=
  ⟨List.replicate size Config.unwrittenBits, false⟩

/-- A scalar register that no command has written since reset (10_state.md R32, log 1). -/
def ScalarReg.unwritten : ScalarReg := ⟨Config.unwrittenBits, false⟩

/-- The instance that `State.reset` describes (log 3, log 4). -/
def Params.atReset : Params := ⟨Config.resetVariant, Config.nanDefault⟩

/-- A launch in which the caller has made the whole address space readable and writable. DESIGN CHOICE
(log 6), unsafe: the spec gives a launch no default. -/
def Launch.atReset : Launch := ⟨[⟨0, Config.addrLimit, .readWrite⟩]⟩

/-- The machine right after reset (10_state.md R32, 70_reset_and_hazards.md R200): every register
unwritten, memory with nothing listed, no command presented and no response delivered. -/
def State.reset : State where
  params := Params.atReset
  vregs := Vector.replicate Config.nvreg (VectorReg.unwritten Config.resetVariant.size)
  sregs := Vector.replicate Config.nsreg ScalarReg.unwritten
  mem := []
  launch := Launch.atReset
  port := []
  responses := []

end Sys2Proof.Machine
end

