-- ==== Sys2Proof/Machine/Operands.lean ====
section
/-! DEFINITION. The operand forms of the commands: elements of type ETYPE between memory and lanes
(00_scope.md R16), the address of an element (20_memory.md R43), and the CAPS word (10_state.md R28). -/

namespace Sys2Proof.Machine

/-- `elem_to_f32(raw)`: the lane an element of memory becomes (00_scope.md R16). -/
def elemToF32 : EType → Nat → Word
  | .f32, raw => BitVec.ofNat 32 raw
  | .f16, raw => h2f (BitVec.ofNat 16 raw)

/-- `f32_to_elem(f)`: the element a lane becomes in memory (00_scope.md R16). -/
def f32ToElem : EType → Word → Nat
  | .f32, f => f.toNat
  | .f16, f => (f2h f).toNat

/-- The address of element `i` of the buffer or window at `x`: the exact integer `x + i * ESZ`, never
wrapped (20_memory.md R42, R43, R46). -/
def elemAddr (v : Variant) (x i : Nat) : Nat := x + i * v.esz

/-- The version of the command set (00_scope.md R2). -/
def versionMajor : Nat := 1

/-- The version of the command set, minor part (00_scope.md R2). -/
def versionMinor : Nat := 0

/-- HALF: the half-precision path is present (10_state.md R28). -/
def halfBit : EType → Bool
  | .f32 => false
  | .f16 => true

/-- The CAPS word of a variant, field by field (10_state.md R28). -/
def capsWord (v : Variant) : Word :=
  BitVec.ofNat 8 versionMajor ++ BitVec.ofNat 8 versionMinor ++ (0 : BitVec 7) ++
    BitVec.ofBool (halfBit v.etype) ++ BitVec.ofNat 8 v.size

end Sys2Proof.Machine
end

