-- ==== Sys2Proof/Machine/Ops.lean ====
section
/-! DEFINITION. The named operations over memory, registers and the ports. Every access goes through
one of them: the valid windows (20_memory.md R45), byte order (R41), registers, responses
(30_encoding.md R69), the illegal-command response (60_exceptions.md R181, in place of a trap entry,
R186) and reset (70_reset_and_hazards.md R200). -/

namespace Sys2Proof.Machine

/-- The outcome of a step. -/
abbrev Out := Host.Outcome State Fault Refusal

/-! ## Memory as data -/

/-- The byte at an address: a listed byte, or `Config.unplacedByte` (log 7). -/
def Memory.read : Memory → Nat → Byte
  | [], _ => Config.unplacedByte
  | (b, x) :: rest, a => if a = b then x else Memory.read rest a

/-- Write one byte, keeping the canonical form: a byte equal to what an unlisted address reads as is
not listed. -/
def Memory.write : Memory → Nat → Byte → Memory
  | [], a, x => if x = Config.unplacedByte then [] else [(a, x)]
  | (b, y) :: rest, a, x =>
      if a < b then
        if x = Config.unplacedByte then (b, y) :: rest else (a, x) :: (b, y) :: rest
      else if a = b then
        if x = Config.unplacedByte then rest else (a, x) :: rest
      else (b, y) :: Memory.write rest a x

/-- The canonical form from address `lo` on: addresses strictly rising and below `2^XLEN`, and no
entry that an unlisted address would read as. -/
def Memory.wfFrom : Nat → Memory → Bool
  | _, [] => true
  | lo, (a, x) :: rest =>
      decide (lo ≤ a) && decide (a < Config.addrLimit) && x != Config.unplacedByte &&
        Memory.wfFrom (a + 1) rest

/-- The memory is in canonical form. -/
def Memory.wf (m : Memory) : Bool := Memory.wfFrom 0 m

/-- The integer assembled little-endian from the `n` bytes at `a` on (00_scope.md R14, 20_memory.md
R41). -/
def Memory.readLE (m : Memory) (a : Nat) : Nat → Nat
  | 0 => 0
  | n + 1 => (m.read a).toNat + 256 * Memory.readLE m (a + 1) n

/-- Write the `n` low-order bytes of `w` at `a` on, the least significant first (00_scope.md R14,
20_memory.md R41). -/
def Memory.writeLE (m : Memory) (a : Nat) : Nat → Nat → Memory
  | 0, _ => m
  | n + 1, w => Memory.writeLE (m.write a (BitVec.ofNat 8 w)) (a + 1) n (w / 256)

/-! ## The valid windows (20_memory.md R45, R46) -/

/-- The region holds the address. -/
def Region.holds (r : Region) (a : Nat) : Bool := decide (r.base ≤ a) && decide (a < r.base + r.size)

/-- `a` is in READABLE: it exists and some region holds it. -/
def Launch.readable (l : Launch) (a : Nat) : Bool :=
  decide (a < Config.addrLimit) && l.regions.any fun r => r.holds a

/-- `a` is in WRITABLE: it exists and some region that may be written holds it. -/
def Launch.writable (l : Launch) (a : Nat) : Bool :=
  decide (a < Config.addrLimit) && l.regions.any fun r => r.holds a && r.perm == .readWrite

/-- All `n` addresses from `a` on are in READABLE. The addresses are the integers `a + k`. -/
def State.readableWindow (s : State) (a n : Nat) : Bool :=
  (List.range n).all fun k => s.launch.readable (a + k)

/-- All `n` addresses from `a` on are in WRITABLE. -/
def State.writableWindow (s : State) (a n : Nat) : Bool :=
  (List.range n).all fun k => s.launch.writable (a + k)

/-- `MemRead(a, n)` (00_scope.md R14). -/
def State.memRead (s : State) (a n : Nat) : Except Fault Nat :=
  if s.readableWindow a n then .ok (s.mem.readLE a n) else .error .outsideReadable

/-- `MemWrite(a, n, w)` (00_scope.md R14). -/
def State.memWrite (s : State) (a n w : Nat) : Except Fault State :=
  if s.writableWindow a n then .ok { s with mem := s.mem.writeLE a n w } else .error .outsideWritable

/-! ## The instance -/

/-- ETYPE of the instance. -/
def State.etype (s : State) : EType := s.params.variant.etype

/-- SIZE of the instance. -/
def State.size (s : State) : Nat := s.params.variant.size

/-- ESZ of the instance. -/
def State.esz (s : State) : Nat := s.params.variant.esz

/-- VBYTES of the instance. -/
def State.vbytes (s : State) : Nat := s.params.variant.vbytes

/-- NAN_RESULT of the instance. -/
def State.nan (s : State) : Word := s.params.nanResult

/-! ## Elements and vector windows -/

/-- The lane that the element at address `a` becomes; the window is checked by the caller. -/
def State.elemAt (s : State) (a : Nat) : Word := elemToF32 s.etype (s.mem.readLE a s.esz)

/-- `elem_to_f32(MemRead(a, ESZ))` (43_reduce_scalar.md R131). -/
def State.loadElem (s : State) (a : Nat) : Except Fault Word :=
  match s.memRead a s.esz with
  | .ok raw => .ok (elemToF32 s.etype raw)
  | .error r => .error r

/-- The SIZE lanes a VLOAD reads from the window at `a`, lane `i` from element `i` (41_vector_memory.md
R111). A window that is only partly valid is a fault as a whole (20_memory.md R58, log 11). -/
def State.loadWindow (s : State) (a : Nat) : Except Fault (List Word) :=
  if s.readableWindow a s.vbytes then
    .ok ((List.range s.size).map fun i => s.elemAt (elemAddr s.params.variant a i))
  else .error .outsideReadable

/-- The memory after each lane is written to its element, lane 0 at address `a`. -/
def Memory.storeLanes (m : Memory) (et : EType) (a : Nat) : List Word → Memory
  | [] => m
  | f :: fs => Memory.storeLanes (m.writeLE a et.esz (f32ToElem et f)) et (a + et.esz) fs

/-- The state after a VSTORE writes its lanes to the window at `a` (41_vector_memory.md R112), or the
fault of a window that is not wholly writable (20_memory.md R58). -/
def State.storeWindow (s : State) (a : Nat) (lanes : List Word) : Except Fault State :=
  if s.writableWindow a s.vbytes then .ok { s with mem := s.mem.storeLanes s.etype a lanes }
  else .error .outsideWritable

/-! ## Registers -/

/-- Read vector register `k` whole (10_state.md R24): the bits it holds, whether or not a command has
written it since reset, as the hardware does (60_exceptions.md R183, log 2). -/
def State.readV (s : State) (k : VReg) : List Word := s.vregs[k].lanes

/-- Read scalar register `k` (10_state.md R23): the bits it holds, whether or not a command has written
it since reset, as the hardware does (60_exceptions.md R183, log 2). -/
def State.readS (s : State) (k : SReg) : Word := s.sregs[k].bits

/-- `v[k][i]`, lane `i` of vector register `k` (00_scope.md R13), for the claims. -/
def State.lane (s : State) (k : VReg) (i : Nat) : Word := s.vregs[k].lanes.getD i 0

/-- `v[k] <- lanes`: every lane is replaced (00_scope.md R13, 10_state.md R25). -/
def State.writeV (s : State) (k : VReg) (lanes : List Word) : State :=
  { s with vregs := s.vregs.set k.val ⟨lanes, true⟩ k.isLt }

/-- `s[k] <- bits` (00_scope.md R13). -/
def State.writeS (s : State) (k : SReg) (bits : Word) : State :=
  { s with sregs := s.sregs.set k.val ⟨bits, true⟩ k.isLt }

/-! ## The ports -/

/-- Deliver a response (30_encoding.md R69): exactly one for each command (R60). -/
def State.respond (s : State) (err : Bool) (data : Word) : State :=
  { s with responses := s.responses ++ [⟨err, data⟩] }

/-- The state once the LVU has accepted the action at the head of the port's queue; `rest` are the
actions after it. -/
def State.accept (s : State) (rest : List HostAction) : State := { s with port := rest }

/-- The state in which the host presents `c` before everything else it will do. -/
def State.present (s : State) (c : Command) : State := { s with port := .command c :: s.port }

/-- Continue a meaning with a value that was read, or stop at the read's fault. -/
def orFault {α : Type} (r : Except Fault α) (k : α → Out) : Out :=
  match r with
  | .ok a => k a
  | .error f => .fault f

/-- A command that is answered `resp(0, data)` (30_encoding.md R69). -/
def answered (s : State) (data : Word) : Out := .next (s.respond false data)

/-- The illegal-command response `resp(1, 0)`, the only error the hardware reports (60_exceptions.md
R181): nothing else changes. It stands where other machines take a trap: there is no trap entry and no
return (R186, R187). -/
def illegalCommand (s : State) : Out := .next (s.respond true 0)

/-- A step with no command presented: the LVU waits and holds its state (60_exceptions.md R184, R194). -/
def idle (s : State) : Out := .next s

/-- Reset between two commands: every register is unwritten again, and a new run begins with the
memory as the caller finds it (70_reset_and_hazards.md R200, R201; log 10). CAPS does not change. -/
def takeReset (s : State) : Out :=
  .next
    { s with
      vregs := Vector.replicate Config.nvreg (VectorReg.unwritten s.size)
      sregs := Vector.replicate Config.nsreg ScalarReg.unwritten
      responses := [] }

/-! ## What a state of the machine is -/

/-- Every vector register holds exactly SIZE lanes (10_state.md R21). -/
def State.lanesWf (s : State) : Bool := s.vregs.toList.all fun r => r.lanes.length == s.size

/-- The invariant of the model: NAN_RESULT is a quiet NaN (40_fp_numerics.md R88, 92_eei_decisions.md
D19), every vector register has SIZE lanes (10_state.md R21), and the memory is in canonical form. -/
def State.wf (s : State) : Bool := isQuietNaN32 s.nan && s.lanesWf && s.mem.wf

end Sys2Proof.Machine
end

