-- ==== Sys2Proof/Machine/ConvertCaps.lean ====
section
/-! DEFINITION. CVTHS, CVTSH and CAPS (44_convert_caps.md). They read and write no register and touch no
memory. On an instance without a converter the two conversions are illegal commands (R143); the
decoder already answers so, and the meanings say the same (log 15). -/

namespace Sys2Proof.Machine

/-- `CVTHS x` (44_convert_caps.md R140). -/
def execCvths (x : Half) (s : State) : Out :=
  if s.etype = .f16 then answered s (h2f x) else illegalCommand s

/-- `CVTSH x` (44_convert_caps.md R141): bits 31:16 of the data are zero. -/
def execCvtsh (x : Word) (s : State) : Out :=
  if s.etype = .f16 then answered s ((f2h x).setWidth 32) else illegalCommand s

/-- `CAPS` (44_convert_caps.md R142). -/
def execCaps (s : State) : Out := answered s (capsWord s.params.variant)

end Sys2Proof.Machine
end

