-- ==== Sys2Proof/Machine/ReduceScalar.lean ====
section
/-! DEFINITION. HSUM, SMULM, SADD and SGET (43_reduce_scalar.md). -/

namespace Sys2Proof.Machine

/-- `HSUM sd, vs1` (43_reduce_scalar.md R130). -/
def execHsum (sd : SReg) (vs1 : VReg) (s : State) : Out :=
  answered (s.writeS sd (hsum s.nan (s.readV vs1))) 0

/-- `SMULM sd, (x), (y)` (43_reduce_scalar.md R131): two elements, widened, multiplied and rounded
once. -/
def execSmulm (sd : SReg) (x y : Addr) (s : State) : Out :=
  orFault (s.loadElem x.toNat) fun p => orFault (s.loadElem y.toNat) fun q =>
    answered (s.writeS sd (fmul32 s.nan p q)) 0

/-- `SADD sd, ss1, ss2` (43_reduce_scalar.md R132). -/
def execSadd (sd ss1 ss2 : SReg) (s : State) : Out :=
  answered (s.writeS sd (fadd32 s.nan (s.readS ss1) (s.readS ss2))) 0

/-- `SGET ss1` (43_reduce_scalar.md R133): the register's bits as they are; no state changes. -/
def execSget (ss1 : SReg) (s : State) : Out :=
  answered s (s.readS ss1)

end Sys2Proof.Machine
end

