-- ==== Sys2Proof/Machine/VectorArith.lean ====
section
/-! DEFINITION. VADD, VMUL and VACC (42_vector_arith.md). All sources are read before the destination
is written (R123). -/

namespace Sys2Proof.Machine

/-- `VADD vd, vs1, vs2` (42_vector_arith.md R120). -/
def execVadd (vd vs1 vs2 : VReg) (s : State) : Out :=
  answered (s.writeV vd (addLanes s.nan (s.readV vs1) (s.readV vs2))) 0

/-- `VMUL vd, vs1, vs2` (42_vector_arith.md R121). -/
def execVmul (vd vs1 vs2 : VReg) (s : State) : Out :=
  answered (s.writeV vd (mulLanes s.nan (s.readV vs1) (s.readV vs2))) 0

/-- `VACC vd, vs1` (42_vector_arith.md R122): the accumulator is the first operand. -/
def execVacc (vd vs1 : VReg) (s : State) : Out :=
  answered (s.writeV vd (addLanes s.nan (s.readV vd) (s.readV vs1))) 0

end Sys2Proof.Machine
end

