-- ==== Sys2Proof/Machine/VectorMemory.lean ====
section
/-! DEFINITION. VZERO, VLOAD and VSTORE (41_vector_memory.md). -/

namespace Sys2Proof.Machine

/-- `VZERO vd` (41_vector_memory.md R110): every lane becomes `+0`. -/
def execVzero (vd : VReg) (s : State) : Out :=
  answered (s.writeV vd (List.replicate s.size 0)) 0

/-- `VLOAD vd, (x)` (41_vector_memory.md R111): the destination is written after all elements are
read. -/
def execVload (vd : VReg) (x : Addr) (s : State) : Out :=
  orFault (s.loadWindow x.toNat) fun t => answered (s.writeV vd t) 0

/-- `VSTORE vs1, (x)` (41_vector_memory.md R112): the register is read, then the window written
(60_exceptions.md R185). -/
def execVstore (vs1 : VReg) (x : Addr) (s : State) : Out :=
  orFault (s.storeWindow x.toNat (s.readV vs1)) fun s' => answered s' 0

end Sys2Proof.Machine
end

