-- ==== Sys2Proof/Machine/Dispatch.lean ====
section
/-! DEFINITION. One arm for each command (60_exceptions.md R195, a legal word). -/

namespace Sys2Proof.Machine

def exec (i : Instr) (s : State) : Host.Outcome State Fault Refusal :=
  match i with
  | .vzero vd => Sys2Proof.Machine.execVzero vd s
  | .vload vd x => Sys2Proof.Machine.execVload vd x s
  | .vstore vs1 x => Sys2Proof.Machine.execVstore vs1 x s
  | .vadd vd vs1 vs2 => Sys2Proof.Machine.execVadd vd vs1 vs2 s
  | .vmul vd vs1 vs2 => Sys2Proof.Machine.execVmul vd vs1 vs2 s
  | .vacc vd vs1 => Sys2Proof.Machine.execVacc vd vs1 s
  | .hsum sd vs1 => Sys2Proof.Machine.execHsum sd vs1 s
  | .smulm sd x y => Sys2Proof.Machine.execSmulm sd x y s
  | .sadd sd ss1 ss2 => Sys2Proof.Machine.execSadd sd ss1 ss2 s
  | .sget ss1 => Sys2Proof.Machine.execSget ss1 s
  | .cvths x => Sys2Proof.Machine.execCvths x s
  | .cvtsh x => Sys2Proof.Machine.execCvtsh x s
  | .caps => Sys2Proof.Machine.execCaps s

end Sys2Proof.Machine
end

