-- ==== Sys2Proof/Machine/Step.lean ====
section
/-! DEFINITION. One step: the LVU takes the action at the head of the port's queue (30_encoding.md R60,
20_memory.md R50). A legal word is executed, an illegal one is answered `resp(1, 0)` (60_exceptions.md
R195). -/

namespace Sys2Proof.Machine

/-- The step function. -/
def step (s : State) : Host.Outcome State Fault Refusal :=
  match s.port with
  | [] => idle s
  | .reset :: rest => takeReset (s.accept rest)
  | .command c :: rest =>
      match decode s.etype c with
      | .ok i => exec i (s.accept rest)
      | .error _ => illegalCommand (s.accept rest)

/-- The state in which the host presents the transaction with these bits next (log 8, log 14): the very
next step decodes and runs it. -/
def State.withFetchWord (s : State) (nbits w : Nat) : State := s.present (Command.ofBits nbits w)

end Sys2Proof.Machine
end

