-- ==== Sys2Proof/Machine/Sequences.lean ====
section
/-! DEFINITION. The normative command sequences the host sequencer issues (48_dot_product_sequence.md):
the Generic Dot Product (R150 to R162), the scalar reference (R166), the bulk conversions (R167) and the
capability query (R168), each as the list of commands in issue order. The sequencer is host software
(10_state.md R26): its cursor and count are natural numbers that never wrap (R160). -/

namespace Sys2Proof.Machine

/-- The value on an operand bus for an address that the host computes exactly (R160); none for an
address that does not exist (20_memory.md R46), which no bus value stands for. -/
def busAddr (a : Nat) : Option Addr :=
  if a < Config.addrLimit then some (BitVec.ofNat Config.xlen a) else none

/-- A command as a sequence names it: its addresses are exact integers (R160). -/
inductive HostCommand where
  /-- A command without an address. -/
  | command (i : Instr)
  /-- `VLOAD vd, (x)`. -/
  | vload (vd : VReg) (x : Nat)
  /-- `SMULM sd, (x), (y)`. -/
  | smulm (sd : SReg) (x y : Nat)
deriving DecidableEq, Repr

/-- The command the host puts on the port; none where an address does not exist. -/
def HostCommand.toInstr : HostCommand → Option Instr
  | .command i => some i
  | .vload vd x => do
      return .vload vd (← busAddr x)
  | .smulm sd x y => do
      return .smulm sd (← busAddr x) (← busAddr y)

/-- `W2 = 2 * W` (48_dot_product_sequence.md R154). -/
def doubleWidth (v : Variant) : Nat := 2 * v.size

/-- `K`, how often the unrolled loop runs for `n` elements (R154, R161). -/
def loopCount (v : Variant) (n : Nat) : Nat := n / doubleWidth v

/-- `S`, whether the single-wide step runs (R156, R161). -/
def singleStep (v : Variant) (n : Nat) : Bool := decide (v.size ≤ n - doubleWidth v * loopCount v n)

/-- `T`, the number of tail elements (R158, R161). -/
def tailCount (v : Variant) (n : Nat) : Nat := n % v.size

/-- The index of the first tail element, `c = W2*K + W*S` (R162). -/
def tailStart (v : Variant) (n : Nat) : Nat :=
  doubleWidth v * loopCount v n + if singleStep v n then v.size else 0

/-- The four commands that multiply one window of `a` by one window of `b` into accumulator A
(R154, R156). -/
def chainA (v : Variant) (a b i : Nat) : List HostCommand :=
  [.vload 2 (elemAddr v a i), .vload 3 (elemAddr v b i), .command (.vmul 2 2 3),
    .command (.vacc 0 2)]

/-- The four commands of accumulator B's chain (R154). -/
def chainB (v : Variant) (a b i : Nat) : List HostCommand :=
  [.vload 4 (elemAddr v a i), .vload 5 (elemAddr v b i), .command (.vmul 4 4 5),
    .command (.vacc 1 4)]

/-- Step 1: the double-wide unrolled loop, `k` iterations from cursor `i` on (R154). -/
def unrolledLoop (v : Variant) (a b : Nat) : Nat → Nat → List HostCommand
  | 0, _ => []
  | k + 1, i =>
      chainA v a b i ++ chainB v a b (i + v.size) ++ unrolledLoop v a b k (i + doubleWidth v)

/-- Step 5: the scalar tail, `t` elements from cursor `i` on (R158). -/
def scalarTail (v : Variant) (a b : Nat) : Nat → Nat → List HostCommand
  | 0, _ => []
  | t + 1, i =>
      [.smulm 1 (elemAddr v a i) (elemAddr v b i), .command (.sadd 0 0 1)] ++
        scalarTail v a b t (i + 1)

/-- The Generic Dot Product of the `n` elements at `a` and at `b` (R152 to R159). -/
def dotProduct (v : Variant) (a b n : Nat) : List HostCommand :=
  [.command (.vzero 0), .command (.vzero 1)] ++ unrolledLoop v a b (loopCount v n) 0 ++
    [.command (.vadd 0 0 1)] ++
    (if singleStep v n then chainA v a b (doubleWidth v * loopCount v n) else []) ++
    [.command (.hsum 0 0)] ++ scalarTail v a b (tailCount v n) (tailStart v n) ++
    [.command (.sget 0)]

/-- `dotProduct_w4` (R164). -/
def dotProductW4 (a b n : Nat) : List HostCommand := dotProduct .w4 a b n

/-- `dotProduct_w8` (R164). -/
def dotProductW8 (a b n : Nat) : List HostCommand := dotProduct .w8 a b n

/-- `dotProduct_half_w8` (R164). -/
def dotProductHalfW8 (a b n : Nat) : List HostCommand := dotProduct .h8 a b n

/-- `dotProduct_naive`, the scalar reference, for an instance with ETYPE = F32 (R166). -/
def dotProductNaive (v : Variant) (a b n : Nat) : List HostCommand :=
  [.command (.vzero 0), .command (.hsum 0 0)] ++ scalarTail v a b n 0 ++ [.command (.sget 0)]

/-- The commands of the conversion of a sequence of binary16 patterns, in issue order (R167). -/
def convertToFloat32 (hs : List Half) : List HostCommand := hs.map fun h => .command (.cvths h)

/-- The commands of the conversion of a sequence of binary32 patterns, in issue order (R167). -/
def convertToCompact16 (fs : List Word) : List HostCommand := fs.map fun f => .command (.cvtsh f)

/-- The capability query of one instance (R168). -/
def describeLaneWidths : List HostCommand := [.command .caps]

/-- The state in which the host presents these commands next, in this order; none where an address of
one of them does not exist, since the host cannot present it. -/
def State.presentAll (s : State) (cs : List HostCommand) : Option State :=
  (cs.mapM HostCommand.toInstr).map fun is =>
    { s with port := is.map (fun i => HostAction.command (encode i)) ++ s.port }

/-- The run of these commands, one after the other (20_memory.md R50). A command with an address that
does not exist is a fault, like every access past the top (20_memory.md R46,
93_implementation_defined.md U2). -/
def runCommands : List HostCommand → State → Out
  | [], s => .next s
  | c :: cs, s =>
      match c.toInstr with
      | none => .fault .outsideReadable
      | some i =>
          match exec i s with
          | .next t => runCommands cs t
          | .fault f => .fault f
          | .refused q => .refused q

/-! ## What the host takes from the responses (48_dot_product_sequence.md R159, R167) -/

/-- The responses that a run from `s` to `t` delivered, in order. -/
def newResponses (s t : State) : List Response := t.responses.drop s.responses.length

/-- The output sequence of a run from `s`: element `j` is made of the data of the `j`-th response. There
is none where the run stopped or a command was illegal. -/
def outputs {α : Type} (element : Word → α) (s : State) : Out → Option (List α)
  | .next t =>
      if (newResponses s t).all fun r => !r.err then
        some ((newResponses s t).map fun r => element r.data)
      else none
  | .fault _ => none
  | .refused _ => none

/-- The element a CVTHS response gives: all of its data. -/
def float32Output (data : Word) : Word := data

/-- The element a CVTSH response gives: `data[15:0]`. -/
def compact16Output (data : Word) : Half := data.extractLsb' 0 16

/-- `convertFloat32SeqToCompact16Seq` on an instance (R167). -/
def convertFloat32SeqToCompact16Seq (s : State) (fs : List Word) : Option (List Half) :=
  outputs compact16Output s (runCommands (convertToCompact16 fs) s)

/-- Its inverse (R167). -/
def convertCompact16SeqToFloat32Seq (s : State) (hs : List Half) : Option (List Word) :=
  outputs float32Output s (runCommands (convertToFloat32 hs) s)

/-- `float32ToCompact16(x)`: one CVTSH (R167). -/
def float32ToCompact16 (s : State) (f : Word) : Option Half :=
  (convertFloat32SeqToCompact16Seq s [f]).bind List.head?

/-- `compact16ToFloat32(x)`: one CVTHS (R167). -/
def compact16ToFloat32 (s : State) (h : Half) : Option Word :=
  (convertCompact16SeqToFloat32Seq s [h]).bind List.head?

/-- What the caller of a dot product receives from a run from `s`: the data of its last response
(R159). -/
def returned (s : State) (o : Out) : Option Word := (outputs float32Output s o).bind List.getLast?

/-! ## The result in closed form (48_dot_product_sequence.md R162) -/

/-- `p(j) = fmul32(Aj, Bj)`, the elements read from the memory of `s` (R162). -/
def product (s : State) (a b j : Nat) : Word :=
  fmul32 s.nan (s.elemAt (elemAddr s.params.variant a j)) (s.elemAt (elemAddr s.params.variant b j))

/-- Lane `l` of an accumulator after `k` iterations; `off` is 0 for A and W for B (R162). -/
def accLane (nan : Word) (p : Nat → Word) (w2 off l : Nat) : Nat → Word
  | 0 => 0
  | k + 1 => fadd32 nan (accLane nan p w2 off l k) (p (w2 * k + off + l))

/-- Lane `l` of `M'`: the merged accumulators, and the single-wide step's product where it runs
(R162). -/
def mergedLane (nan : Word) (p : Nat → Word) (v : Variant) (n l : Nat) : Word :=
  let m := fadd32 nan (accLane nan p (doubleWidth v) 0 l (loopCount v n))
    (accLane nan p (doubleWidth v) v.size l (loopCount v n))
  if singleStep v n then fadd32 nan m (p (doubleWidth v * loopCount v n + l)) else m

/-- `sum(t)` of the scalar tail, from `start` and from element `c` on (R158, R162). -/
def tailSum (nan : Word) (p : Nat → Word) (start : Word) (c : Nat) : Nat → Word
  | 0 => start
  | t + 1 => fadd32 nan (tailSum nan p start c t) (p (c + t))

/-- The result of the dot product (R162). -/
def dotResult (nan : Word) (p : Nat → Word) (v : Variant) (n : Nat) : Word :=
  tailSum nan p (hsum nan ((List.range v.size).map (mergedLane nan p v n))) (tailStart v n)
    (tailCount v n)

/-- The result of the scalar reference (R166). -/
def naiveResult (nan : Word) (p : Nat → Word) (n : Nat) : Word := tailSum nan p 0 0 n

end Sys2Proof.Machine
end

