-- ==== Sys2Proof/Safety.lean ====
section
/-! DEFINITION. What counts as a conforming use of the LVU: the three outcomes of 00_scope.md R11 and
60_exceptions.md R195, decided from the command and the state alone, the step of a conforming use, and
what it means that a list of commands has run correctly. -/

namespace Sys2Proof.Safety

open Sys2Proof.Machine

/-- Every register the command reads has been written since reset (60_exceptions.md R183). VZERO,
VLOAD, SMULM, CVTHS, CVTSH and CAPS read no register. -/
def sourcesWritten (s : State) : Instr → Bool
  | .vzero _ => true
  | .vload _ _ => true
  | .vstore vs1 _ => s.vregs[vs1].written
  | .vadd _ vs1 vs2 => s.vregs[vs1].written && s.vregs[vs2].written
  | .vmul _ vs1 vs2 => s.vregs[vs1].written && s.vregs[vs2].written
  | .vacc vd vs1 => s.vregs[vd].written && s.vregs[vs1].written
  | .hsum _ vs1 => s.vregs[vs1].written
  | .smulm _ _ _ => true
  | .sadd _ ss1 ss2 => s.sregs[ss1].written && s.sregs[ss2].written
  | .sget ss1 => s.sregs[ss1].written
  | .cvths _ => true
  | .cvtsh _ => true
  | .caps => true

/-- Every byte the command touches is in the set the caller made valid for it (20_memory.md R45, R46,
R47). Only VLOAD, VSTORE and SMULM touch memory. -/
def windowsValid (s : State) : Instr → Bool
  | .vzero _ => true
  | .vload _ x => s.readableWindow x.toNat s.vbytes
  | .vstore _ x => s.writableWindow x.toNat s.vbytes
  | .vadd _ _ _ => true
  | .vmul _ _ _ => true
  | .vacc _ _ => true
  | .hsum _ _ => true
  | .smulm _ x y => s.readableWindow x.toNat s.esz && s.readableWindow y.toNat s.esz
  | .sadd _ _ _ => true
  | .sget _ => true
  | .cvths _ => true
  | .cvtsh _ => true
  | .caps => true

/-- The command keeps the contract: it reads no unwritten register and touches no invalid byte. -/
def inContract (s : State) (i : Instr) : Bool := sourcesWritten s i && windowsValid s i

/-- The three outcomes of a command (00_scope.md R11). -/
inductive Verdict where
  | ok
  | illegal
  | fault
deriving DecidableEq, Repr

/-- The outcome 60_exceptions.md R195 gives a command in a state. Legality is decided first and from
the word alone (R185). -/
def verdict (s : State) (c : Command) : Verdict :=
  match decode s.etype c with
  | .error _ => .illegal
  | .ok i => if inContract s i then .ok else .fault

/-- The next state of a step that keeps the contract; none where R195's outcome is `fault`, which has no
successor: a register is read that nothing has written (R183), or an invalid byte is touched (R182).
On an unwritten register `step` itself goes on with the bits held, as the hardware does (log 2). -/
def contractStep (s : State) : Option State :=
  match s.port with
  | [] => nextOf (step s)
  | .reset :: _ => nextOf (step s)
  | .command c :: _ => if verdict s c = .fault then none else nextOf (step s)
where
  /-- The next state of an outcome, if it has one. -/
  nextOf : Out → Option State
    | .next t => some t
    | .fault _ => none
    | .refused _ => none

/-- Every command of the list has outcome `ok` in the state in which it is presented, from `s` on: the
condition under which 60_exceptions.md R195 says that a sequence has run correctly. Only the verdicts
are asked: a step that stops leaves no later state to ask about. A reset in the list ends the run
(70_reset_and_hazards.md R201), so it is not a correct run. -/
def ranCorrectly : List HostAction → State → Bool
  | [], _ => true
  | .reset :: _, _ => false
  | .command c :: rest, s =>
      verdict s c == .ok &&
        match step { s with port := .command c :: rest } with
        | .next s' => ranCorrectly rest s'
        | .fault _ => true
        | .refused _ => true

/-- The run of everything the host presents (70_reset_and_hazards.md R208): it ends when the last
response has been delivered. -/
def runAll (s : State) : Host.Outcome State Fault Refusal := Sys2Proof.core.run s.port.length s

/-- The same state with every register marked as written: it differs in nothing that the unit can see
(60_exceptions.md R183). -/
def allWritten (s : State) : State :=
  { s with
    vregs := s.vregs.map fun r => ⟨r.lanes, true⟩
    sregs := s.sregs.map fun r => ⟨r.bits, true⟩ }

/-! ## What a command leaves unchanged -/

/-- No command changes the instance's parameters, the launch or what the host will do next. -/
def keepsSurroundings (s t : State) : Prop :=
  t.params = s.params ∧ t.launch = s.launch ∧ t.port = s.port

/-- Every byte of memory reads as before. -/
def memorySame (s t : State) : Prop := ∀ a, t.mem.read a = s.mem.read a

/-- `t` is `s` but for vector register `vd`, and the response `resp(0, 0)` was delivered. -/
def onlyVectorChanged (vd : VReg) (s t : State) : Prop :=
  (∀ k, k ≠ vd → t.vregs[k] = s.vregs[k]) ∧ (∀ k : SReg, t.sregs[k] = s.sregs[k]) ∧
    memorySame s t ∧ keepsSurroundings s t ∧ t.responses = s.responses ++ [⟨false, 0⟩]

/-- `t` is `s` but for scalar register `sd`, and the response `resp(0, 0)` was delivered. -/
def onlyScalarChanged (sd : SReg) (s t : State) : Prop :=
  (∀ k : VReg, t.vregs[k] = s.vregs[k]) ∧ (∀ k, k ≠ sd → t.sregs[k] = s.sregs[k]) ∧
    memorySame s t ∧ keepsSurroundings s t ∧ t.responses = s.responses ++ [⟨false, 0⟩]

/-- `t` is `s` but for the bytes of the window of `n` bytes at `a`, and the response `resp(0, 0)` was
delivered. -/
def onlyWindowChanged (a n : Nat) (s t : State) : Prop :=
  (∀ k : VReg, t.vregs[k] = s.vregs[k]) ∧ (∀ k : SReg, t.sregs[k] = s.sregs[k]) ∧
    (∀ b, b < a ∨ a + n ≤ b → t.mem.read b = s.mem.read b) ∧ keepsSurroundings s t ∧
    t.responses = s.responses ++ [⟨false, 0⟩]

/-- `t` is `s` but for one more response. -/
def onlyResponded (r : Response) (s t : State) : Prop :=
  (∀ k : VReg, t.vregs[k] = s.vregs[k]) ∧ (∀ k : SReg, t.sregs[k] = s.sregs[k]) ∧
    memorySame s t ∧ keepsSurroundings s t ∧ t.responses = s.responses ++ [r]

/-! ## The commands of the lane units -/

/-- The vector register a command writes (10_state.md R20): VZERO, VLOAD, VADD, VMUL and VACC have
one. -/
def vectorDest : Instr → Option VReg
  | .vzero vd => some vd
  | .vload vd _ => some vd
  | .vstore _ _ => none
  | .vadd vd _ _ => some vd
  | .vmul vd _ _ => some vd
  | .vacc vd _ => some vd
  | .hsum _ _ => none
  | .smulm _ _ _ => none
  | .sadd _ _ _ => none
  | .sget _ => none
  | .cvths _ => none
  | .cvtsh _ => none
  | .caps => none

/-- The scalar register a command writes (10_state.md R20): HSUM, SMULM and SADD have one. -/
def scalarDest : Instr → Option SReg
  | .vzero _ => none
  | .vload _ _ => none
  | .vstore _ _ => none
  | .vadd _ _ _ => none
  | .vmul _ _ _ => none
  | .vacc _ _ => none
  | .hsum sd _ => some sd
  | .smulm sd _ _ => some sd
  | .sadd sd _ _ => some sd
  | .sget _ => none
  | .cvths _ => none
  | .cvtsh _ => none
  | .caps => none

/-- The vector registers a command reads (10_state.md R20). -/
def vectorSources : Instr → List VReg
  | .vzero _ => []
  | .vload _ _ => []
  | .vstore vs1 _ => [vs1]
  | .vadd _ vs1 vs2 => [vs1, vs2]
  | .vmul _ vs1 vs2 => [vs1, vs2]
  | .vacc vd vs1 => [vd, vs1]
  | .hsum _ vs1 => [vs1]
  | .smulm _ _ _ => []
  | .sadd _ _ _ => []
  | .sget _ => []
  | .cvths _ => []
  | .cvtsh _ => []
  | .caps => []

/-- VADD, VMUL or VACC: an element-wise lane command between registers (42_vector_arith.md). -/
def isLaneArith : Instr → Bool
  | .vzero _ => false
  | .vload _ _ => false
  | .vstore _ _ => false
  | .vadd _ _ _ => true
  | .vmul _ _ _ => true
  | .vacc _ _ => true
  | .hsum _ _ => false
  | .smulm _ _ _ => false
  | .sadd _ _ _ => false
  | .sget _ => false
  | .cvths _ => false
  | .cvtsh _ => false
  | .caps => false

end Sys2Proof.Safety
end

