-- ==== Sys2Proof/Certificates/Slice0/Obligations.lean ====
section
/-! DEFINITION. The statements for the provers, in the order of OBLIGATIONS.json. Each quantifies over
every state, so over every variant, every NAN_RESULT, every launch and every content of registers and
memory; none rests on a value that a log entry chose, except where its docstring says so. -/

open Sys2Proof Sys2Proof.Machine Sys2Proof.Safety

/-! ## Encoding (30_encoding.md) -/

/-- 30_encoding.md R72. `encode` is the formula of the rule; decoding an encoded command gives it back,
whatever the operands; and a legal word is the encoding of what it decodes to, field by field. -/
def Obligations.EncodeDecodeInverse : Prop :=
  (∀ op rd rs1 rs2 : Nat, (encodeWord op rd rs1 rs2).toNat =
    ((op <<< 24) ||| (rd <<< 20) ||| (rs1 <<< 16) ||| (rs2 <<< 12)) % 2 ^ 32) ∧
  (∀ i : Instr, (encode i).word = encodeWord i.opcode i.rd i.rs1 i.rs2) ∧
  (∀ (et : EType) (i : Instr), wellFormed et i = true → decode et (encode i) = .ok i) ∧
  (∀ (et : EType) (c : Command) (i : Instr), decode et c = .ok i →
    wellFormed et i = true ∧ (encode i).word = c.word ∧
      i.opcode = (opField c.word).toNat ∧ i.rd = (rdField c.word).toNat ∧
      i.rs1 = (rs1Field c.word).toNat ∧ i.rs2 = (rs2Field c.word).toNat)

/-- 30_encoding.md R65. A word is the command of a row exactly when it matches the row's pattern under
its mask and, for CVTHS and CVTSH, ETYPE is F16; a word matches at most one row; the other `op`
values select no command. -/
def Obligations.WordIsCommandIffMaskMatches : Prop :=
  (∀ (et : EType) (c : Command) (r : OpcodeRow), r ∈ opcodeMap →
    ((∃ i, decode et c = .ok i ∧ i.opcode = r.op ∧ i.mnemonic = r.mnemonic ∧ i.format = r.format) ↔
      c.word &&& r.mask = r.pattern ∧ r.availableOn et = true)) ∧
  (∀ (w : Word) (r q : OpcodeRow), r ∈ opcodeMap → q ∈ opcodeMap →
    w &&& r.mask = r.pattern → w &&& q.mask = q.pattern → r = q) ∧
  (∀ (et : EType) (c : Command),
    (opField c.word).toNat = 0 ∨ 0x0E ≤ (opField c.word).toNat → ∃ e, decode et c = .error e)

/-- 30_encoding.md R66. A word is illegal exactly when one of the five clauses holds; legality depends on
the word and ETYPE only; an illegal word changes nothing and is answered `resp(1, 0)`. -/
def Obligations.IllegalWordClauses : Prop :=
  (∀ (et : EType) (c : Command),
    (∃ e, decode et c = .error e) ↔
      ((opField c.word).toNat = 0 ∨ 0x0E ≤ (opField c.word).toNat) ∨
      zeroField c.word ≠ 0 ∨
      (∃ r ∈ opcodeMap, r.op = (opField c.word).toNat ∧
        (r.format.rdKind.rejects (rdField c.word) = true ∨
          r.format.rs1Kind.rejects (rs1Field c.word) = true ∨
          r.format.rs2Kind.rejects (rs2Field c.word) = true)) ∨
      (((opField c.word).toNat = 0x0B ∨ (opField c.word).toNat = 0x0C) ∧ et = .f32)) ∧
  (∀ (et : EType) (w : Word) (x y x' y' : Addr) (e : Illegal),
    decode et ⟨w, x, y⟩ = .error e → decode et ⟨w, x', y'⟩ = .error e) ∧
  (∀ (s : State) (c : Command) (rest : List HostAction) (e : Illegal),
    s.port = .command c :: rest → decode s.etype c = .error e →
      step s = .next { s with port := rest, responses := s.responses ++ [⟨true, 0⟩] })

/-- 30_encoding.md R73. The number of legal words with each `op` value on an H8 instance, and in all:
1219 on H8, 1217 on W4 and W8. -/
def Obligations.LegalWordCounts : Prop :=
  (∀ p ∈ [(0x01, 8), (0x02, 8), (0x03, 8), (0x04, 512), (0x05, 512), (0x06, 64), (0x07, 32),
      (0x08, 4), (0x09, 64), (0x0A, 4), (0x0B, 1), (0x0C, 1), (0x0D, 1)],
    ∃ l : List Word, l.Nodup ∧ l.length = p.2 ∧
      ∀ w, w ∈ l ↔ legalWord .f16 w = true ∧ (opField w).toNat = p.1) ∧
  (∃ l : List Word, l.Nodup ∧ l.length = 1219 ∧ ∀ w, w ∈ l ↔ legalWord .f16 w = true) ∧
  (∃ l : List Word, l.Nodup ∧ l.length = 1217 ∧ ∀ w, w ∈ l ↔ legalWord .f32 w = true)

/-- 30_encoding.md R67: the all-zero and the all-one word are illegal, on every instance and whatever
the buses carry. -/
def Obligations.AllZeroAndAllOneWordsIllegal : Prop :=
  ∀ (et : EType) (x y : Addr), (∃ e, decode et ⟨0x00000000, x, y⟩ = .error e) ∧
    (∃ e, decode et ⟨0xFFFFFFFF, x, y⟩ = .error e)

/-- 30_encoding.md R64, 93_implementation_defined.md U15: a command depends only on the bus bits its
format uses, and the addresses and values it takes from a bus are those bits. -/
def Obligations.UnusedBusBitsIgnored : Prop :=
  (∀ (et : EType) (w : Word) (x y x' y' : Addr) (i : Instr),
    decode et ⟨w, x, y⟩ = .ok i →
    i.format.xKind.used x = i.format.xKind.used x' →
    i.format.yKind.used y = i.format.yKind.used y' →
      decode et ⟨w, x', y'⟩ = .ok i) ∧
  (∀ (et : EType) (c : Command) (i : Instr), decode et c = .ok i →
    i.busX = i.format.xKind.used c.x ∧ i.busY = i.format.yKind.used c.y)

/-- Words written out from 30_encoding.md R65 and R70 decode to the commands they stand for, and a few
of 95_test_vectors.md's illegal words do not decode. -/
def Obligations.SampleWordsDecode : Prop :=
  decode .f32 ⟨0x02200000, 0x1000, 0⟩ = .ok (.vload 2 0x1000) ∧
  decode .f32 ⟨0x08100000, 0x1038, 0x2038⟩ = .ok (.smulm 1 0x1038 0x2038) ∧
  decode .f16 ⟨0x0B000000, 0x3C00, 0⟩ = .ok (.cvths 0x3C00) ∧
  decode .f32 ⟨0x04201000, 0, 0⟩ = .ok (.vadd 2 0 1) ∧
  decode .f32 ⟨0x07370000, 0, 0⟩ = .ok (.hsum 3 7) ∧
  decode .f32 ⟨0x04801000, 0, 0⟩ = .error .registerRange ∧
  decode .f32 ⟨0x0B000000, 0x3C00, 0⟩ = .error .noConverter

/-! ## The step (20_memory.md, 30_encoding.md, 60_exceptions.md, 70_reset_and_hazards.md) -/

/-- 60_exceptions.md R195, 30_encoding.md R60: when the transaction at the head of the port decodes to a
command, the step runs it on the state in which the port has moved to the actions after it. The
model's port is log 8; the host's `withFetchWord` presents a transaction in this place. -/
def Obligations.StepRunsDecodedCommand : Prop :=
  (∀ (s : State) (c : Command) (rest : List HostAction) (i : Instr),
    s.port = .command c :: rest → decode s.etype c = .ok i →
      step s = exec i { s with port := rest }) ∧
  (∀ (s : State) (nbits w : Nat) (i : Instr),
    decode s.etype (Command.ofBits nbits w) = .ok i → step (s.withFetchWord nbits w) = exec i s)

/-- 60_exceptions.md R194: with no command presented the unit holds all it holds. The idle step is the
model's (log 8). -/
def Obligations.IdleUnitHoldsState : Prop := ∀ s : State, s.port = [] → step s = .next s

/-- 60_exceptions.md R181, R187: an illegal command is answered `resp(1, 0)`, and the command after it
executes exactly as if the illegal one had not been sent: the same outcome, and the same state but for
the one response. -/
def Obligations.NextCommandUnaffectedByIllegal : Prop :=
  ∀ (s : State) (c d : Command) (rest : List HostAction) (e : Illegal),
    s.port = .command c :: .command d :: rest → decode s.etype c = .error e →
    ∃ t, step s = .next t ∧
      t = { s with port := .command d :: rest, responses := s.responses ++ [⟨true, 0⟩] } ∧
      (∀ u, step { s with port := .command d :: rest } = .next u →
        ∃ q, u.responses = s.responses ++ [q] ∧
          step t = .next { u with responses := s.responses ++ [⟨true, 0⟩, q] }) ∧
      (∀ f, step { s with port := .command d :: rest } = .fault f → step t = .fault f)

/-- 30_encoding.md R69. Each command that is answered delivers exactly one response; its `err` says
whether the word was illegal, and its `data` is the scalar register read, the conversion, the CAPS
word, or zero. -/
def Obligations.ResponseOfEveryCommand : Prop :=
  ∀ (s t : State) (c : Command) (rest : List HostAction),
    s.port = .command c :: rest → step s = .next t →
      t.port = rest ∧ ∃ q : Response, t.responses = s.responses ++ [q] ∧
        (∀ e, decode s.etype c = .error e → q = ⟨true, 0⟩) ∧
        (∀ i, decode s.etype c = .ok i → q.err = false ∧
          q.data = match i with
            | .sget k => s.sregs[k].bits
            | .cvths h => h2f h
            | .cvtsh f => (0 : BitVec 16) ++ f2h f
            | .caps => capsWord s.params.variant
            | _ => 0)

/-- 60_exceptions.md R195, R185. Exactly one of the three outcomes holds for every command, the one
`verdict` gives: `ok` is a next state and `err = 0`, `illegal` is the same state and `resp(1, 0)`, and
`fault` is no successor of a conforming use (`contractStep`). Where a touched byte is invalid `step`
itself stops; where only a source is unwritten it goes on as the hardware does (log 2,
`Obligations.UnwrittenSourceRead`). -/
def Obligations.OutcomeTable : Prop :=
  ∀ (s : State) (c : Command) (rest : List HostAction), s.port = .command c :: rest →
    (verdict s c = .ok → ∃ t d, step s = .next t ∧ contractStep s = some t ∧
      t.responses = s.responses ++ [⟨false, d⟩]) ∧
    (verdict s c = .illegal →
      step s = .next { s with port := rest, responses := s.responses ++ [⟨true, 0⟩] } ∧
      contractStep s = some { s with port := rest, responses := s.responses ++ [⟨true, 0⟩] }) ∧
    (verdict s c = .fault → contractStep s = none ∧
      ∀ i, decode s.etype c = .ok i → windowsValid s i = false → ∃ f, step s = .fault f)

/-- 60_exceptions.md R183, 93_implementation_defined.md U3. A command that reads a register nothing has
written since reset breaks the contract: its verdict is `fault`, and a conforming use has no
successor. The unit itself does not notice: what a command does depends on the bits the registers hold
and not on the marks, and every command whose windows are valid completes (log 2). -/
def Obligations.UnwrittenSourceRead : Prop :=
  (∀ (s : State) (c : Command) (rest : List HostAction) (i : Instr),
    s.port = .command c :: rest → decode s.etype c = .ok i → sourcesWritten s i = false →
      verdict s c = .fault ∧ contractStep s = none) ∧
  (∀ (s t : State) (i : Instr), exec i s = .next t → exec i (allWritten s) = .next (allWritten t)) ∧
  (∀ (s : State) (i : Instr) (f : Fault), exec i s = .fault f → exec i (allWritten s) = .fault f) ∧
  (∀ (s : State) (i : Instr), windowsValid s i = true → ∃ t, exec i s = .next t)

/-- 60_exceptions.md R195, 70_reset_and_hazards.md R208: a list of commands whose every outcome is `ok`,
by the verdict alone in each state the run reaches, runs to its end without a fault or a refusal, and
delivers one response with `err = 0` for each command. -/
def Obligations.CorrectRunCompletes : Prop :=
  ∀ s : State, ranCorrectly s.port s = true →
    ∃ u, runAll s = .next u ∧ u.port = [] ∧
      ∃ rs : List Response, u.responses = s.responses ++ rs ∧ rs.length = s.port.length ∧
        ∀ r ∈ rs, r.err = false

/-- 70_reset_and_hazards.md R200, R201, 10_state.md R32: a reset between two commands makes every
register unwritten and changes no byte of memory, no parameter and nothing of the launch; the new run
has no response yet (log 10). The bits a register then holds are not stated. -/
def Obligations.ResetBetweenCommands : Prop :=
  ∀ (s : State) (rest : List HostAction), s.port = .reset :: rest →
    ∃ t, step s = .next t ∧ (∀ k : VReg, t.vregs[k].written = false) ∧
      (∀ k : SReg, t.sregs[k].written = false) ∧ memorySame s t ∧
      t.params = s.params ∧ t.launch = s.launch ∧ t.port = rest ∧ t.responses = []

/-- 10_state.md R32, 70_reset_and_hazards.md R200: right after reset no register has been written, no
response is pending and the unit is idle, and CAPS has its constant value. That memory lists nothing
and which instance it is are the model's choices (log 3, log 7). -/
def Obligations.ResetState : Prop :=
  (∀ k : VReg, State.reset.vregs[k].written = false) ∧
  (∀ k : SReg, State.reset.sregs[k].written = false) ∧
  State.reset.port = [] ∧ State.reset.responses = [] ∧ State.reset.mem = [] ∧
  exec .caps State.reset = .next { State.reset with responses := [⟨false, 0x01000108⟩] }

/-! ## Invariants -/

/-- The invariant `State.wf` holds at reset: NAN_RESULT is a quiet NaN (40_fp_numerics.md R88,
92_eei_decisions.md D19), every vector register has SIZE lanes (10_state.md R21), and the memory is in
canonical form. -/
def Obligations.ResetMeetsWellFormedness : Prop := State.reset.wf = true

/-- Every step from every state that meets `State.wf` keeps it. -/
def Obligations.StepKeepsWellFormedness : Prop :=
  ∀ s t : State, s.wf = true → step s = .next t → t.wf = true

/-- 00_scope.md R7: the parameters are constants of an instance, and a launch's windows are its
caller's: no command and no reset changes either. -/
def Obligations.StepKeepsParameters : Prop :=
  ∀ s t : State, step s = .next t → t.params = s.params ∧ t.launch = s.launch

/-- 10_state.md R25: no command other than the five writers changes a vector register, and each of them
replaces all lanes of its destination and changes no other. -/
def Obligations.VectorRegisterWriters : Prop :=
  ∀ (s t : State) (i : Instr) (k : VReg), s.wf = true → exec i s = .next t →
    (vectorDest i ≠ some k → t.vregs[k] = s.vregs[k]) ∧
    (vectorDest i = some k → t.vregs[k].written = true ∧ t.vregs[k].lanes.length = s.size)

/-- 43_reduce_scalar.md R134: the scalar registers can be written only by HSUM, SMULM and SADD, each its
destination alone; a scalar `+0` is obtained by VZERO and then HSUM. -/
def Obligations.ScalarRegisterWriters : Prop :=
  (∀ (s t : State) (i : Instr) (k : SReg), exec i s = .next t → t.sregs[k] ≠ s.sregs[k] →
    (∃ vs1, i = .hsum k vs1) ∨ (∃ x y, i = .smulm k x y) ∨ (∃ a b, i = .sadd k a b)) ∧
  (∀ (s : State) (sd : SReg) (vk : VReg),
    ∃ t u, exec (.vzero vk) s = .next t ∧ exec (.hsum sd vk) t = .next u ∧
      u.sregs[sd] = ⟨0x00000000, true⟩)

/-- 20_memory.md R47: no command but VSTORE changes a byte of memory, and VSTORE changes only the VBYTES
bytes of its window. -/
def Obligations.OnlyVstoreWritesMemory : Prop :=
  ∀ (s t : State) (i : Instr) (b : Nat), s.wf = true → exec i s = .next t →
    t.mem.read b ≠ s.mem.read b →
      ∃ vs1 x, i = .vstore vs1 x ∧ x.toNat ≤ b ∧ b < x.toNat + s.vbytes

/-! ## Vector initialisation, load and store (41_vector_memory.md) -/

/-- 41_vector_memory.md R110. -/
def Obligations.VzeroClearsEveryLane : Prop :=
  ∀ vd : VReg,
    (∀ et x y, decode et ⟨encodeWord 0x01 vd 0 0, x, y⟩ = .ok (.vzero vd)) ∧
    (∀ s : State, ∃ t, exec (.vzero vd) s = .next t ∧
      t.vregs[vd] = ⟨List.replicate s.size 0x00000000, true⟩ ∧ onlyVectorChanged vd s t)

/-- 41_vector_memory.md R111. With every byte of the window in READABLE, lane `i` becomes the element at
`x + i * ESZ`, little-endian: the four bytes themselves when ETYPE is F32, `h2f` of the two bytes when
it is F16. With any byte of the window not in READABLE the command is a fault. -/
def Obligations.VloadReadsWindow : Prop :=
  ∀ (vd : VReg) (x : Addr),
    (∀ et y, decode et ⟨encodeWord 0x02 vd 0 0, x, y⟩ = .ok (.vload vd x)) ∧
    (∀ s : State, (∀ k, k < s.vbytes → s.launch.readable (x.toNat + k) = true) →
      ∃ t, exec (.vload vd x) s = .next t ∧
        t.vregs[vd].written = true ∧ t.vregs[vd].lanes.length = s.size ∧
        (∀ i, i < s.size → s.etype = .f32 →
          t.lane vd i = s.mem.read (x.toNat + i * 4 + 3) ++ s.mem.read (x.toNat + i * 4 + 2) ++
            s.mem.read (x.toNat + i * 4 + 1) ++ s.mem.read (x.toNat + i * 4)) ∧
        (∀ i, i < s.size → s.etype = .f16 →
          t.lane vd i = h2f (s.mem.read (x.toNat + i * 2 + 1) ++ s.mem.read (x.toNat + i * 2))) ∧
        onlyVectorChanged vd s t) ∧
    (∀ (s : State) (k : Nat), k < s.vbytes → s.launch.readable (x.toNat + k) = false →
      exec (.vload vd x) s = .fault .outsideReadable)

/-- 41_vector_memory.md R112. From a well-formed state with every byte of the window in WRITABLE, byte
`k` of element `i` becomes byte `k` of lane `i`, or of `f2h` of lane `i` when ETYPE is F16; no byte
outside the window and no register changes. With any byte of the window not in WRITABLE the command is
a fault. R112 and 60_exceptions.md R183 call a read of an unwritten `vs1` a fault; that the step goes
on there with the bits held is the model's choice (log 2, DESIGN CHOICE; 93_implementation_defined.md
U3), and the contract's fault is in `Obligations.UnwrittenSourceRead`. -/
def Obligations.VstoreWritesWindow : Prop :=
  ∀ (vs1 : VReg) (x : Addr),
    (∀ et y, decode et ⟨encodeWord 0x03 0 vs1 0, x, y⟩ = .ok (.vstore vs1 x)) ∧
    (∀ s : State, s.wf = true →
      (∀ k, k < s.vbytes → s.launch.writable (x.toNat + k) = true) →
      ∃ t, exec (.vstore vs1 x) s = .next t ∧
        (∀ i k, i < s.size → k < 4 → s.etype = .f32 →
          t.mem.read (x.toNat + i * 4 + k) = (s.lane vs1 i).extractLsb' (8 * k) 8) ∧
        (∀ i k, i < s.size → k < 2 → s.etype = .f16 →
          t.mem.read (x.toNat + i * 2 + k) = (f2h (s.lane vs1 i)).extractLsb' (8 * k) 8) ∧
        onlyWindowChanged x.toNat s.vbytes s t) ∧
    (∀ (s : State) (k : Nat), k < s.vbytes → s.launch.writable (x.toNat + k) = false →
      exec (.vstore vs1 x) s = .fault .outsideWritable)

/-- 20_memory.md R50, R57 and 41_vector_memory.md R112: a VLOAD of the window a VSTORE wrote sees what
it stored: the same lanes when ETYPE is F32, `h2f(f2h(lane))` when it is F16. -/
def Obligations.LoadSeesStoredWindow : Prop :=
  ∀ (s t u : State) (vs1 vd : VReg) (x : Addr), s.wf = true →
    exec (.vstore vs1 x) s = .next t → exec (.vload vd x) t = .next u →
    ∀ i, i < s.size →
      (s.etype = .f32 → u.lane vd i = s.lane vs1 i) ∧
      (s.etype = .f16 → u.lane vd i = h2f (f2h (s.lane vs1 i)))

/-- 20_memory.md R46: addresses do not wrap. A window or an element that would pass `2^XLEN` is a
fault, whatever the launch. XLEN is 64 (log 5). -/
def Obligations.AddressesDoNotWrap : Prop :=
  ∀ (s : State) (x y : Addr),
    (∀ vd, 2 ^ 64 < x.toNat + s.vbytes → exec (.vload vd x) s = .fault .outsideReadable) ∧
    (∀ vs1, 2 ^ 64 < x.toNat + s.vbytes → exec (.vstore vs1 x) s = .fault .outsideWritable) ∧
    (∀ sd, 2 ^ 64 < x.toNat + s.esz ∨ 2 ^ 64 < y.toNat + s.esz →
      exec (.smulm sd x y) s = .fault .outsideReadable)

/-- 00_scope.md R14. `MemRead` assembles the bytes little-endian and `MemWrite` writes them so, to those
addresses alone; both are a fault when any of the addresses is not valid for that access. -/
def Obligations.MemoryPrimitivesLittleEndian : Prop :=
  ∀ (s : State) (a n w : Nat), s.wf = true → 0 < n →
    ((∀ k, k < n → s.launch.readable (a + k) = true) →
      ∃ r, s.memRead a n = .ok r ∧ r < 2 ^ (8 * n) ∧
        ∀ k, k < n → r / 2 ^ (8 * k) % 2 ^ 8 = (s.mem.read (a + k)).toNat) ∧
    ((∃ k, k < n ∧ s.launch.readable (a + k) = false) → s.memRead a n = .error .outsideReadable) ∧
    ((∀ k, k < n → s.launch.writable (a + k) = true) →
      ∃ t, s.memWrite a n w = .ok t ∧
        (∀ k, k < n → (t.mem.read (a + k)).toNat = w / 2 ^ (8 * k) % 2 ^ 8) ∧
        (∀ b, b < a ∨ a + n ≤ b → t.mem.read b = s.mem.read b)) ∧
    ((∃ k, k < n ∧ s.launch.writable (a + k) = false) →
      s.memWrite a n w = .error .outsideWritable)

/-! ## Element-wise lane arithmetic (42_vector_arith.md) -/

/-- 42_vector_arith.md R120, for all three registers, equal or not. R120 and 60_exceptions.md R183 call a
read of an unwritten `vs1` or `vs2` a fault; that the step goes on there with the bits held is the
model's choice (log 2, DESIGN CHOICE; 93_implementation_defined.md U3), and the contract's fault is in
`Obligations.UnwrittenSourceRead`. -/
def Obligations.VaddAddsLanes : Prop :=
  ∀ vd vs1 vs2 : VReg,
    (∀ et x y, decode et ⟨encodeWord 0x04 vd vs1 vs2, x, y⟩ = .ok (.vadd vd vs1 vs2)) ∧
    (∀ s : State, s.wf = true →
      ∃ t, exec (.vadd vd vs1 vs2) s = .next t ∧
        t.vregs[vd].written = true ∧ t.vregs[vd].lanes.length = s.size ∧
        (∀ i, i < s.size → t.lane vd i = fadd32 s.nan (s.lane vs1 i) (s.lane vs2 i)) ∧
        onlyVectorChanged vd s t)

/-- 42_vector_arith.md R121, for all three registers, equal or not. R121 and 60_exceptions.md R183 call a
read of an unwritten `vs1` or `vs2` a fault; that the step goes on there with the bits held is the
model's choice (log 2, DESIGN CHOICE; 93_implementation_defined.md U3), and the contract's fault is in
`Obligations.UnwrittenSourceRead`. -/
def Obligations.VmulMultipliesLanes : Prop :=
  ∀ vd vs1 vs2 : VReg,
    (∀ et x y, decode et ⟨encodeWord 0x05 vd vs1 vs2, x, y⟩ = .ok (.vmul vd vs1 vs2)) ∧
    (∀ s : State, s.wf = true →
      ∃ t, exec (.vmul vd vs1 vs2) s = .next t ∧
        t.vregs[vd].written = true ∧ t.vregs[vd].lanes.length = s.size ∧
        (∀ i, i < s.size → t.lane vd i = fmul32 s.nan (s.lane vs1 i) (s.lane vs2 i)) ∧
        onlyVectorChanged vd s t)

/-- 42_vector_arith.md R122: the accumulator is the first operand, and the command has exactly the
effect of `VADD vd, vd, vs1`. R122 asks that the accumulator be initialised first, and with
60_exceptions.md R183 calls a read of an unwritten `vd` or `vs1` a fault; that the step goes on there
with the bits held is the model's choice (log 2, DESIGN CHOICE; 93_implementation_defined.md U3), and
the contract's fault is in `Obligations.UnwrittenSourceRead`. -/
def Obligations.VaccAccumulatesLanes : Prop :=
  ∀ vd vs1 : VReg,
    (∀ et x y, decode et ⟨encodeWord 0x06 vd vs1 0, x, y⟩ = .ok (.vacc vd vs1)) ∧
    (∀ s : State, s.wf = true →
      ∃ t, exec (.vacc vd vs1) s = .next t ∧
        t.vregs[vd].written = true ∧ t.vregs[vd].lanes.length = s.size ∧
        (∀ i, i < s.size → t.lane vd i = fadd32 s.nan (s.lane vd i) (s.lane vs1 i)) ∧
        onlyVectorChanged vd s t) ∧
    (∀ s : State, exec (.vacc vd vs1) s = exec (.vadd vd vd vs1) s)

/-- 42_vector_arith.md R125: two lane commands that share no register give the same state in either
order. Unwritten sources are among the states, where the step goes on by the model's choice (log 2). -/
def Obligations.IndependentLaneCommandsCommute : Prop :=
  ∀ (s t u : State) (i j : Instr) (di dj : VReg),
    isLaneArith i = true → isLaneArith j = true →
    vectorDest i = some di → vectorDest j = some dj → di ≠ dj →
    di ∉ vectorSources j → dj ∉ vectorSources i →
    exec i s = .next t → exec j t = .next u →
      ∃ t', exec j s = .next t' ∧ exec i t' = .next u

/-- 42_vector_arith.md R124: `VZERO vd` then `VACC vd, va` copies every lane bit for bit, except that
`-0` becomes `+0` and a NaN becomes NAN_RESULT. `vd` is another register than `va`: with `vd = va` the
VZERO clears the source, which is no copy. R122 and 60_exceptions.md R183 call a read of an unwritten
`va` a fault; that VACC goes on there with the bits held is the model's choice (log 2, DESIGN CHOICE;
93_implementation_defined.md U3). -/
def Obligations.CopyThroughZeroedRegister : Prop :=
  ∀ (s : State) (vd va : VReg), vd ≠ va → s.wf = true →
    ∃ t u, exec (.vzero vd) s = .next t ∧ exec (.vacc vd va) t = .next u ∧
      ∀ i, i < s.size → u.lane vd i =
        if isNaN32 (s.lane va i) = true then s.nan
        else if s.lane va i = 0x80000000 then 0x00000000 else s.lane va i

/-- 40_fp_numerics.md R100: lane `i` of the result of VADD, VMUL and VACC, and lane `i` of a VLOAD, is
a function of lane `i` of the operands (or element `i` of memory) alone; element `i` that a VSTORE
writes is a function of lane `i` of its source. Two states of one instance that agree there agree in
the result. -/
def Obligations.LanesAreIndependent : Prop :=
  ∀ (s s' t t' : State) (n : Instr) (i : Nat), s.wf = true → s'.wf = true →
    s.params = s'.params → i < s.size →
    exec n s = .next t → exec n s' = .next t' →
      (∀ vd, isLaneArith n = true → vectorDest n = some vd →
        (∀ k ∈ vectorSources n, s.lane k i = s'.lane k i) → t.lane vd i = t'.lane vd i) ∧
      (∀ vd x, n = .vload vd x →
        (∀ k, k < s.esz → s.mem.read (x.toNat + i * s.esz + k) =
          s'.mem.read (x.toNat + i * s.esz + k)) → t.lane vd i = t'.lane vd i) ∧
      (∀ vs1 x, n = .vstore vs1 x → s.lane vs1 i = s'.lane vs1 i →
        ∀ k, k < s.esz → t.mem.read (x.toNat + i * s.esz + k) =
          t'.mem.read (x.toNat + i * s.esz + k))

/-! ## Horizontal sum and scalar commands (43_reduce_scalar.md) -/

/-- 43_reduce_scalar.md R130: the lanes added in increasing lane order, starting from lane 0. R130 and
60_exceptions.md R183 call a read of an unwritten `vs1` a fault; that the step goes on there with the
bits held is the model's choice (log 2, DESIGN CHOICE; 93_implementation_defined.md U3), and the
contract's fault is in `Obligations.UnwrittenSourceRead`. -/
def Obligations.HsumAddsLanesInOrder : Prop :=
  ∀ (sd : SReg) (vs1 : VReg),
    (∀ et x y, decode et ⟨encodeWord 0x07 sd vs1 0, x, y⟩ = .ok (.hsum sd vs1)) ∧
    (∀ s : State, s.wf = true →
      ∃ t, exec (.hsum sd vs1) s = .next t ∧
        t.sregs[sd] = ⟨(List.range (s.size - 1)).foldl
          (fun acc i => fadd32 s.nan acc (s.lane vs1 (i + 1))) (s.lane vs1 0), true⟩ ∧
        onlyScalarChanged sd s t)

/-- 43_reduce_scalar.md R131: the product of the elements at `x` and `y`, each widened to 32 bits first,
rounded once. A fault when any byte of either element is not in READABLE. -/
def Obligations.SmulmMultipliesElements : Prop :=
  ∀ (sd : SReg) (x y : Addr),
    (∀ et, decode et ⟨encodeWord 0x08 sd 0 0, x, y⟩ = .ok (.smulm sd x y)) ∧
    (∀ s : State, (∀ k, k < s.esz → s.launch.readable (x.toNat + k) = true) →
      (∀ k, k < s.esz → s.launch.readable (y.toNat + k) = true) →
      ∃ t, exec (.smulm sd x y) s = .next t ∧ t.sregs[sd].written = true ∧
        (s.etype = .f32 → t.sregs[sd].bits = fmul32 s.nan
          (s.mem.read (x.toNat + 3) ++ s.mem.read (x.toNat + 2) ++ s.mem.read (x.toNat + 1) ++
            s.mem.read x.toNat)
          (s.mem.read (y.toNat + 3) ++ s.mem.read (y.toNat + 2) ++ s.mem.read (y.toNat + 1) ++
            s.mem.read y.toNat)) ∧
        (s.etype = .f16 → t.sregs[sd].bits = fmul32 s.nan
          (h2f (s.mem.read (x.toNat + 1) ++ s.mem.read x.toNat))
          (h2f (s.mem.read (y.toNat + 1) ++ s.mem.read y.toNat))) ∧
        onlyScalarChanged sd s t) ∧
    (∀ (s : State) (k : Nat), k < s.esz →
      s.launch.readable (x.toNat + k) = false ∨ s.launch.readable (y.toNat + k) = false →
      exec (.smulm sd x y) s = .fault .outsideReadable)

/-- 43_reduce_scalar.md R132, for all three registers, equal or not. R132 and 60_exceptions.md R183 call
a read of an unwritten `ss1` or `ss2` a fault; that the step goes on there with the bits held is the
model's choice (log 2, DESIGN CHOICE; 93_implementation_defined.md U3), and the contract's fault is in
`Obligations.UnwrittenSourceRead`. -/
def Obligations.SaddAddsScalars : Prop :=
  ∀ sd ss1 ss2 : SReg,
    (∀ et x y, decode et ⟨encodeWord 0x09 sd ss1 ss2, x, y⟩ = .ok (.sadd sd ss1 ss2)) ∧
    (∀ s : State, ∃ t, exec (.sadd sd ss1 ss2) s = .next t ∧
        t.sregs[sd] = ⟨fadd32 s.nan s.sregs[ss1].bits s.sregs[ss2].bits, true⟩ ∧
        onlyScalarChanged sd s t)

/-- 43_reduce_scalar.md R133: the register's 32 bits as they are; no state changes. R133 and
60_exceptions.md R183 call a read of an unwritten `ss1` a fault; that the step goes on there with the
bits held is the model's choice (log 2, DESIGN CHOICE; 93_implementation_defined.md U3), and the
contract's fault is in `Obligations.UnwrittenSourceRead`. -/
def Obligations.SgetReturnsScalar : Prop :=
  ∀ ss1 : SReg,
    (∀ et x y, decode et ⟨encodeWord 0x0A 0 ss1 0, x, y⟩ = .ok (.sget ss1)) ∧
    (∀ s : State, ∃ t, exec (.sget ss1) s = .next t ∧
      onlyResponded ⟨false, s.sregs[ss1].bits⟩ s t)

/-! ## Conversion and capability commands (44_convert_caps.md) -/

/-- 44_convert_caps.md R140: the response is `h2f(x[15:0])` on H8; on an instance without a converter
the word is illegal. -/
def Obligations.CvthsConverts : Prop :=
  (∀ x y, decode .f16 ⟨0x0B000000, x, y⟩ = .ok (.cvths (x.extractLsb' 0 16))) ∧
  (∀ x y, decode .f32 ⟨0x0B000000, x, y⟩ = .error .noConverter) ∧
  (∀ (s : State) (h : Half), s.params.variant = .h8 →
    ∃ t, exec (.cvths h) s = .next t ∧ onlyResponded ⟨false, h2f h⟩ s t)

/-- 44_convert_caps.md R141: the response is `f2h(x[31:0])` with bits 31:16 zero on H8; on an instance
without a converter the word is illegal. -/
def Obligations.CvtshConverts : Prop :=
  (∀ x y, decode .f16 ⟨0x0C000000, x, y⟩ = .ok (.cvtsh (x.extractLsb' 0 32))) ∧
  (∀ x y, decode .f32 ⟨0x0C000000, x, y⟩ = .error .noConverter) ∧
  (∀ (s : State) (f : Word), s.params.variant = .h8 →
    ∃ t, exec (.cvtsh f) s = .next t ∧ onlyResponded ⟨false, (0 : BitVec 16) ++ f2h f⟩ s t)

/-- 44_convert_caps.md R142, 10_state.md R28: the CAPS word of each variant, field by field and as the
constants of the rule, returned in any state. -/
def Obligations.CapsReturnsIdentity : Prop :=
  (∀ et x y, decode et ⟨0x0D000000, x, y⟩ = .ok .caps) ∧
  (∀ s : State, ∃ t, exec .caps s = .next t ∧
    onlyResponded ⟨false, capsWord s.params.variant⟩ s t) ∧
  (∀ v : Variant, ((capsWord v).extractLsb' 0 8).toNat = v.size ∧
    (capsWord v).getLsbD 8 = (v.etype == .f16) ∧ (capsWord v).extractLsb' 9 7 = 0 ∧
    (capsWord v).extractLsb' 16 8 = 0 ∧ (capsWord v).extractLsb' 24 8 = 1) ∧
  capsWord .w4 = 0x01000004 ∧ capsWord .w8 = 0x01000008 ∧ capsWord .h8 = 0x01000108

/-! ## Numbers (40_fp_numerics.md). Values are in units of `2^-149` (`value32`) and `2^-24`
(`value16`), in which every finite pattern is an integer. -/

/-- 40_fp_numerics.md R84, R85: `round_pack32` rounds to nearest, ties to even. With `k` so large that
`N * 2^E` is a whole number of units of `2^(-149-k)`: where the result is finite, no finite pattern is
nearer, and a pattern equally near that has another value means that the result's last fraction bit is
zero. -/
def Obligations.RoundPackIsNearestEven : Prop :=
  ∀ (sg : Bool) (N : Nat) (E : Int) (k : Nat) (f : Word), 0 < N → 0 ≤ E + 149 + k →
    isFinite32 (roundPack32 sg N E) = true → isFinite32 f = true →
    let exact := signed sg (N * 2 ^ (E + 149 + k).toNat)
    let r := value32 (roundPack32 sg N E) * 2 ^ k
    |exact - r| ≤ |exact - value32 f * 2 ^ k| ∧
      (|exact - r| = |exact - value32 f * 2 ^ k| → value32 f * 2 ^ k ≠ r →
        (roundPack32 sg N E).getLsbD 0 = false)

/-- 40_fp_numerics.md R84: the result of `round_pack32` has the sign given; it is zero exactly when the
magnitude is at most `2^-150`, infinite exactly when it is at least `2^128 - 2^103`, and never a NaN. -/
def Obligations.RoundPackThresholds : Prop :=
  ∀ (sg : Bool) (N : Nat) (E : Int) (k : Nat), 0 < N → 0 ≤ E + 150 + k →
    sign32 (roundPack32 sg N E) = sg ∧
    (isZero32 (roundPack32 sg N E) = true ↔ N * 2 ^ (E + 150 + k).toNat ≤ 2 ^ k) ∧
    (isInf32 (roundPack32 sg N E) = true ↔
      (2 ^ 128 - 2 ^ 103) * 2 ^ (150 + k) ≤ N * 2 ^ (E + 150 + k).toNat) ∧
    isNaN32 (roundPack32 sg N E) = false

/-- 40_fp_numerics.md R89, R85: for finite operands `fadd32` is the exact sum rounded once, to nearest
with ties to even. It is never a NaN; it overflows to infinity exactly when the magnitude of the exact
sum is at least `2^128 - 2^103`; and it has the sign of an exact sum that is not zero, infinite or
not. -/
def Obligations.AdderRoundsExactSum : Prop :=
  ∀ nan a b : Word, isFinite32 a = true → isFinite32 b = true →
    isNaN32 (fadd32 nan a b) = false ∧
    (isInf32 (fadd32 nan a b) = true ↔
      (2 ^ 128 - 2 ^ 103) * 2 ^ 149 ≤ |value32 a + value32 b|) ∧
    (value32 a + value32 b ≠ 0 →
      sign32 (fadd32 nan a b) = decide (value32 a + value32 b < 0)) ∧
    (isFinite32 (fadd32 nan a b) = true → ∀ f : Word, isFinite32 f = true →
      |value32 a + value32 b - value32 (fadd32 nan a b)| ≤ |value32 a + value32 b - value32 f| ∧
      (|value32 a + value32 b - value32 (fadd32 nan a b)| = |value32 a + value32 b - value32 f| →
        value32 f ≠ value32 (fadd32 nan a b) → (fadd32 nan a b).getLsbD 0 = false))

/-- 40_fp_numerics.md R90, R85: for finite operands `fmul32` is the exact product rounded once, to
nearest with ties to even. A product of two values is in units of `2^-298`. It is never a NaN; it
overflows to infinity exactly when the magnitude of the exact product is at least `2^128 - 2^103`; and
its sign is the exclusive-or of the signs, infinite or not. -/
def Obligations.MultiplierRoundsExactProduct : Prop :=
  ∀ nan a b : Word, isFinite32 a = true → isFinite32 b = true →
    isNaN32 (fmul32 nan a b) = false ∧
    (isInf32 (fmul32 nan a b) = true ↔
      (2 ^ 128 - 2 ^ 103) * 2 ^ 298 ≤ |value32 a * value32 b|) ∧
    sign32 (fmul32 nan a b) = (sign32 a ^^ sign32 b) ∧
    (isFinite32 (fmul32 nan a b) = true → ∀ f : Word, isFinite32 f = true →
      |value32 a * value32 b - value32 (fmul32 nan a b) * 2 ^ 149| ≤
        |value32 a * value32 b - value32 f * 2 ^ 149| ∧
      (|value32 a * value32 b - value32 (fmul32 nan a b) * 2 ^ 149| =
          |value32 a * value32 b - value32 f * 2 ^ 149| →
        value32 f ≠ value32 (fmul32 nan a b) → (fmul32 nan a b).getLsbD 0 = false))

/-- 40_fp_numerics.md R89: the adder's special cases and its signs of zero. -/
def Obligations.AdderSpecialCases : Prop :=
  ∀ nan a b : Word,
    (isNaN32 a = true ∨ isNaN32 b = true → fadd32 nan a b = nan) ∧
    (isInf32 a = true → isInf32 b = true → sign32 a ≠ sign32 b → fadd32 nan a b = nan) ∧
    (isInf32 a = true → isInf32 b = true → sign32 a = sign32 b → fadd32 nan a b = a) ∧
    (isInf32 a = true → isFinite32 b = true → fadd32 nan a b = a) ∧
    (isInf32 b = true → isFinite32 a = true → fadd32 nan a b = b) ∧
    (isFinite32 a = true → isFinite32 b = true → value32 a + value32 b = 0 →
      fadd32 nan a b = if a = 0x80000000 ∧ b = 0x80000000 then 0x80000000 else 0x00000000)

/-- 40_fp_numerics.md R90: the multiplier's special cases, and the sign in every case that is not a
NaN. -/
def Obligations.MultiplierSpecialCases : Prop :=
  ∀ nan a b : Word,
    (isNaN32 a = true ∨ isNaN32 b = true → fmul32 nan a b = nan) ∧
    (isInf32 a = true ∧ isZero32 b = true ∨ isZero32 a = true ∧ isInf32 b = true →
      fmul32 nan a b = nan) ∧
    (isNaN32 a = false → isNaN32 b = false →
      ¬(isInf32 a = true ∧ isZero32 b = true) → ¬(isZero32 a = true ∧ isInf32 b = true) →
      sign32 (fmul32 nan a b) = (sign32 a ^^ sign32 b) ∧
      (isInf32 a = true ∨ isInf32 b = true → isInf32 (fmul32 nan a b) = true) ∧
      (isZero32 a = true ∨ isZero32 b = true → isZero32 (fmul32 nan a b) = true))

/-- 40_fp_numerics.md R88: whenever the adder or the multiplier returns a NaN it returns NAN_RESULT, and
it does so exactly when an operand is a NaN or the operation is invalid; the parameter's default is
the canonical quiet NaN. -/
def Obligations.NanResultOnly : Prop :=
  Config.nanDefault = 0x7FC00000 ∧ class32 Config.nanDefault = .quietNaN ∧
  ∀ nan a b : Word, isNaN32 nan = true →
    (isNaN32 (fadd32 nan a b) = true → fadd32 nan a b = nan) ∧
    (isNaN32 (fadd32 nan a b) = true ↔ isNaN32 a = true ∨ isNaN32 b = true ∨
      isInf32 a = true ∧ isInf32 b = true ∧ sign32 a ≠ sign32 b) ∧
    (isNaN32 (fmul32 nan a b) = true → fmul32 nan a b = nan) ∧
    (isNaN32 (fmul32 nan a b) = true ↔ isNaN32 a = true ∨ isNaN32 b = true ∨
      isInf32 a = true ∧ isZero32 b = true ∨ isZero32 a = true ∧ isInf32 b = true)

/-- 40_fp_numerics.md R102: the adder and the multiplier are commutative on all patterns. -/
def Obligations.AdderAndMultiplierCommute : Prop :=
  ∀ nan a b : Word, fadd32 nan a b = fadd32 nan b a ∧ fmul32 nan a b = fmul32 nan b a

/-- 40_fp_numerics.md R102: for every pattern that is not a NaN, adding `-0` and multiplying by 1 change
nothing, and adding `+0` changes only `-0`. -/
def Obligations.AdderAndMultiplierIdentities : Prop :=
  ∀ nan x : Word, isNaN32 x = false →
    fadd32 nan x 0x80000000 = x ∧
    fadd32 nan x 0x00000000 = (if x = 0x80000000 then 0x00000000 else x) ∧
    fmul32 nan x 0x3F800000 = x

/-- 40_fp_numerics.md R102: on integers of magnitude at most `2^24` whose exact sum (or product) is one
too, the adder (or the multiplier) is exact. The value 1 is `2^149` units. -/
def Obligations.SmallIntegersExact : Prop :=
  ∀ (nan a b : Word) (m n : Int), isFinite32 a = true → isFinite32 b = true →
    value32 a = m * 2 ^ 149 → value32 b = n * 2 ^ 149 → |m| ≤ 2 ^ 24 → |n| ≤ 2 ^ 24 →
    (|m + n| ≤ 2 ^ 24 →
      isFinite32 (fadd32 nan a b) = true ∧ value32 (fadd32 nan a b) = (m + n) * 2 ^ 149) ∧
    (|m * n| ≤ 2 ^ 24 →
      isFinite32 (fmul32 nan a b) = true ∧ value32 (fmul32 nan a b) = m * n * 2 ^ 149)

/-- 40_fp_numerics.md R102: a sum is `-0` only when both addends are `-0`, so an accumulator that is not
`-0` never becomes `-0`. -/
def Obligations.SumIsNegativeZeroOnlyFromNegativeZeros : Prop :=
  ∀ nan a b : Word, isNaN32 nan = true → fadd32 nan a b = 0x80000000 →
    a = 0x80000000 ∧ b = 0x80000000

/-- 40_fp_numerics.md R92: `h2f` is exact for every binary16 pattern that is a number, keeps the sign
of every pattern, and maps infinity to infinity and a NaN to a quiet NaN with its fraction bits in
place. -/
def Obligations.WideningIsExact : Prop :=
  ∀ h : Half,
    sign32 (h2f h) = sign16 h ∧
    (isFinite16 h = true → isFinite32 (h2f h) = true ∧ value32 (h2f h) = value16 h * 2 ^ 125) ∧
    (class16 h = .infinity → class32 (h2f h) = .infinity) ∧
    (isNaN16 h = true → class32 (h2f h) = .quietNaN ∧
      h2f h = (BitVec.ofBool (sign16 h) ++ (255 : BitVec 8) ++ h.extractLsb' 0 10 ++
        (0 : BitVec 13)) ||| 0x00400000)

/-- 40_fp_numerics.md R93, R85: for a finite operand `f2h` rounds to nearest, ties to even, among the
finite binary16 values, keeping the sign; it is infinite exactly from 65520 up and zero exactly up to
`2^-25`. -/
def Obligations.NarrowingIsNearestEven : Prop :=
  ∀ (f : Word) (h : Half), isFinite32 f = true → isFinite16 h = true →
    sign16 (f2h f) = sign32 f ∧
    (class16 (f2h f) = .infinity ↔ 65520 * 2 ^ 149 ≤ |value32 f|) ∧
    (class16 (f2h f) = .zero ↔ |value32 f| ≤ 2 ^ 124) ∧
    (isFinite16 (f2h f) = true →
      |value32 f - value16 (f2h f) * 2 ^ 125| ≤ |value32 f - value16 h * 2 ^ 125| ∧
      (|value32 f - value16 (f2h f) * 2 ^ 125| = |value32 f - value16 h * 2 ^ 125| →
        value16 h ≠ value16 (f2h f) → (f2h f).getLsbD 0 = false))

/-- 40_fp_numerics.md R93: `f2h` maps infinity to infinity of its sign and every NaN to a quiet NaN of
its sign with the top nine payload bits below the quiet bit. -/
def Obligations.NarrowingSpecialCases : Prop :=
  ∀ f : Word,
    (isInf32 f = true → f2h f = if sign32 f = true then 0xFC00 else 0x7C00) ∧
    (isNaN32 f = true → class16 (f2h f) = .quietNaN ∧ sign16 (f2h f) = sign32 f ∧
      (f2h f).extractLsb' 0 9 = f.extractLsb' 13 9)

/-- 40_fp_numerics.md R94: the round trips of the two conversions. -/
def Obligations.ConversionRoundTrip : Prop :=
  (∀ h : Half, isNaN16 h = false → f2h (h2f h) = h) ∧
  (∀ h : Half, isNaN16 h = true → f2h (h2f h) = h ||| 0x0200) ∧
  (∀ x : Word, isNaN32 x = false → (∃ h : Half, isNaN16 h = false ∧ h2f h = x) → h2f (f2h x) = x)

/-- 43_reduce_scalar.md R131: on H8 the product of two widened elements that are numbers is exact. -/
def Obligations.HalfProductsExact : Prop :=
  ∀ (nan : Word) (a b : Half), isFinite16 a = true → isFinite16 b = true →
    isFinite32 (fmul32 nan (h2f a) (h2f b)) = true ∧
      value32 (fmul32 nan (h2f a) (h2f b)) * 2 ^ 48 = value16 a * value16 b * 2 ^ 149

/-- 40_fp_numerics.md R99: the horizontal sum is the left-to-right chain, for four and for eight lanes;
all lanes `-0` sum to `-0`; the rule's example. -/
def Obligations.HorizontalSumIsAChain : Prop :=
  (∀ nan a b c d : Word,
    hsum nan [a, b, c, d] = fadd32 nan (fadd32 nan (fadd32 nan a b) c) d) ∧
  (∀ nan a b c d e f g h : Word, hsum nan [a, b, c, d, e, f, g, h] =
    fadd32 nan (fadd32 nan (fadd32 nan (fadd32 nan (fadd32 nan (fadd32 nan (fadd32 nan a b) c) d)
      e) f) g) h) ∧
  (∀ (nan : Word) (v : Variant), hsum nan (List.replicate v.size 0x80000000) = 0x80000000) ∧
  (∀ nan : Word, hsum nan [0x4B800000, 0x3F800000, 0x3F800000, 0xCB800000] = 0x00000000)
end

