-- ==== Sys2Proof/Laws/Memory.lean ====
section
/-! SUPPORT. The memory's canonical form and its read and write laws (20_memory.md R41, R49). -/

namespace Sys2Proof.Machine

/-! ## The canonical form -/

theorem Memory.wfFrom_cons {lo a : Nat} {x : Byte} {rest : Memory} :
    Memory.wfFrom lo ((a, x) :: rest) = true ↔
      lo ≤ a ∧ a < Config.addrLimit ∧ x ≠ Config.unplacedByte ∧ Memory.wfFrom (a + 1) rest = true := by
  simp [Memory.wfFrom, and_assoc]

theorem Memory.wfFrom_mono {m : Memory} {lo hi : Nat} (h : Memory.wfFrom hi m = true) (hl : lo ≤ hi) :
    Memory.wfFrom lo m = true := by
  cases m with
  | nil => rfl
  | cons c rest =>
    obtain ⟨a, x⟩ := c
    rw [Memory.wfFrom_cons] at h ⊢
    exact ⟨by omega, h.2⟩

/-- The memory of the reset state has the canonical form. -/
theorem reset_memory_wf : State.reset.mem.wf = true := rfl

/-- Below the first address a canonical memory may list, every byte is unlisted. -/
theorem Memory.read_below {m : Memory} {lo a : Nat} (h : Memory.wfFrom lo m = true) (ha : a < lo) :
    m.read a = Config.unplacedByte := by
  induction m generalizing lo with
  | nil => rfl
  | cons c rest ih =>
    obtain ⟨b, x⟩ := c
    rw [Memory.wfFrom_cons] at h
    simp only [Memory.read]
    rw [if_neg (by omega)]
    exact ih h.2.2.2 (by omega)

theorem Memory.write_wfFrom {m : Memory} {lo a : Nat} {x : Byte} (h : Memory.wfFrom lo m = true)
    (hl : lo ≤ a) (ha : a < Config.addrLimit) : Memory.wfFrom lo (m.write a x) = true := by
  induction m generalizing lo with
  | nil =>
    simp only [Memory.write]
    split
    · rfl
    · rw [Memory.wfFrom_cons]; exact ⟨hl, ha, ‹_›, rfl⟩
  | cons c rest ih =>
    obtain ⟨b, y⟩ := c
    have h' := Memory.wfFrom_cons.mp h
    simp only [Memory.write]
    split
    · split
      · exact h
      · rw [Memory.wfFrom_cons, Memory.wfFrom_cons]
        exact ⟨hl, ha, ‹_›, by omega, h'.2⟩
    · split
      · split
        · exact Memory.wfFrom_mono h'.2.2.2 (by omega)
        · rw [Memory.wfFrom_cons]
          subst_vars
          exact ⟨h'.1, h'.2.1, ‹_›, h'.2.2.2⟩
      · rw [Memory.wfFrom_cons]
        exact ⟨h'.1, h'.2.1, h'.2.2.1, ih h'.2.2.2 (by omega)⟩

/-- A write keeps the canonical form. -/
theorem Memory.write_wf {m : Memory} {a : Nat} {x : Byte} (h : m.wf = true)
    (ha : a < Config.addrLimit) : (m.write a x).wf = true :=
  Memory.write_wfFrom h (Nat.zero_le a) ha

/-! ## One byte -/

theorem Memory.read_write_from {m : Memory} {lo a : Nat} {x : Byte} (h : Memory.wfFrom lo m = true)
    (b : Nat) : (m.write a x).read b = if b = a then x else m.read b := by
  induction m generalizing lo with
  | nil =>
    simp only [Memory.write]
    split
    · simp only [Memory.read]; split <;> simp_all
    · simp only [Memory.read]
  | cons c rest ih =>
    obtain ⟨d, y⟩ := c
    have h' := Memory.wfFrom_cons.mp h
    have low : a ≤ d → Memory.read rest a = Config.unplacedByte := fun hle =>
      Memory.read_below h'.2.2.2 (Nat.lt_succ_of_le hle)
    simp only [Memory.write]
    split
    · have hd : a ≠ d := by omega
      split
      · simp only [Memory.read]
        by_cases hb : b = a
        · subst hb; rw [if_neg hd, low (by omega)]; simp_all
        · simp [hb]
      · simp only [Memory.read]
    · split
      · subst_vars
        split
        · by_cases hb : b = d
          · subst hb; rw [low (le_refl _)]; simp_all
          · simp [Memory.read, hb]
        · by_cases hb : b = d <;> simp [Memory.read, hb]
      · simp only [Memory.read]
        rw [ih h'.2.2.2]
        by_cases hb : b = d
        · have : b ≠ a := by omega
          simp [hb]; omega
        · simp [hb]

/-- A read after a write gives the byte written, and every other byte as before. -/
theorem Memory.read_write {m : Memory} {a : Nat} {x : Byte} (h : m.wf = true) (b : Nat) :
    (m.write a x).read b = if b = a then x else m.read b :=
  Memory.read_write_from h b

/-! ## Little-endian integers -/

theorem Memory.readLE_lt (m : Memory) (a n : Nat) : m.readLE a n < 256 ^ n := by
  induction n generalizing a with
  | zero => simp [Memory.readLE]
  | succ n ih =>
    have h1 := ih (a + 1)
    have h2 : (m.read a).toNat < 256 := (m.read a).isLt
    simp only [Memory.readLE, pow_succ]
    omega

/-- `readLE` depends only on the bytes it reads. -/
theorem Memory.readLE_congr {m m' : Memory} {a n : Nat}
    (h : ∀ k, k < n → m.read (a + k) = m'.read (a + k)) : m.readLE a n = m'.readLE a n := by
  induction n generalizing a with
  | zero => rfl
  | succ n ih =>
    have h0 : m.read a = m'.read a := by simpa using h 0 (by omega)
    have h1 : m.readLE (a + 1) n = m'.readLE (a + 1) n :=
      ih fun k hk => by
        have := h (k + 1) (by omega)
        rwa [show a + (k + 1) = a + 1 + k by omega] at this
    simp only [Memory.readLE, h0, h1]

/-- `writeLE` keeps the canonical form. -/
theorem Memory.writeLE_wf {m : Memory} {a n w : Nat} (h : m.wf = true)
    (ha : a + n ≤ Config.addrLimit) : (m.writeLE a n w).wf = true := by
  induction n generalizing m a w with
  | zero => exact h
  | succ n ih =>
    simp only [Memory.writeLE]
    exact ih (Memory.write_wf h (by omega)) (by omega)

/-- `writeLE` changes no byte outside the `n` it writes. -/
theorem Memory.writeLE_read_outside {m : Memory} {a n w b : Nat} (h : m.wf = true)
    (ha : a + n ≤ Config.addrLimit) (hb : b < a ∨ a + n ≤ b) :
    (m.writeLE a n w).read b = m.read b := by
  induction n generalizing m a w with
  | zero => rfl
  | succ n ih =>
    simp only [Memory.writeLE]
    rw [ih (Memory.write_wf h (by omega)) (by omega) (by omega), Memory.read_write h, if_neg (by omega)]

/-- The byte `k` of what `writeLE` writes is bits `8k+7:8k` of the value. -/
theorem Memory.writeLE_read_inside {m : Memory} {a n w k : Nat} (h : m.wf = true)
    (ha : a + n ≤ Config.addrLimit) (hk : k < n) :
    (m.writeLE a n w).read (a + k) = BitVec.ofNat 8 (w / 256 ^ k) := by
  induction n generalizing m a w k with
  | zero => omega
  | succ n ih =>
    simp only [Memory.writeLE]
    have hw := Memory.write_wf (m := m) (a := a) (x := BitVec.ofNat 8 w) h (by omega)
    cases k with
    | zero =>
      rw [Memory.writeLE_read_outside hw (by omega) (by omega), Memory.read_write h]
      simp
    | succ k =>
      rw [show a + (k + 1) = a + 1 + k by omega, ih hw (by omega) (by omega), Nat.div_div_eq_div_mul,
        pow_succ, Nat.mul_comm]

/-- Reading back what was written gives the value's low-order bytes. -/
theorem Memory.readLE_writeLE {m : Memory} {a n w : Nat} (h : m.wf = true)
    (ha : a + n ≤ Config.addrLimit) : (m.writeLE a n w).readLE a n = w % 256 ^ n := by
  induction n generalizing m a w with
  | zero => simp [Memory.readLE, Nat.mod_one]
  | succ n ih =>
    have hw := Memory.write_wf (m := m) (a := a) (x := BitVec.ofNat 8 w) h (by omega)
    simp only [Memory.readLE, Memory.writeLE]
    rw [ih hw (by omega), Memory.writeLE_read_outside hw (by omega) (by omega), Memory.read_write h,
      if_pos rfl, BitVec.toNat_ofNat, show 256 ^ (n + 1) = 256 * 256 ^ n by rw [pow_succ, Nat.mul_comm],
      Nat.mod_mul]

/-! ## Vector windows -/

/-- `storeLanes` keeps the canonical form. -/
theorem Memory.storeLanes_wf {m : Memory} {et : EType} {a : Nat} {lanes : List Word}
    (h : m.wf = true) (ha : a + lanes.length * et.esz ≤ Config.addrLimit) :
    (m.storeLanes et a lanes).wf = true := by
  induction lanes generalizing m a with
  | nil => exact h
  | cons f fs ih =>
    simp only [List.length_cons, Nat.succ_mul] at ha
    simp only [Memory.storeLanes]
    exact ih (Memory.writeLE_wf h (by omega)) (by omega)

/-- `storeLanes` changes no byte outside the window of its lanes. -/
theorem Memory.storeLanes_read_outside {m : Memory} {et : EType} {a b : Nat} {lanes : List Word}
    (h : m.wf = true) (ha : a + lanes.length * et.esz ≤ Config.addrLimit)
    (hb : b < a ∨ a + lanes.length * et.esz ≤ b) :
    (m.storeLanes et a lanes).read b = m.read b := by
  induction lanes generalizing m a with
  | nil => rfl
  | cons f fs ih =>
    simp only [List.length_cons, Nat.succ_mul] at ha hb
    simp only [Memory.storeLanes]
    rw [ih (Memory.writeLE_wf h (by omega)) (by omega) (by omega),
      Memory.writeLE_read_outside h (by omega) (by omega)]

theorem f32ToElem_lt (et : EType) (f : Word) : f32ToElem et f < 256 ^ et.esz := by
  cases et with
  | f32 => exact lt_of_lt_of_le f.isLt (by decide)
  | f16 => exact lt_of_lt_of_le (f2h f).isLt (by decide)

/-- Element `i` of a window after `storeLanes` is lane `i`, converted to the element type. -/
theorem Memory.storeLanes_readLE {m : Memory} {et : EType} {a i : Nat} {lanes : List Word}
    (h : m.wf = true) (ha : a + lanes.length * et.esz ≤ Config.addrLimit) (hi : i < lanes.length) :
    (m.storeLanes et a lanes).readLE (a + i * et.esz) et.esz = f32ToElem et lanes[i] := by
  induction lanes generalizing m a i with
  | nil => simp at hi
  | cons f fs ih =>
    simp only [List.length_cons, Nat.succ_mul] at ha hi
    simp only [Memory.storeLanes]
    have hw : (m.writeLE a et.esz (f32ToElem et f)).wf = true := Memory.writeLE_wf h (by omega)
    cases i with
    | zero =>
      rw [Nat.zero_mul, Nat.add_zero, List.getElem_cons_zero,
        Memory.readLE_congr (m' := m.writeLE a et.esz (f32ToElem et f)) fun k hk =>
          Memory.storeLanes_read_outside hw (by omega) (by omega),
        Memory.readLE_writeLE h (by omega), Nat.mod_eq_of_lt (f32ToElem_lt et f)]
    | succ i =>
      rw [List.getElem_cons_succ, show a + (i + 1) * et.esz = a + et.esz + i * et.esz by
        rw [Nat.succ_mul]; omega]
      exact ih hw (by omega) (by omega)

end Sys2Proof.Machine
end

