-- ==== Sys2Proof/Laws/State.lean ====
section
/-! SUPPORT. One lemma for each field and each update of the state, true by `rfl`, and the contents of a
register after a write. -/

namespace Sys2Proof.Machine

section
variable (s : State) (k : VReg) (j : SReg) (lanes : List Word) (bits : Word) (err : Bool)
  (data : Word) (rest : List HostAction) (c : Command)

@[simp] theorem writeV_params : (s.writeV k lanes).params = s.params := rfl
@[simp] theorem writeV_sregs : (s.writeV k lanes).sregs = s.sregs := rfl
@[simp] theorem writeV_mem : (s.writeV k lanes).mem = s.mem := rfl
@[simp] theorem writeV_launch : (s.writeV k lanes).launch = s.launch := rfl
@[simp] theorem writeV_port : (s.writeV k lanes).port = s.port := rfl
@[simp] theorem writeV_responses : (s.writeV k lanes).responses = s.responses := rfl

@[simp] theorem writeS_params : (s.writeS j bits).params = s.params := rfl
@[simp] theorem writeS_vregs : (s.writeS j bits).vregs = s.vregs := rfl
@[simp] theorem writeS_mem : (s.writeS j bits).mem = s.mem := rfl
@[simp] theorem writeS_launch : (s.writeS j bits).launch = s.launch := rfl
@[simp] theorem writeS_port : (s.writeS j bits).port = s.port := rfl
@[simp] theorem writeS_responses : (s.writeS j bits).responses = s.responses := rfl

@[simp] theorem respond_params : (s.respond err data).params = s.params := rfl
@[simp] theorem respond_vregs : (s.respond err data).vregs = s.vregs := rfl
@[simp] theorem respond_sregs : (s.respond err data).sregs = s.sregs := rfl
@[simp] theorem respond_mem : (s.respond err data).mem = s.mem := rfl
@[simp] theorem respond_launch : (s.respond err data).launch = s.launch := rfl
@[simp] theorem respond_port : (s.respond err data).port = s.port := rfl
@[simp] theorem respond_responses :
    (s.respond err data).responses = s.responses ++ [⟨err, data⟩] := rfl

@[simp] theorem accept_params : (s.accept rest).params = s.params := rfl
@[simp] theorem accept_vregs : (s.accept rest).vregs = s.vregs := rfl
@[simp] theorem accept_sregs : (s.accept rest).sregs = s.sregs := rfl
@[simp] theorem accept_mem : (s.accept rest).mem = s.mem := rfl
@[simp] theorem accept_launch : (s.accept rest).launch = s.launch := rfl
@[simp] theorem accept_port : (s.accept rest).port = rest := rfl
@[simp] theorem accept_responses : (s.accept rest).responses = s.responses := rfl

@[simp] theorem present_params : (s.present c).params = s.params := rfl
@[simp] theorem present_vregs : (s.present c).vregs = s.vregs := rfl
@[simp] theorem present_sregs : (s.present c).sregs = s.sregs := rfl
@[simp] theorem present_mem : (s.present c).mem = s.mem := rfl
@[simp] theorem present_launch : (s.present c).launch = s.launch := rfl
@[simp] theorem present_port : (s.present c).port = .command c :: s.port := rfl
@[simp] theorem present_responses : (s.present c).responses = s.responses := rfl

/-! The simp normal form of a register is `vregs[k.val]`; the lemmas without `simp` say the same of
`vregs[k]`, for `rw`. -/

@[simp] theorem writeV_vregs_val : (s.writeV k lanes).vregs[k.val] = ⟨lanes, true⟩ := by
  simp [State.writeV]

@[simp] theorem writeS_sregs_val : (s.writeS j bits).sregs[j.val] = ⟨bits, true⟩ := by
  simp [State.writeS]

theorem writeV_vregs_same : (s.writeV k lanes).vregs[k] = ⟨lanes, true⟩ := writeV_vregs_val s k lanes

theorem writeS_sregs_same : (s.writeS j bits).sregs[j] = ⟨bits, true⟩ := writeS_sregs_val s j bits

theorem writeV_vregs_other {i : VReg} (h : i ≠ k) :
    (s.writeV k lanes).vregs[i] = s.vregs[i] := by
  have h' : (k : Nat) ≠ (i : Nat) := fun e => h (Fin.ext e.symm)
  simp [State.writeV, h']

theorem writeV_vregs (i : VReg) :
    (s.writeV k lanes).vregs[i] = if i = k then ⟨lanes, true⟩ else s.vregs[i] := by
  by_cases h : i = k
  · subst h; rw [writeV_vregs_same, if_pos rfl]
  · rw [writeV_vregs_other s k lanes h, if_neg h]

theorem writeS_sregs_other {i : SReg} (h : i ≠ j) :
    (s.writeS j bits).sregs[i] = s.sregs[i] := by
  have h' : (j : Nat) ≠ (i : Nat) := fun e => h (Fin.ext e.symm)
  simp [State.writeS, h']

theorem writeS_sregs (i : SReg) :
    (s.writeS j bits).sregs[i] = if i = j then ⟨bits, true⟩ else s.sregs[i] := by
  by_cases h : i = j
  · subst h; rw [writeS_sregs_same, if_pos rfl]
  · rw [writeS_sregs_other s j bits h, if_neg h]

end

/-- Every vector register of a state is `vregs[k]` for some `k`, so a check over the register file is a
statement over `k`. -/
theorem vregs_all_iff (s : State) (p : VectorReg → Bool) :
    s.vregs.toList.all p = true ↔ ∀ k : VReg, p s.vregs[k] = true := by
  rw [List.all_eq_true]
  constructor
  · intro h k
    exact h _ (by simp)
  · intro h x hx
    rw [Vector.mem_toList_iff, Vector.mem_iff_getElem] at hx
    obtain ⟨i, hi, rfl⟩ := hx
    exact h ⟨i, hi⟩

end Sys2Proof.Machine
end

