-- ==== Sys2Proof/Laws/Ops.lean ====
section
/-! SUPPORT. What each shared operation can do, said once: cite these instead of unfolding the
operations. -/

namespace Sys2Proof.Machine

/-! ## Outcomes -/

@[simp] theorem orFault_ok {α : Type} (a : α) (k : α → Out) : orFault (.ok a) k = k a := rfl

@[simp] theorem orFault_error {α : Type} (f : Fault) (k : α → Out) :
    orFault (.error f) k = .fault f := rfl

/-- A continued read answers a next state only through a value that was read. -/
theorem orFault_next {α : Type} {r : Except Fault α} {k : α → Out} {t : State} :
    orFault r k = .next t ↔ ∃ a, r = .ok a ∧ k a = .next t := by
  cases r <;> simp

/-- A continued read never refuses by itself. -/
theorem orFault_refused {α : Type} {r : Except Fault α} {k : α → Out} {q : Refusal} :
    orFault r k = .refused q ↔ ∃ a, r = .ok a ∧ k a = .refused q := by
  cases r <;> simp

theorem answered_next {s t : State} {d : Word} : answered s d = .next t ↔ t = s.respond false d := by
  simp [answered, eq_comm]

theorem illegalCommand_next {s t : State} : illegalCommand s = .next t ↔ t = s.respond true 0 := by
  simp [illegalCommand, eq_comm]

/-! ## Valid windows -/

theorem readable_iff {l : Launch} {a : Nat} :
    l.readable a = true ↔
      a < Config.addrLimit ∧ ∃ r ∈ l.regions, r.base ≤ a ∧ a < r.base + r.size := by
  simp [Launch.readable, Region.holds]

theorem writable_iff {l : Launch} {a : Nat} :
    l.writable a = true ↔
      a < Config.addrLimit ∧
        ∃ r ∈ l.regions, (r.base ≤ a ∧ a < r.base + r.size) ∧ r.perm = .readWrite := by
  simp [Launch.writable, Region.holds]

/-- WRITABLE is a subset of READABLE (20_memory.md R45). -/
theorem readable_of_writable {l : Launch} {a : Nat} (h : l.writable a = true) :
    l.readable a = true := by
  rw [writable_iff] at h
  obtain ⟨ha, r, hr, hh, -⟩ := h
  exact readable_iff.mpr ⟨ha, r, hr, hh⟩

theorem readableWindow_iff {s : State} {a n : Nat} :
    s.readableWindow a n = true ↔ ∀ k, k < n → s.launch.readable (a + k) = true := by
  simp [State.readableWindow]

theorem writableWindow_iff {s : State} {a n : Nat} :
    s.writableWindow a n = true ↔ ∀ k, k < n → s.launch.writable (a + k) = true := by
  simp [State.writableWindow]

/-- A non-empty readable window ends inside the address space (20_memory.md R46). -/
theorem readableWindow_bound {s : State} {a n : Nat} (h : s.readableWindow a n = true) (hn : 0 < n) :
    a + n ≤ Config.addrLimit := by
  have := (readable_iff.mp (readableWindow_iff.mp h (n - 1) (by omega))).1
  omega

/-- A non-empty writable window ends inside the address space (20_memory.md R46). -/
theorem writableWindow_bound {s : State} {a n : Nat} (h : s.writableWindow a n = true) (hn : 0 < n) :
    a + n ≤ Config.addrLimit := by
  have := (writable_iff.mp (writableWindow_iff.mp h (n - 1) (by omega))).1
  omega

theorem memRead_ok {s : State} {a n r : Nat} :
    s.memRead a n = .ok r ↔ s.readableWindow a n = true ∧ r = s.mem.readLE a n := by
  unfold State.memRead
  by_cases h : s.readableWindow a n = true <;> simp [h, eq_comm]

theorem memWrite_ok {s t : State} {a n w : Nat} :
    s.memWrite a n w = .ok t ↔
      s.writableWindow a n = true ∧ t = { s with mem := s.mem.writeLE a n w } := by
  unfold State.memWrite
  by_cases h : s.writableWindow a n = true <;> simp [h, eq_comm]

theorem loadElem_ok {s : State} {a : Nat} {e : Word} :
    s.loadElem a = .ok e ↔ s.readableWindow a s.esz = true ∧ e = s.elemAt a := by
  unfold State.loadElem State.memRead State.elemAt
  by_cases h : s.readableWindow a s.esz = true <;> simp [h, eq_comm]

theorem loadElem_error {s : State} {a : Nat} {f : Fault} :
    s.loadElem a = .error f ↔ s.readableWindow a s.esz = false ∧ f = .outsideReadable := by
  unfold State.loadElem State.memRead
  by_cases h : s.readableWindow a s.esz = true <;> simp [h, eq_comm]

theorem loadWindow_ok {s : State} {a : Nat} {t : List Word} :
    s.loadWindow a = .ok t ↔ s.readableWindow a s.vbytes = true ∧
      t = (List.range s.size).map fun i => s.elemAt (elemAddr s.params.variant a i) := by
  unfold State.loadWindow
  by_cases h : s.readableWindow a s.vbytes = true <;> simp [h, eq_comm]

theorem loadWindow_error {s : State} {a : Nat} {f : Fault} :
    s.loadWindow a = .error f ↔ s.readableWindow a s.vbytes = false ∧ f = .outsideReadable := by
  unfold State.loadWindow
  by_cases h : s.readableWindow a s.vbytes = true <;> simp [h, eq_comm]

theorem storeWindow_ok {s t : State} {a : Nat} {lanes : List Word} :
    s.storeWindow a lanes = .ok t ↔ s.writableWindow a s.vbytes = true ∧
      t = { s with mem := s.mem.storeLanes s.etype a lanes } := by
  unfold State.storeWindow
  by_cases h : s.writableWindow a s.vbytes = true <;> simp [h, eq_comm]

theorem storeWindow_error {s : State} {a : Nat} {lanes : List Word} {f : Fault} :
    s.storeWindow a lanes = .error f ↔
      s.writableWindow a s.vbytes = false ∧ f = .outsideWritable := by
  unfold State.storeWindow
  by_cases h : s.writableWindow a s.vbytes = true <;> simp [h, eq_comm]

/-! ## Registers -/

/-- Reading a register asks for its lanes alone, not whether it was written (log 2). -/
theorem readV_eq (s : State) (k : VReg) : s.readV k = s.vregs[k].lanes := rfl

theorem readS_eq (s : State) (k : SReg) : s.readS k = s.sregs[k].bits := rfl

theorem readV_of {s : State} {k : VReg} {r : VectorReg} (h : s.vregs[k] = r) : s.readV k = r.lanes := by
  rw [readV_eq, h]

theorem readS_of {s : State} {k : SReg} {r : ScalarReg} (h : s.sregs[k] = r) : s.readS k = r.bits := by
  rw [readS_eq, h]

@[simp] theorem writeV_readV_same (s : State) (k : VReg) (l : List Word) : (s.writeV k l).readV k = l :=
  readV_of (writeV_vregs_same s k l)

@[simp] theorem writeS_readS_same (s : State) (k : SReg) (b : Word) : (s.writeS k b).readS k = b :=
  readS_of (writeS_sregs_same s k b)

theorem writeV_readV_other (s : State) {k i : VReg} (l : List Word) (h : i ≠ k) :
    (s.writeV k l).readV i = s.readV i := readV_of (writeV_vregs_other s k l h)

theorem writeS_readS_other (s : State) {k i : SReg} (b : Word) (h : i ≠ k) :
    (s.writeS k b).readS i = s.readS i := readS_of (writeS_sregs_other s k b h)

/-! ## The invariant -/

theorem lanesWf_iff {s : State} : s.lanesWf = true ↔ ∀ k : VReg, s.vregs[k].lanes.length = s.size := by
  unfold State.lanesWf
  rw [vregs_all_iff]
  simp

theorem wf_iff {s : State} :
    s.wf = true ↔ isQuietNaN32 s.nan = true ∧ (∀ k : VReg, s.vregs[k].lanes.length = s.size) ∧
      s.mem.wf = true := by
  unfold State.wf
  rw [Bool.and_eq_true, Bool.and_eq_true, lanesWf_iff, and_assoc]

/-- A quiet NaN is a NaN (40_fp_numerics.md R80). -/
theorem isNaN32_of_quiet {f : Word} (h : isQuietNaN32 f = true) : isNaN32 f = true := by
  simp only [isQuietNaN32, Bool.and_eq_true, beq_iff_eq] at h
  have hm : frac32 f ≠ 0 := by
    intro h0
    have h1 : f.extractLsb' 0 23 = 0#23 := BitVec.eq_of_toNat_eq h0
    have h2 := congrArg (fun b => b.getLsbD 22) h1
    have h3 := h.2
    simp at h2 h3
    rw [h2] at h3
    cases h3
  simp [isNaN32, h.1, hm]

@[simp] theorem addLanes_length (nan : Word) (a b : List Word) :
    (addLanes nan a b).length = min a.length b.length := by simp [addLanes]

@[simp] theorem mulLanes_length (nan : Word) (a b : List Word) :
    (mulLanes nan a b).length = min a.length b.length := by simp [mulLanes]

theorem vbytes_eq (v : Variant) : v.vbytes = v.size * v.etype.esz := rfl

theorem size_pos (v : Variant) : 0 < v.size := by cases v <;> decide

theorem esz_pos (et : EType) : 0 < et.esz := by cases et <;> decide

theorem vbytes_pos (v : Variant) : 0 < v.vbytes := by cases v <;> decide

end Sys2Proof.Machine
end

