-- ==== Sys2Proof/Laws/PerInstr.lean ====
section
/-! SUPPORT. Statements about every command as syntax, one lemma for each constructor of `Instr`. -/

namespace Sys2Proof.Laws

/-- The command's encoding lies in a row of the opcode map that carries its mnemonic, its format and its
`op` value, and matches that row's pattern under its mask (30_encoding.md R65). -/
def EncodeInRow.Statement (i : Instr) : Prop :=
  ∃ r ∈ opcodeMap, r.mnemonic = i.mnemonic ∧ r.format = i.format ∧ r.op = i.opcode ∧
    r.matchesWord (encode i).word = true

theorem EncodeInRow.vzero (vd : VReg) : EncodeInRow.Statement (.vzero vd) :=
  ⟨⟨0x01, "VZERO", .FV, 0x01000000, 0xFF8FFFFF⟩, by decide, rfl, rfl, rfl,
    by revert vd; decide +kernel⟩

theorem EncodeInRow.vload (vd : VReg) (x : Addr) : EncodeInRow.Statement (.vload vd x) :=
  ⟨⟨0x02, "VLOAD", .FVM, 0x02000000, 0xFF8FFFFF⟩, by decide, rfl, rfl, rfl,
    by revert vd; simp only [encode, Instr.opcode, Instr.rd, Instr.rs1, Instr.rs2]; decide +kernel⟩

theorem EncodeInRow.vstore (vs1 : VReg) (x : Addr) : EncodeInRow.Statement (.vstore vs1 x) :=
  ⟨⟨0x03, "VSTORE", .FMV, 0x03000000, 0xFFF8FFFF⟩, by decide, rfl, rfl, rfl,
    by revert vs1; simp only [encode, Instr.opcode, Instr.rd, Instr.rs1, Instr.rs2]; decide +kernel⟩

theorem EncodeInRow.vadd (vd vs1 vs2 : VReg) : EncodeInRow.Statement (.vadd vd vs1 vs2) :=
  ⟨⟨0x04, "VADD", .FVVV, 0x04000000, 0xFF888FFF⟩, by decide, rfl, rfl, rfl,
    by revert vd vs1 vs2; decide +kernel⟩

theorem EncodeInRow.vmul (vd vs1 vs2 : VReg) : EncodeInRow.Statement (.vmul vd vs1 vs2) :=
  ⟨⟨0x05, "VMUL", .FVVV, 0x05000000, 0xFF888FFF⟩, by decide, rfl, rfl, rfl,
    by revert vd vs1 vs2; decide +kernel⟩

theorem EncodeInRow.vacc (vd vs1 : VReg) : EncodeInRow.Statement (.vacc vd vs1) :=
  ⟨⟨0x06, "VACC", .FVV, 0x06000000, 0xFF88FFFF⟩, by decide, rfl, rfl, rfl,
    by revert vd vs1; decide +kernel⟩

theorem EncodeInRow.hsum (sd : SReg) (vs1 : VReg) : EncodeInRow.Statement (.hsum sd vs1) :=
  ⟨⟨0x07, "HSUM", .FSV, 0x07000000, 0xFFC8FFFF⟩, by decide, rfl, rfl, rfl,
    by revert sd vs1; decide +kernel⟩

theorem EncodeInRow.smulm (sd : SReg) (x y : Addr) : EncodeInRow.Statement (.smulm sd x y) :=
  ⟨⟨0x08, "SMULM", .FSMM, 0x08000000, 0xFFCFFFFF⟩, by decide, rfl, rfl, rfl,
    by revert sd; simp only [encode, Instr.opcode, Instr.rd, Instr.rs1, Instr.rs2]; decide +kernel⟩

theorem EncodeInRow.sadd (sd ss1 ss2 : SReg) : EncodeInRow.Statement (.sadd sd ss1 ss2) :=
  ⟨⟨0x09, "SADD", .FSSS, 0x09000000, 0xFFCCCFFF⟩, by decide, rfl, rfl, rfl,
    by revert sd ss1 ss2; decide +kernel⟩

theorem EncodeInRow.sget (ss1 : SReg) : EncodeInRow.Statement (.sget ss1) :=
  ⟨⟨0x0A, "SGET", .FS, 0x0A000000, 0xFFFCFFFF⟩, by decide, rfl, rfl, rfl,
    by revert ss1; decide +kernel⟩

theorem EncodeInRow.cvths (x : Half) : EncodeInRow.Statement (.cvths x) :=
  ⟨⟨0x0B, "CVTHS", .FX16, 0x0B000000, 0xFFFFFFFF⟩, by decide, rfl, rfl, rfl,
    by simp only [encode, Instr.opcode, Instr.rd, Instr.rs1, Instr.rs2]; decide +kernel⟩

theorem EncodeInRow.cvtsh (x : Word) : EncodeInRow.Statement (.cvtsh x) :=
  ⟨⟨0x0C, "CVTSH", .FX32, 0x0C000000, 0xFFFFFFFF⟩, by decide, rfl, rfl, rfl,
    by simp only [encode, Instr.opcode, Instr.rd, Instr.rs1, Instr.rs2]; decide +kernel⟩

theorem EncodeInRow.caps : EncodeInRow.Statement .caps :=
  ⟨⟨0x0D, "CAPS", .F0, 0x0D000000, 0xFFFFFFFF⟩, by decide, rfl, rfl, rfl, by decide +kernel⟩

end Sys2Proof.Laws
end

