-- ==== Sys2Proof/Laws/Safety.lean ====
section
/-! SUPPORT. The small lemmas of the claims' own words: the step of a conforming use, the state with
every register marked as written, and what a correct run says of its first command. -/

namespace Sys2Proof.Safety

open Sys2Proof.Machine

/-! ## The marks of 10_state.md R32 -/

@[simp] theorem allWritten_readV (s : State) (k : VReg) : (allWritten s).readV k = s.readV k := by
  simp [State.readV, allWritten]

@[simp] theorem allWritten_readS (s : State) (k : SReg) : (allWritten s).readS k = s.readS k := by
  simp [State.readS, allWritten]

@[simp] theorem allWritten_respond (s : State) (e : Bool) (d : Word) :
    (allWritten s).respond e d = allWritten (s.respond e d) := rfl

@[simp] theorem allWritten_params (s : State) : (allWritten s).params = s.params := rfl

@[simp] theorem allWritten_mem (s : State) : (allWritten s).mem = s.mem := rfl

@[simp] theorem allWritten_launch (s : State) : (allWritten s).launch = s.launch := rfl

@[simp] theorem allWritten_port (s : State) : (allWritten s).port = s.port := rfl

@[simp] theorem allWritten_responses (s : State) : (allWritten s).responses = s.responses := rfl

@[simp] theorem allWritten_writeV (s : State) (k : VReg) (l : List Word) :
    (allWritten s).writeV k l = allWritten (s.writeV k l) := by
  simp [allWritten, State.writeV]

@[simp] theorem allWritten_writeS (s : State) (k : SReg) (b : Word) :
    (allWritten s).writeS k b = allWritten (s.writeS k b) := by
  simp [allWritten, State.writeS]

/-! ## Verdicts and runs (60_exceptions.md R195) -/

theorem verdict_ok_iff {s : State} {c : Command} :
    verdict s c = .ok ↔ ∃ i, decode s.etype c = .ok i ∧ inContract s i = true := by
  unfold verdict
  cases h : decode s.etype c with
  | error e => simp
  | ok i => by_cases hi : inContract s i = true <;> simp [hi]

theorem contractStep_command {s : State} {c : Command} {rest : List HostAction}
    (h : s.port = .command c :: rest) :
    contractStep s = if verdict s c = .fault then none else contractStep.nextOf (step s) := by
  simp only [contractStep, h]

/-- A successor of a conforming use is the next state of the step. -/
theorem step_of_contractStep {s t : State} (h : contractStep s = some t) : step s = .next t := by
  have next : ∀ o : Out, contractStep.nextOf o = some t → o = .next t := by
    intro o ho
    cases o <;> first | exact congrArg _ (Option.some.inj ho) | cases ho
  unfold contractStep at h
  split at h
  · exact next _ h
  · exact next _ h
  · split at h
    · cases h
    · exact next _ h

/-- A correct run's first command is `ok`, and the rest of the run is correct from the next state. -/
theorem ranCorrectly_cons {s t : State} {c : Command} {rest : List HostAction}
    (h : ranCorrectly (.command c :: rest) s = true)
    (ht : step { s with port := .command c :: rest } = .next t) :
    verdict s c = .ok ∧ ranCorrectly rest t = true := by
  simpa [ranCorrectly, ht] using h

end Sys2Proof.Safety
end

