-- ==== Sys2Proof/Laws/Sequences.lean ====
section
/-! SUPPORT. What 48_dot_product_sequence.md says of its sequences, proved of the commands' meanings: the
command counts and shapes (R161, R166), the result in closed form (R162), the fault outside the
preconditions (R160, 93_implementation_defined.md U2), and the conversions (R167), for every variant,
every length and every content of the buffers. -/

namespace Sys2Proof.Machine

/-! ## Command counts (R161, R166) -/

theorem unrolledLoop_length (v : Variant) (a b k i : Nat) :
    (unrolledLoop v a b k i).length = 8 * k := by
  induction k generalizing i with
  | zero => rfl
  | succ k ih => simp [unrolledLoop, chainA, chainB, ih]; omega

theorem scalarTail_length (v : Variant) (a b t i : Nat) : (scalarTail v a b t i).length = 2 * t := by
  induction t generalizing i with
  | zero => rfl
  | succ t ih => simp [scalarTail, ih]; omega

/-- R161: the dot product is `2 + 8K + 1 + 4S + 1 + 2T + 1` commands. -/
theorem dotProduct_length (v : Variant) (a b n : Nat) :
    (dotProduct v a b n).length =
      2 + 8 * loopCount v n + 1 + 4 * (if singleStep v n then 1 else 0) + 1 + 2 * tailCount v n + 1 := by
  cases h : singleStep v n <;>
    simp [dotProduct, unrolledLoop_length, scalarTail_length, chainA, h] <;> omega

/-- R166: the scalar reference is `2 + 2n + 1` commands. -/
theorem dotProductNaive_length (v : Variant) (a b n : Nat) :
    (dotProductNaive v a b n).length = 2 + 2 * n + 1 := by
  simp [dotProductNaive, scalarTail_length]; omega

theorem singleStep_iff (v : Variant) (n : Nat) :
    singleStep v n = true ↔ v.size ≤ n - 2 * v.size * (n / (2 * v.size)) :=
  decide_eq_true_iff

/-- R161: the loop, the single-wide step and the tail cover the `n` elements exactly. -/
theorem tail_covers (v : Variant) (n : Nat) : tailStart v n + tailCount v n = n := by
  unfold tailStart
  split <;> rename_i h <;> rw [singleStep_iff] at h <;> revert h <;> cases v <;>
    simp only [tailCount, doubleWidth, loopCount, Variant.size] <;> omega

/-- R161: the windows of the loop and of the single-wide step lie inside the buffers. -/
theorem loop_covers (v : Variant) (n : Nat) :
    doubleWidth v * loopCount v n ≤ n ∧
      (singleStep v n = true → doubleWidth v * loopCount v n + v.size ≤ n) := by
  rw [singleStep_iff]
  cases v <;> simp only [doubleWidth, loopCount, Variant.size] <;> omega

/-! ## Running a list of commands -/

@[simp] theorem toInstr_command (i : Instr) : (HostCommand.command i).toInstr = some i := rfl

theorem runCommands_cons {c : HostCommand} {i : Instr} {cs : List HostCommand} {s t : State}
    (hc : c.toInstr = some i) (hi : exec i s = .next t) :
    runCommands (c :: cs) s = runCommands cs t := by
  simp only [runCommands, hc, hi]

theorem runCommands_append {xs ys : List HostCommand} {s t : State}
    (h : runCommands xs s = .next t) : runCommands (xs ++ ys) s = runCommands ys t := by
  induction xs generalizing s with
  | nil => simp only [runCommands, Host.Outcome.next.injEq] at h; subst h; rfl
  | cons c cs ih =>
    simp only [List.cons_append, runCommands] at h ⊢
    cases hc : c.toInstr with
    | none => simp only [hc] at h; cases h
    | some i =>
      simp only [hc] at h ⊢
      cases hi : exec i s <;> simp only [hi] at h ⊢ <;> first | exact ih h | cases h

/-- `t` is a state after `m` commands answered `resp(0, 0)` from `s`, none of them a store. -/
structure After (s t : State) (m : Nat) : Prop where
  params : t.params = s.params
  mem : t.mem = s.mem
  launch : t.launch = s.launch
  port : t.port = s.port
  responses : t.responses = s.responses ++ List.replicate m ⟨false, 0⟩

theorem After.refl (s : State) : After s s 0 := ⟨rfl, rfl, rfl, rfl, by simp⟩

theorem After.trans {s t u : State} {m n : Nat} (h : After s t m) (h' : After t u n) :
    After s u (m + n) where
  params := h'.params.trans h.params
  mem := h'.mem.trans h.mem
  launch := h'.launch.trans h.launch
  port := h'.port.trans h.port
  responses := by rw [h'.responses, h.responses, List.append_assoc, List.replicate_add]

theorem After.writeV {s t : State} {m : Nat} (h : After s t m) (k : VReg) (l : List Word) :
    After s ((t.writeV k l).respond false 0) (m + 1) where
  params := h.params
  mem := h.mem
  launch := h.launch
  port := h.port
  responses := by simp [h.responses, List.replicate_succ']

theorem After.writeS {s t : State} {m : Nat} (h : After s t m) (k : SReg) (b : Word) :
    After s ((t.writeS k b).respond false 0) (m + 1) where
  params := h.params
  mem := h.mem
  launch := h.launch
  port := h.port
  responses := by simp [h.responses, List.replicate_succ']

/-! ## What each command of the sequences answers -/

theorem execVload_window {s : State} {k : VReg} {x : Addr}
    (h : s.readableWindow x.toNat s.vbytes = true) :
    exec (.vload k x) s = .next ((s.writeV k
      ((List.range s.size).map fun i => s.elemAt (elemAddr s.params.variant x.toNat i))).respond
        false 0) := by
  simp only [exec, execVload, loadWindow_ok.mpr ⟨h, rfl⟩, orFault_ok, answered]

theorem execVadd_of {s : State} {d j k : VReg} {a b : VectorReg} (ha : s.vregs[j] = a)
    (hb : s.vregs[k] = b) :
    exec (.vadd d j k) s = .next ((s.writeV d (addLanes s.nan a.lanes b.lanes)).respond false 0) := by
  simp only [exec, execVadd, readV_of ha, readV_of hb, answered]

theorem execVmul_of {s : State} {d j k : VReg} {a b : VectorReg} (ha : s.vregs[j] = a)
    (hb : s.vregs[k] = b) :
    exec (.vmul d j k) s = .next ((s.writeV d (mulLanes s.nan a.lanes b.lanes)).respond false 0) := by
  simp only [exec, execVmul, readV_of ha, readV_of hb, answered]

theorem execVacc_of {s : State} {d k : VReg} {a b : VectorReg} (ha : s.vregs[d] = a)
    (hb : s.vregs[k] = b) :
    exec (.vacc d k) s = .next ((s.writeV d (addLanes s.nan a.lanes b.lanes)).respond false 0) := by
  simp only [exec, execVacc, readV_of ha, readV_of hb, answered]

theorem execHsum_of {s : State} {d : SReg} {k : VReg} {a : VectorReg} (ha : s.vregs[k] = a) :
    exec (.hsum d k) s = .next ((s.writeS d (hsum s.nan a.lanes)).respond false 0) := by
  simp only [exec, execHsum, readV_of ha, answered]

theorem execSmulm_elements {s : State} {d : SReg} {x y : Addr}
    (hx : s.readableWindow x.toNat s.esz = true) (hy : s.readableWindow y.toNat s.esz = true) :
    exec (.smulm d x y) s =
      .next ((s.writeS d (fmul32 s.nan (s.elemAt x.toNat) (s.elemAt y.toNat))).respond false 0) := by
  simp only [exec, execSmulm, loadElem_ok.mpr ⟨hx, rfl⟩, loadElem_ok.mpr ⟨hy, rfl⟩, orFault_ok,
    answered]

theorem execSadd_of {s : State} {d j k : SReg} {a b : ScalarReg} (ha : s.sregs[j] = a)
    (hb : s.sregs[k] = b) :
    exec (.sadd d j k) s = .next ((s.writeS d (fadd32 s.nan a.bits b.bits)).respond false 0) := by
  simp only [exec, execSadd, readS_of ha, readS_of hb, answered]

theorem execSget_of {s : State} {k : SReg} {a : ScalarReg} (ha : s.sregs[k] = a) :
    exec (.sget k) s = .next (s.respond false a.bits) := by
  simp only [exec, execSget, readS_of ha, answered]

/-! ## The buffers (R151) -/

/-- Every byte of the `n` elements at `a` is readable. -/
def State.bufferReadable (s : State) (a n : Nat) : Prop :=
  ∀ k, k < n * s.esz → s.launch.readable (a + k) = true

theorem bufferReadable_after {s t : State} {m a n : Nat} (h : After s t m)
    (hb : s.bufferReadable a n) : t.bufferReadable a n := by
  intro k hk
  rw [h.launch]
  exact hb k (by simpa [State.esz, h.params] using hk)

theorem elemAt_after {s t : State} {m : Nat} (h : After s t m) (a : Nat) : t.elemAt a = s.elemAt a := by
  simp only [State.elemAt, State.etype, State.esz, h.params, h.mem]

theorem product_after {s t : State} {m : Nat} (h : After s t m) (a b j : Nat) :
    product t a b j = product s a b j := by
  simp only [product, State.nan, h.params, elemAt_after h]

/-- An address that exists is a bus value, exactly (R160). -/
theorem busAddr_some {a : Nat} (h : a < Config.addrLimit) :
    ∃ x : Addr, busAddr a = some x ∧ x.toNat = a :=
  ⟨BitVec.ofNat Config.xlen a, if_pos h, by
    rw [BitVec.toNat_ofNat]; exact Nat.mod_eq_of_lt h⟩

/-- A bus value is the address it was made from, exactly (R160): nothing is cut. -/
theorem busAddr_exact {a : Nat} {x : Addr} (h : busAddr a = some x) : x.toNat = a := by
  unfold busAddr at h
  split at h
  · next hlt =>
    obtain rfl := Option.some.inj h
    rw [BitVec.toNat_ofNat]; exact Nat.mod_eq_of_lt hlt
  · cases h

/-- The elements `i` to `i + c - 1` of a readable buffer: their address fits the bus, and their bytes are
readable. -/
theorem buffer_elements {s : State} {a n i c : Nat} (h : s.bufferReadable a n) (hc : 0 < c)
    (hi : i + c ≤ n) :
    (∃ x : Addr, busAddr (elemAddr s.params.variant a i) = some x ∧
      x.toNat = elemAddr s.params.variant a i) ∧
      s.readableWindow (elemAddr s.params.variant a i) (c * s.esz) = true := by
  have hz : 0 < s.esz := esz_pos _
  have hle : (i + c) * s.esz ≤ n * s.esz := Nat.mul_le_mul_right _ hi
  rw [Nat.add_mul] at hle
  have hw : s.readableWindow (elemAddr s.params.variant a i) (c * s.esz) = true := by
    rw [readableWindow_iff]
    intro k hk
    have := h (i * s.esz + k) (by omega)
    simpa [elemAddr, State.esz, Nat.add_assoc] using this
  have hpos : 0 < c * s.esz := Nat.mul_pos hc hz
  exact ⟨busAddr_some (Nat.lt_of_lt_of_le (Nat.lt_add_of_pos_right hpos)
    (readableWindow_bound hw hpos)), hw⟩

/-! ## The pieces of the dot product -/

/-- Lane `l` of the products of one window pair, from element `i` on. -/
def windowProducts (s : State) (a b i : Nat) : List Word :=
  (List.range s.size).map fun l => product s a b (i + l)

theorem elemAddr_add (v : Variant) (a i l : Nat) :
    elemAddr v (elemAddr v a i) l = elemAddr v a (i + l) := by
  simp [elemAddr, Nat.add_mul, Nat.add_assoc]

/-- Four commands that add one window's products to an accumulator (R154, R156), in any three
registers. -/
theorem chain_runs {s : State} {acc p q : VReg} {a b n i : Nat} {A : List Word} (hpq : p ≠ q)
    (hap : acc ≠ p) (haq : acc ≠ q) (ha : s.bufferReadable a n) (hb : s.bufferReadable b n)
    (hi : i + s.size ≤ n) (hA : s.vregs[acc] = ⟨A, true⟩) :
    ∃ t, runCommands [.vload p (elemAddr s.params.variant a i),
        .vload q (elemAddr s.params.variant b i), .command (.vmul p p q), .command (.vacc acc p)] s =
        .next t ∧
      After s t 4 ∧ t.sregs = s.sregs ∧
      t.vregs[acc] = ⟨addLanes s.nan A (windowProducts s a b i), true⟩ ∧
      ∀ k, k ≠ acc → k ≠ p → k ≠ q → t.vregs[k] = s.vregs[k] := by
  obtain ⟨⟨x, hx, hxa⟩, hwa⟩ := buffer_elements ha (size_pos _) hi
  obtain ⟨⟨y, hy, hxb⟩, hwb⟩ := buffer_elements hb (size_pos _) hi
  let X := (List.range s.size).map fun l => s.elemAt (elemAddr s.params.variant a (i + l))
  let Y := (List.range s.size).map fun l => s.elemAt (elemAddr s.params.variant b (i + l))
  have hXY : mulLanes s.nan X Y = windowProducts s a b i := by
    simp [mulLanes, X, Y, windowProducts, List.zipWith_map, product]
  let s1 := (s.writeV p X).respond false 0
  let s2 := (s1.writeV q Y).respond false 0
  let s3 := (s2.writeV p (windowProducts s a b i)).respond false 0
  let s4 := (s3.writeV acc (addLanes s.nan A (windowProducts s a b i))).respond false 0
  have e1 : exec (.vload p x) s = .next s1 := by
    rw [execVload_window (by rw [hxa]; exact hwa), hxa]
    simp only [elemAddr_add]; rfl
  have e2 : exec (.vload q y) s1 = .next s2 := by
    rw [execVload_window (s := s1) (by rw [hxb]; exact hwb), hxb]
    simp only [show s1.params = s.params from rfl, elemAddr_add]; rfl
  have r2p : s2.vregs[p] = ⟨X, true⟩ := by
    show ((s1.writeV q Y).vregs[p]) = _
    rw [writeV_vregs_other _ _ _ hpq]; exact writeV_vregs_same s p X
  have r2q : s2.vregs[q] = ⟨Y, true⟩ := writeV_vregs_same s1 q Y
  have e3 : exec (.vmul p p q) s2 = .next s3 := by
    rw [execVmul_of r2p r2q, show s2.nan = s.nan from rfl, hXY]
  have r3p : s3.vregs[p] = ⟨windowProducts s a b i, true⟩ := writeV_vregs_same s2 p _
  have other : ∀ k, k ≠ p → k ≠ q → s3.vregs[k] = s.vregs[k] := by
    intro k h1 h2
    show (s2.writeV p _).vregs[k] = _
    rw [writeV_vregs_other _ _ _ h1]
    show (s1.writeV q _).vregs[k] = _
    rw [writeV_vregs_other _ _ _ h2]
    exact writeV_vregs_other s p _ h1
  have e4 : exec (.vacc acc p) s3 = .next s4 := by
    rw [execVacc_of ((other acc hap haq).trans hA) r3p]; rfl
  refine ⟨s4, by simp [runCommands, HostCommand.toInstr, hx, hy, e1, e2, e3, e4], ?_, rfl,
    writeV_vregs_same s3 acc _, ?_⟩
  · exact (((After.refl s).writeV p X).writeV q Y).writeV p _ |>.writeV acc _
  · intro k h0 h1 h2
    show (s3.writeV acc _).vregs[k] = _
    rw [writeV_vregs_other _ _ _ h0]; exact other k h1 h2

theorem windowProducts_after {s t : State} {m : Nat} (h : After s t m) (a b i : Nat) :
    windowProducts t a b i = windowProducts s a b i := by
  simp only [windowProducts, State.size, h.params, product_after h]

/-- The lanes of an accumulator after `k` iterations (R162). -/
def accLanes (s : State) (a b off k : Nat) : List Word :=
  (List.range s.size).map fun l => accLane s.nan (product s a b) (2 * s.size) off l k

theorem accLanes_succ (s : State) (a b off k : Nat) :
    addLanes s.nan (accLanes s a b off k) (windowProducts s a b (2 * s.size * k + off)) =
      accLanes s a b off (k + 1) := by
  simp [accLanes, windowProducts, addLanes, List.zipWith_map, accLane]

/-- Step 1 (R154): `k` iterations from iteration `j` on. -/
theorem unrolledLoop_runs {s : State} {a b n : Nat} (ha : s.bufferReadable a n)
    (hb : s.bufferReadable b n) (k j m : Nat) (t : State) (ht : After s t m)
    (hn : 2 * s.size * (j + k) ≤ n)
    (h0 : t.vregs[(0 : VReg)] = ⟨accLanes s a b 0 j, true⟩)
    (h1 : t.vregs[(1 : VReg)] = ⟨accLanes s a b s.size j, true⟩) :
    ∃ u, runCommands (unrolledLoop s.params.variant a b k (2 * s.size * j)) t = .next u ∧
      After s u (m + 8 * k) ∧
      u.vregs[(0 : VReg)] = ⟨accLanes s a b 0 (j + k), true⟩ ∧
      u.vregs[(1 : VReg)] = ⟨accLanes s a b s.size (j + k), true⟩ := by
  induction k generalizing j m t with
  | zero => exact ⟨t, rfl, ht, h0, h1⟩
  | succ k ih =>
    have hsz : t.size = s.size := by simp only [State.size, ht.params]
    have hle : 2 * s.size * (j + 1) ≤ 2 * s.size * (j + (k + 1)) :=
      Nat.mul_le_mul_left _ (by omega)
    have hexp : 2 * s.size * (j + 1) = 2 * s.size * j + 2 * s.size := by ring
    obtain ⟨t1, r1, A1, -, v0, o1⟩ := chain_runs (s := t) (acc := 0) (p := 2) (q := 3)
      (i := 2 * s.size * j) (by decide) (by decide) (by decide) (bufferReadable_after ht ha)
      (bufferReadable_after ht hb) (by omega) h0
    have ht1 : After s t1 (m + 4) := ht.trans A1
    have hsz1 : t1.size = s.size := by simp only [State.size, ht1.params]
    obtain ⟨t2, r2, A2, -, v1, o2⟩ := chain_runs (s := t1) (acc := 1) (p := 4) (q := 5)
      (i := 2 * s.size * j + s.size) (by decide) (by decide) (by decide)
      (bufferReadable_after ht1 ha) (bufferReadable_after ht1 hb) (by omega)
      ((o1 1 (by decide) (by decide) (by decide)).trans h1)
    have ht2 : After s t2 (m + 4 + 4) := ht1.trans A2
    have n0 : t.nan = s.nan := by simp only [State.nan, ht.params]
    have n1 : t1.nan = s.nan := by simp only [State.nan, ht1.params]
    have v0' : t2.vregs[(0 : VReg)] = ⟨accLanes s a b 0 (j + 1), true⟩ := by
      rw [o2 0 (by decide) (by decide) (by decide), v0, windowProducts_after ht, n0,
        ← accLanes_succ, Nat.add_zero]
    have v1' : t2.vregs[(1 : VReg)] = ⟨accLanes s a b s.size (j + 1), true⟩ := by
      rw [v1, windowProducts_after ht1, n1, ← accLanes_succ]
    obtain ⟨u, ru, Au, w0, w1⟩ := ih (j + 1) (m + 4 + 4) t2 ht2
      (by rw [show j + 1 + k = j + (k + 1) by omega]; exact hn) v0' v1'
    refine ⟨u, ?_, by rw [show m + 8 * (k + 1) = m + 4 + 4 + 8 * k by omega]; exact Au,
      by rw [w0, show j + 1 + k = j + (k + 1) by omega],
      by rw [w1, show j + 1 + k = j + (k + 1) by omega]⟩
    rw [ht.params] at r1
    rw [ht1.params] at r2
    show runCommands (chainA _ a b _ ++ chainB _ a b _ ++ unrolledLoop _ a b k _) t = _
    rw [List.append_assoc]
    refine (runCommands_append r1).trans ?_
    refine (runCommands_append r2).trans ?_
    rw [← ru, hexp]; rfl

/-- Step 5 (R158): the scalar tail of `k` elements from element `c` on; it leaves the vector registers
alone. -/
theorem scalarTail_runs {s : State} {a b n : Nat} (ha : s.bufferReadable a n)
    (hb : s.bufferReadable b n) (k c m : Nat) (t : State) (x : Word) (ht : After s t m)
    (hn : c + k ≤ n) (h0 : t.sregs[(0 : SReg)] = ⟨x, true⟩) :
    ∃ u, runCommands (scalarTail s.params.variant a b k c) t = .next u ∧ After s u (m + 2 * k) ∧
      u.vregs = t.vregs ∧
      u.sregs[(0 : SReg)] = ⟨(List.range k).foldl
        (fun acc i => fadd32 s.nan acc (product s a b (c + i))) x, true⟩ := by
  induction k generalizing c m t x with
  | zero => exact ⟨t, rfl, ht, rfl, h0⟩
  | succ k ih =>
    obtain ⟨⟨y, hy, hxa⟩, hwa⟩ := buffer_elements (i := c) (c := 1) (bufferReadable_after ht ha)
      (by omega) (by omega)
    obtain ⟨⟨z, hz, hxb⟩, hwb⟩ := buffer_elements (i := c) (c := 1) (bufferReadable_after ht hb)
      (by omega) (by omega)
    have n0 : t.nan = s.nan := by simp only [State.nan, ht.params]
    let t1 := (t.writeS 1 (product s a b c)).respond false 0
    let t2 := (t1.writeS 0 (fadd32 s.nan x (product s a b c))).respond false 0
    have e1 : exec (.smulm 1 y z) t = .next t1 := by
      rw [execSmulm_elements (by rw [hxa]; simpa using hwa) (by rw [hxb]; simpa using hwb),
        hxa, hxb, elemAt_after ht, elemAt_after ht, n0, ht.params]
      rfl
    rw [ht.params] at hy hz
    have r0 : t1.sregs[(0 : SReg)] = ⟨x, true⟩ := by
      show (t.writeS 1 _).sregs[(0 : SReg)] = _
      rw [writeS_sregs_other _ _ _ (by decide)]; exact h0
    have e2 : exec (.sadd 0 0 1) t1 = .next t2 := by
      rw [execSadd_of r0 (writeS_sregs_same t 1 (product s a b c)), show t1.nan = t.nan from rfl,
        n0]
    have A2 : After s t2 (m + 1 + 1) := (ht.writeS 1 _).writeS 0 _
    obtain ⟨u, ru, Au, vu, su⟩ := ih (c + 1) (m + 1 + 1) t2 (fadd32 s.nan x (product s a b c)) A2
      (by omega) (writeS_sregs_same t1 0 _)
    refine ⟨u, ?_, by rw [show m + 2 * (k + 1) = m + 1 + 1 + 2 * k by omega]; exact Au, vu, ?_⟩
    · simp [scalarTail, runCommands, HostCommand.toInstr, hy, hz, e1, e2, ru]
    · rw [su, List.range_succ_eq_map, List.foldl_cons, List.foldl_map]
      simp [Nat.add_assoc, Nat.add_comm 1]

theorem tailSum_eq_foldl (nan : Word) (p : Nat → Word) (x : Word) (c k : Nat) :
    tailSum nan p x c k = (List.range k).foldl (fun acc i => fadd32 nan acc (p (c + i))) x := by
  induction k with
  | zero => rfl
  | succ k ih => simp [tailSum, ih, List.range_succ]

/-- R162: under the preconditions of R151 the Generic Dot Product runs, from any state, without a fault,
and leaves the result in `s[0]`, the merged lanes in `v[0]` and accumulator B in `v[1]`; every command
but the last is answered `resp(0, 0)`, and the last `resp(0, result)`. -/
theorem dotProduct_result {s : State} {a b n : Nat} (ha : s.bufferReadable a n)
    (hb : s.bufferReadable b n) :
    ∃ t, runCommands (dotProduct s.params.variant a b n) s = .next t ∧
      t.sregs[(0 : SReg)] = ⟨dotResult s.nan (product s a b) s.params.variant n, true⟩ ∧
      t.vregs[(0 : VReg)] =
        ⟨(List.range s.size).map (mergedLane s.nan (product s a b) s.params.variant n), true⟩ ∧
      t.vregs[(1 : VReg)] = ⟨accLanes s a b s.size (loopCount s.params.variant n), true⟩ ∧
      t.mem = s.mem ∧ t.params = s.params ∧ t.launch = s.launch ∧
      t.responses = s.responses ++
        List.replicate ((dotProduct s.params.variant a b n).length - 1) ⟨false, 0⟩ ++
          [⟨false, dotResult s.nan (product s a b) s.params.variant n⟩] := by
  obtain ⟨hK, hS⟩ := loop_covers s.params.variant n
  have hT := tail_covers s.params.variant n
  set K := loopCount s.params.variant n with hKdef
  have zero_acc : ∀ off, List.replicate s.size (0 : Word) = accLanes s a b off 0 := by
    intro off; simp [accLanes, accLane]
  -- step 0
  let s1 := (s.writeV 0 (List.replicate s.size 0)).respond false 0
  let s2 := (s1.writeV 1 (List.replicate s.size 0)).respond false 0
  have A2 : After s s2 2 := ((After.refl s).writeV 0 _).writeV 1 _
  have r02 : runCommands [.command (.vzero 0), .command (.vzero 1)] s = .next s2 := rfl
  have v20 : s2.vregs[(0 : VReg)] = ⟨accLanes s a b 0 0, true⟩ := by
    show (s1.writeV 1 _).vregs[(0 : VReg)] = _
    rw [writeV_vregs_other _ _ _ (by decide), ← zero_acc]
    exact writeV_vregs_same s 0 _
  have v21 : s2.vregs[(1 : VReg)] = ⟨accLanes s a b s.size 0, true⟩ := by
    rw [← zero_acc]; exact writeV_vregs_same s1 1 _
  -- step 1
  obtain ⟨s3, r3, A3, v30, v31⟩ := unrolledLoop_runs ha hb K 0 2 s2 A2
    (by rw [Nat.zero_add]; exact hK) v20 v21
  rw [Nat.zero_add] at v30 v31
  -- step 2
  let M := addLanes s.nan (accLanes s a b 0 K) (accLanes s a b s.size K)
  let s4 := (s3.writeV 0 M).respond false 0
  have A4 : After s s4 (2 + 8 * K + 1) := A3.writeV 0 M
  have r4 : runCommands [.command (.vadd 0 0 1)] s3 = .next s4 := by
    simp only [runCommands, toInstr_command, execVadd_of v30 v31]
    simp only [State.nan, A3.params]; rfl
  have v40 : s4.vregs[(0 : VReg)] = ⟨M, true⟩ := writeV_vregs_same s3 0 M
  have v41 : s4.vregs[(1 : VReg)] = ⟨accLanes s a b s.size K, true⟩ := by
    show (s3.writeV 0 M).vregs[(1 : VReg)] = _
    rw [writeV_vregs_other _ _ _ (by decide)]; exact v31
  -- step 3
  have h5 : ∃ s5, runCommands (if singleStep s.params.variant n then
        chainA s.params.variant a b (doubleWidth s.params.variant * K) else []) s4 = .next s5 ∧
      After s s5 (2 + 8 * K + 1 + 4 * (if singleStep s.params.variant n then 1 else 0)) ∧
      s5.vregs[(0 : VReg)] =
        ⟨(List.range s.size).map (mergedLane s.nan (product s a b) s.params.variant n), true⟩ ∧
      s5.vregs[(1 : VReg)] = ⟨accLanes s a b s.size K, true⟩ := by
    have hM : M = (List.range s.size).map fun l =>
        fadd32 s.nan (accLane s.nan (product s a b) (2 * s.size) 0 l K)
          (accLane s.nan (product s a b) (2 * s.size) s.size l K) := by
      simp [M, addLanes, accLanes, List.zipWith_map]
    cases h : singleStep s.params.variant n with
    | false =>
      refine ⟨s4, rfl, A4, ?_, v41⟩
      rw [v40, hM]
      simp [mergedLane, h, doubleWidth, State.size, hKdef]
    | true =>
      obtain ⟨s5, r5, A5, -, w0, o5⟩ := chain_runs (s := s4) (acc := 0) (p := 2) (q := 3)
        (i := doubleWidth s.params.variant * K) (by decide) (by decide) (by decide)
        (bufferReadable_after A4 ha) (bufferReadable_after A4 hb)
        (by simpa [State.size, A4.params] using hS h) v40
      rw [A4.params] at r5
      refine ⟨s5, r5, A4.trans A5, ?_, (o5 1 (by decide) (by decide) (by decide)).trans v41⟩
      rw [w0, windowProducts_after A4, show s4.nan = s.nan by simp only [State.nan, A4.params], hM]
      simp [addLanes, windowProducts, List.zipWith_map, mergedLane, h, doubleWidth, State.size, hKdef]
  obtain ⟨s5, r5, A5, v50, v51⟩ := h5
  -- step 4
  let X := hsum s.nan ((List.range s.size).map (mergedLane s.nan (product s a b) s.params.variant n))
  let s6 := (s5.writeS 0 X).respond false 0
  have A6 := A5.writeS 0 X
  have r6 : runCommands [.command (.hsum 0 0)] s5 = .next s6 := by
    simp only [runCommands, toInstr_command, execHsum_of v50]
    simp only [State.nan, A5.params]; rfl
  -- step 5
  obtain ⟨s7, r7, A7, v7, x7⟩ := scalarTail_runs ha hb (tailCount s.params.variant n)
    (tailStart s.params.variant n) _ s6 X A6 (by omega) (writeS_sregs_same s5 0 X)
  rw [← tailSum_eq_foldl] at x7
  -- step 6
  have r8 : runCommands [.command (.sget 0)] s7 =
      .next (s7.respond false (dotResult s.nan (product s a b) s.params.variant n)) := by
    simp only [runCommands, toInstr_command, execSget_of x7]; rfl
  refine ⟨s7.respond false (dotResult s.nan (product s a b) s.params.variant n), ?_, x7, ?_, ?_,
    A7.mem, A7.params, A7.launch, ?_⟩
  · unfold dotProduct
    simp only [List.append_assoc]
    refine (runCommands_append r02).trans ?_
    refine (runCommands_append r3).trans ?_
    refine (runCommands_append r4).trans ?_
    refine (runCommands_append r5).trans ?_
    refine (runCommands_append r6).trans ?_
    exact (runCommands_append r7).trans r8
  · show s7.vregs[(0 : VReg)] = _
    rw [v7]; exact v50
  · show s7.vregs[(1 : VReg)] = _
    rw [v7]; exact v51
  · rw [respond_responses, A7.responses, dotProduct_length]
    congr 3

/-- R159, R162: what the caller receives is the result. -/
theorem dotProduct_returned {s : State} {a b n : Nat} (ha : s.bufferReadable a n)
    (hb : s.bufferReadable b n) :
    returned s (runCommands (dotProduct s.params.variant a b n) s) =
      some (dotResult s.nan (product s a b) s.params.variant n) := by
  obtain ⟨t, ht, -, -, -, -, -, -, hr⟩ := dotProduct_result ha hb
  simp [ht, returned, outputs, newResponses, hr, float32Output]

theorem fadd32_zeros (nan : Word) : fadd32 nan 0#32 0#32 = 0#32 := by
  have h : isNaN32 0#32 = false ∧ isInf32 0#32 = false ∧ isZero32 0#32 = true ∧
      sign32 0#32 = false ∧ pack32 false 0 0 = 0#32 := by decide
  simp [fadd32, h]

/-- The horizontal sum of a zeroed register is `+0` (R165). -/
theorem hsum_zeros (nan : Word) (n : Nat) : hsum nan (List.replicate (n + 1) 0) = 0 := by
  show (List.replicate n 0#32).foldl (fadd32 nan) 0#32 = 0#32
  induction n with
  | zero => rfl
  | succ n ih => rw [List.replicate_succ, List.foldl_cons, fadd32_zeros, ih]

/-- R166: the scalar reference runs under the same preconditions, and its result is the chain of the
products from `+0` on. -/
theorem dotProductNaive_result {s : State} {a b n : Nat} (ha : s.bufferReadable a n)
    (hb : s.bufferReadable b n) :
    ∃ t, runCommands (dotProductNaive s.params.variant a b n) s = .next t ∧
      t.sregs[(0 : SReg)] = ⟨naiveResult s.nan (product s a b) n, true⟩ ∧ t.mem = s.mem := by
  let s1 := (s.writeV 0 (List.replicate s.size 0)).respond false 0
  have A1 : After s s1 1 := (After.refl s).writeV 0 _
  let X : Word := 0
  have hX : hsum s.nan (List.replicate s.size (0 : Word)) = X := by
    rw [← Nat.succ_pred_eq_of_pos (show 0 < s.size from size_pos _)]; exact hsum_zeros _ _
  let s2 := (s1.writeS 0 X).respond false 0
  have A2 : After s s2 2 := A1.writeS 0 X
  have r2 : runCommands [.command (.vzero 0), .command (.hsum 0 0)] s = .next s2 := by
    have e1 : exec (.vzero 0) s = .next s1 := rfl
    have e2 : exec (.hsum 0 0) s1 = .next s2 := by
      have hv : s1.vregs[(0 : VReg)] = ⟨List.replicate s.size 0, true⟩ := writeV_vregs_same s 0 _
      rw [execHsum_of hv, show s1.nan = s.nan from rfl, hX]
    simp only [runCommands, toInstr_command, e1, e2]
  obtain ⟨s3, r3, A3, -, x3⟩ := scalarTail_runs ha hb n 0 2 s2 X A2 (by omega)
    (writeS_sregs_same s1 0 X)
  rw [← tailSum_eq_foldl] at x3
  refine ⟨s3.respond false (tailSum s.nan (product s a b) X 0 n), ?_, x3, A3.mem⟩
  unfold dotProductNaive
  simp only [List.append_assoc]
  refine (runCommands_append r2).trans ?_
  refine (runCommands_append r3).trans ?_
  simp only [runCommands, toInstr_command, execSget_of x3]

/-! ## Outside the preconditions (R151, 93_implementation_defined.md U2) -/

/-- The bytes a command of a sequence reads are readable. -/
def HostCommand.reads (s : State) : HostCommand → Prop
  | .command _ => True
  | .vload _ x => s.readableWindow x s.vbytes = true
  | .smulm _ x y => s.readableWindow x s.esz = true ∧ s.readableWindow y s.esz = true

/-- Not a VSTORE: the sequences store nothing. -/
def HostCommand.storesNothing : HostCommand → Prop
  | .command i => ∀ k x, i ≠ .vstore k x
  | .vload _ _ => True
  | .smulm _ _ _ => True

/-- A command that is no VSTORE has a next state in the same launch of the same instance, or is the
fault of a read. -/
theorem exec_cases {i : Instr} (s : State) (h : ∀ k x, i ≠ .vstore k x) :
    (∃ t, exec i s = .next t ∧ t.params = s.params ∧ t.launch = s.launch) ∨
      exec i s = .fault .outsideReadable := by
  cases i with
  | vstore k x => exact absurd rfl (h k x)
  | vload k x =>
    simp only [exec, execVload]
    cases hr : s.loadWindow x.toNat with
    | ok l => exact .inl ⟨_, rfl, rfl, rfl⟩
    | error f => rw [(loadWindow_error.mp hr).2]; exact .inr rfl
  | smulm k x y =>
    simp only [exec, execSmulm]
    cases hx : s.loadElem x.toNat with
    | error f => rw [(loadElem_error.mp hx).2]; exact .inr rfl
    | ok p =>
      cases hy : s.loadElem y.toNat with
      | error f => rw [(loadElem_error.mp hy).2]; exact .inr rfl
      | ok q => exact .inl ⟨_, rfl, rfl, rfl⟩
  | cvths x => left; simp only [exec, execCvths]; split <;> exact ⟨_, rfl, rfl, rfl⟩
  | cvtsh x => left; simp only [exec, execCvtsh]; split <;> exact ⟨_, rfl, rfl, rfl⟩
  | vzero k => exact .inl ⟨_, rfl, rfl, rfl⟩
  | vadd k a b => exact .inl ⟨_, rfl, rfl, rfl⟩
  | vmul k a b => exact .inl ⟨_, rfl, rfl, rfl⟩
  | vacc k a => exact .inl ⟨_, rfl, rfl, rfl⟩
  | hsum k a => exact .inl ⟨_, rfl, rfl, rfl⟩
  | sadd k a b => exact .inl ⟨_, rfl, rfl, rfl⟩
  | sget k => exact .inl ⟨_, rfl, rfl, rfl⟩
  | caps => exact .inl ⟨_, rfl, rfl, rfl⟩

/-- A command of a sequence that has a next state read readable bytes only. -/
theorem reads_of_next {c : HostCommand} {i : Instr} {s t : State} (hc : c.toInstr = some i)
    (hi : exec i s = .next t) : c.reads s := by
  cases c with
  | command j => trivial
  | vload k a =>
    simp only [HostCommand.toInstr, Option.bind_eq_bind, Option.bind_eq_some_iff] at hc
    obtain ⟨x, hx, hj⟩ := hc
    obtain rfl := Option.some.inj hj
    simp only [exec, execVload, orFault_next] at hi
    obtain ⟨l, hl, -⟩ := hi
    have := (loadWindow_ok.mp hl).1
    rwa [busAddr_exact hx] at this
  | smulm k a b =>
    simp only [HostCommand.toInstr, Option.bind_eq_bind, Option.bind_eq_some_iff] at hc
    obtain ⟨x, hx, y, hy, hj⟩ := hc
    obtain rfl := Option.some.inj hj
    simp only [exec, execSmulm, orFault_next] at hi
    obtain ⟨p, hp, q, hq, -⟩ := hi
    have h1 := (loadElem_ok.mp hp).1
    have h2 := (loadElem_ok.mp hq).1
    rw [busAddr_exact hx] at h1
    rw [busAddr_exact hy] at h2
    exact ⟨h1, h2⟩

theorem reads_congr {c : HostCommand} {s t : State} (hp : t.params = s.params)
    (hl : t.launch = s.launch) (h : c.reads t) : c.reads s := by
  cases c with
  | command => trivial
  | vload d x => simpa only [HostCommand.reads, State.readableWindow, State.vbytes, hp, hl] using h
  | smulm d x y => simpa only [HostCommand.reads, State.readableWindow, State.esz, hp, hl] using h

/-- A list of commands without a VSTORE runs to its end, and then all its reads were readable, or is the
fault of a read. -/
theorem runCommands_cases (cs : List HostCommand) (s : State) (h : ∀ c ∈ cs, c.storesNothing) :
    ((∃ t, runCommands cs s = .next t) ∧ ∀ c ∈ cs, c.reads s) ∨
      runCommands cs s = .fault .outsideReadable := by
  induction cs generalizing s with
  | nil => exact .inl ⟨⟨s, rfl⟩, by simp⟩
  | cons c cs ih =>
    cases hc : c.toInstr with
    | none => right; simp only [runCommands, hc]
    | some i =>
      have hs : ∀ k x, i ≠ .vstore k x := by
        have h0 := h c (by simp)
        cases c with
        | command j => obtain rfl := Option.some.inj hc; exact h0
        | vload k a =>
          simp only [HostCommand.toInstr, Option.bind_eq_bind, Option.bind_eq_some_iff] at hc
          obtain ⟨x, -, hj⟩ := hc
          obtain rfl := Option.some.inj hj
          simp
        | smulm k a b =>
          simp only [HostCommand.toInstr, Option.bind_eq_bind, Option.bind_eq_some_iff] at hc
          obtain ⟨x, -, y, -, hj⟩ := hc
          obtain rfl := Option.some.inj hj
          simp
      rcases exec_cases s hs with ⟨t, ht, hp, hl⟩ | hf
      · rw [runCommands_cons hc ht]
        rcases ih t (fun d hd => h d (by simp [hd])) with ⟨hn, hr⟩ | hf
        · refine .inl ⟨hn, fun d hd => ?_⟩
          rcases List.mem_cons.mp hd with rfl | hd
          · exact reads_of_next hc ht
          · exact reads_congr hp hl (hr d hd)
        · exact .inr hf
      · right; simp only [runCommands, hc, hf]

/-- A command reads element `j` of the buffers at `a` and at `b`, or of one of them. -/
def HostCommand.covers (v : Variant) (a j : Nat) : HostCommand → Prop
  | .command _ => False
  | .vload _ x => ∃ i, x = elemAddr v a i ∧ i ≤ j ∧ j < i + v.size
  | .smulm _ x y => x = elemAddr v a j ∨ y = elemAddr v a j

theorem chain_covers {v : Variant} {a b i j : Nat} (h0 : i ≤ j) (h1 : j < i + v.size) :
    (∃ c ∈ chainA v a b i, c.covers v a j) ∧ (∃ c ∈ chainA v a b i, c.covers v b j) ∧
      (∃ c ∈ chainB v a b i, c.covers v a j) ∧ ∃ c ∈ chainB v a b i, c.covers v b j := by
  refine ⟨⟨.vload 2 (elemAddr v a i), ?_, i, rfl, h0, h1⟩,
    ⟨.vload 3 (elemAddr v b i), ?_, i, rfl, h0, h1⟩,
    ⟨.vload 4 (elemAddr v a i), ?_, i, rfl, h0, h1⟩,
    ⟨.vload 5 (elemAddr v b i), ?_, i, rfl, h0, h1⟩⟩ <;> simp [chainA, chainB]

theorem unrolledLoop_covers {v : Variant} {a b k i j : Nat} (h0 : i ≤ j)
    (h1 : j < i + doubleWidth v * k) :
    (∃ c ∈ unrolledLoop v a b k i, c.covers v a j) ∧ ∃ c ∈ unrolledLoop v a b k i, c.covers v b j := by
  induction k generalizing i with
  | zero => omega
  | succ k ih =>
    rw [Nat.mul_succ] at h1
    simp only [unrolledLoop, List.mem_append]
    by_cases hA : j < i + v.size
    · obtain ⟨⟨c, hc, h⟩, ⟨d, hd, h'⟩, -⟩ := chain_covers (a := a) (b := b) h0 hA
      exact ⟨⟨c, .inl (.inl hc), h⟩, ⟨d, .inl (.inl hd), h'⟩⟩
    · by_cases hB : j < i + v.size + v.size
      · obtain ⟨-, -, ⟨c, hc, h⟩, ⟨d, hd, h'⟩⟩ :=
          chain_covers (v := v) (a := a) (b := b) (i := i + v.size) (by omega) hB
        exact ⟨⟨c, .inl (.inr hc), h⟩, ⟨d, .inl (.inr hd), h'⟩⟩
      · have hw : doubleWidth v = v.size + v.size := by simp [doubleWidth]; omega
        obtain ⟨⟨c, hc, h⟩, ⟨d, hd, h'⟩⟩ := ih (i := i + doubleWidth v) (by omega) (by omega)
        exact ⟨⟨c, .inr hc, h⟩, ⟨d, .inr hd, h'⟩⟩

theorem scalarTail_covers {v : Variant} {a b t c j : Nat} (h0 : c ≤ j) (h1 : j < c + t) :
    (∃ d ∈ scalarTail v a b t c, d.covers v a j) ∧ ∃ d ∈ scalarTail v a b t c, d.covers v b j := by
  induction t generalizing c with
  | zero => omega
  | succ t ih =>
    simp only [scalarTail, List.mem_append]
    rcases Nat.eq_or_lt_of_le h0 with rfl | hlt
    · exact ⟨⟨.smulm 1 (elemAddr v a c) (elemAddr v b c), .inl (by simp), .inl rfl⟩,
        ⟨.smulm 1 (elemAddr v a c) (elemAddr v b c), .inl (by simp), .inr rfl⟩⟩
    · obtain ⟨⟨d, hd, h⟩, ⟨e, he, h'⟩⟩ := ih (c := c + 1) (by omega) (by omega)
      exact ⟨⟨d, .inr hd, h⟩, ⟨e, .inr he, h'⟩⟩

/-- R161: every element of both buffers is read by a command of the dot product. -/
theorem dotProduct_covers {v : Variant} {a b n j : Nat} (hj : j < n) :
    (∃ c ∈ dotProduct v a b n, c.covers v a j) ∧ ∃ c ∈ dotProduct v a b n, c.covers v b j := by
  have hT := tail_covers v n
  simp only [dotProduct, List.mem_append]
  by_cases h1 : j < doubleWidth v * loopCount v n
  · obtain ⟨⟨c, hc, h⟩, ⟨d, hd, h'⟩⟩ := unrolledLoop_covers (v := v) (a := a) (b := b)
      (k := loopCount v n) (i := 0) (Nat.zero_le j) (by omega)
    exact ⟨⟨c, by simp [hc], h⟩, ⟨d, by simp [hd], h'⟩⟩
  · by_cases h2 : j < tailStart v n
    · have hs : singleStep v n = true := by
        by_contra hne
        simp only [tailStart, hne, if_false] at h2
        omega
      obtain ⟨⟨c, hc, h⟩, ⟨d, hd, h'⟩, -⟩ := chain_covers (v := v) (a := a) (b := b)
        (i := doubleWidth v * loopCount v n) (j := j) (by omega)
        (by simpa only [tailStart, hs, if_true] using h2)
      exact ⟨⟨c, by simp [hs, hc], h⟩, ⟨d, by simp [hs, hd], h'⟩⟩
    · obtain ⟨⟨c, hc, h⟩, ⟨d, hd, h'⟩⟩ := scalarTail_covers (v := v) (a := a) (b := b)
        (t := tailCount v n) (c := tailStart v n) (j := j) (by omega) (by omega)
      exact ⟨⟨c, by simp [hc], h⟩, ⟨d, by simp [hd], h'⟩⟩

theorem unrolledLoop_storesNothing (v : Variant) (a b k i : Nat) :
    ∀ c ∈ unrolledLoop v a b k i, c.storesNothing := by
  induction k generalizing i with
  | zero => simp [unrolledLoop]
  | succ k ih =>
    simp only [unrolledLoop, List.mem_append]
    rintro c ((hc | hc) | hc)
    · simp only [chainA, List.mem_cons, List.not_mem_nil, or_false] at hc
      rcases hc with rfl | rfl | rfl | rfl <;> simp [HostCommand.storesNothing]
    · simp only [chainB, List.mem_cons, List.not_mem_nil, or_false] at hc
      rcases hc with rfl | rfl | rfl | rfl <;> simp [HostCommand.storesNothing]
    · exact ih _ c hc

theorem scalarTail_storesNothing (v : Variant) (a b t c : Nat) :
    ∀ d ∈ scalarTail v a b t c, d.storesNothing := by
  induction t generalizing c with
  | zero => simp [scalarTail]
  | succ t ih =>
    simp only [scalarTail, List.mem_append, List.mem_cons, List.not_mem_nil, or_false]
    rintro d ((rfl | rfl) | hd)
    · simp [HostCommand.storesNothing]
    · simp [HostCommand.storesNothing]
    · exact ih _ d hd

theorem dotProduct_storesNothing (v : Variant) (a b n : Nat) :
    ∀ c ∈ dotProduct v a b n, c.storesNothing := by
  have hs : ∀ c ∈ (if singleStep v n then chainA v a b (doubleWidth v * loopCount v n) else []),
      c.storesNothing := by
    split <;> simp [chainA, HostCommand.storesNothing]
  intro c hc
  simp only [dotProduct, List.mem_append, List.mem_cons, List.not_mem_nil, or_false] at hc
  rcases hc with (((((h | h) | h) | h) | h) | h) | h
  · rcases h with rfl | rfl <;> simp [HostCommand.storesNothing]
  · exact unrolledLoop_storesNothing v a b _ _ c h
  · subst h; simp [HostCommand.storesNothing]
  · exact hs c h
  · subst h; simp [HostCommand.storesNothing]
  · exact scalarTail_storesNothing v a b _ _ c h
  · subst h; simp [HostCommand.storesNothing]

/-- The bytes of an element that a command covers are readable where the command's reads are. -/
theorem element_readable {s : State} {c : HostCommand} {a j k : Nat} (hk : k < s.esz)
    (hr : c.reads s) (hc : c.covers s.params.variant a j) :
    s.launch.readable (elemAddr s.params.variant a j + k) = true := by
  cases c with
  | command i => exact hc.elim
  | vload d x =>
    obtain ⟨i, rfl, h0, h1⟩ := hc
    have hle : (j - i + 1) * s.esz ≤ s.params.variant.size * s.esz :=
      Nat.mul_le_mul_right _ (by omega)
    rw [Nat.add_mul] at hle
    have := readableWindow_iff.mp hr ((j - i) * s.esz + k)
      (by rw [show s.vbytes = s.params.variant.size * s.esz from rfl]; omega)
    have he : elemAddr s.params.variant a i + ((j - i) * s.esz + k) =
        elemAddr s.params.variant a j + k := by
      have : i * s.esz + (j - i) * s.esz = j * s.esz := by
        rw [← Nat.add_mul, Nat.add_sub_cancel' h0]
      simp only [elemAddr, show s.params.variant.esz = s.esz from rfl]
      omega
    rwa [he] at this
  | smulm d x y =>
    rcases hc with rfl | rfl
    · exact readableWindow_iff.mp hr.1 k hk
    · exact readableWindow_iff.mp hr.2 k hk

/-- 93_implementation_defined.md U2: where a byte of the `n` elements of a buffer is not readable, or
does not exist, the dot product is a fault. -/
theorem dotProduct_faults {s : State} {a b n : Nat}
    (h : ¬(s.bufferReadable a n ∧ s.bufferReadable b n)) :
    runCommands (dotProduct s.params.variant a b n) s = .fault .outsideReadable := by
  refine (runCommands_cases _ s (dotProduct_storesNothing _ a b n)).resolve_left fun hn => h ?_
  have hz : 0 < s.esz := esz_pos _
  have split : ∀ p k, k < n * s.esz → ∃ j i, j < n ∧ i < s.esz ∧
      p + k = elemAddr s.params.variant p j + i := by
    intro p k hk
    refine ⟨k / s.esz, k % s.esz, Nat.div_lt_of_lt_mul (by rwa [Nat.mul_comm]), Nat.mod_lt _ hz, ?_⟩
    have := Nat.div_add_mod k s.esz
    rw [Nat.mul_comm] at this
    simp only [elemAddr, show s.params.variant.esz = s.esz from rfl]
    omega
  constructor
  · intro k hk
    obtain ⟨j, i, hj, hi, he⟩ := split a k hk
    obtain ⟨⟨c, hc, hcov⟩, -⟩ := dotProduct_covers (v := s.params.variant) (a := a) (b := b) hj
    rw [he]
    exact element_readable hi (hn.2 c hc) hcov
  · intro k hk
    obtain ⟨j, i, hj, hi, he⟩ := split b k hk
    obtain ⟨-, c, hc, hcov⟩ := dotProduct_covers (v := s.params.variant) (a := a) (b := b) hj
    rw [he]
    exact element_readable hi (hn.2 c hc) hcov

/-! ## The conversions (R167) -/

/-- A list of commands that are each answered with data on an H8 instance delivers those responses, in
order, and nothing else changes. -/
theorem runCommands_map {α : Type} (f : α → Instr) (d : α → Word)
    (h : ∀ x (t : State), t.etype = .f16 → exec (f x) t = .next (t.respond false (d x)))
    (xs : List α) (s : State) (hs : s.etype = .f16) :
    runCommands (xs.map fun x => .command (f x)) s =
      .next { s with responses := s.responses ++ xs.map fun x => ⟨false, d x⟩ } := by
  induction xs generalizing s with
  | nil => simp [runCommands]
  | cons x xs ih =>
    rw [List.map_cons, runCommands_cons (toInstr_command _) (h x s hs), ih (s.respond false (d x)) hs]
    simp [State.respond]

theorem convertToFloat32_runs (hs : List Half) (s : State) (h : s.etype = .f16) :
    runCommands (convertToFloat32 hs) s =
      .next { s with responses := s.responses ++ hs.map fun x => ⟨false, h2f x⟩ } :=
  runCommands_map (fun x => .cvths x) h2f (fun _ _ ht => if_pos ht) hs s h

theorem convertToCompact16_runs (fs : List Word) (s : State) (h : s.etype = .f16) :
    runCommands (convertToCompact16 fs) s =
      .next { s with responses := s.responses ++ fs.map fun x => ⟨false, (f2h x).setWidth 32⟩ } :=
  runCommands_map (fun x => .cvtsh x) (fun x => (f2h x).setWidth 32) (fun _ _ ht => if_pos ht) fs s h

/-- R167: on an H8 instance the inverse of the bulk conversion applies `h2f` element by element,
preserving order and length. -/
theorem convertCompact16Seq_result (s : State) (hs : List Half) (h : s.etype = .f16) :
    convertCompact16SeqToFloat32Seq s hs = some (hs.map h2f) := by
  simp [convertCompact16SeqToFloat32Seq, convertToFloat32_runs hs s h, outputs, newResponses,
    float32Output, Function.comp_def]

/-- R167: on an H8 instance the bulk conversion applies `f2h` element by element, preserving order and
length. -/
theorem convertFloat32Seq_result (s : State) (fs : List Word) (h : s.etype = .f16) :
    convertFloat32SeqToCompact16Seq s fs = some (fs.map f2h) := by
  have e : ∀ x : Half, compact16Output (x.setWidth 32) = x := by
    intro x
    apply BitVec.eq_of_toNat_eq
    have := x.isLt
    simp only [compact16Output, BitVec.extractLsb'_toNat, BitVec.toNat_setWidth, Nat.shiftRight_zero]
    omega
  simp [convertFloat32SeqToCompact16Seq, convertToCompact16_runs fs s h, outputs, newResponses, e,
    Function.comp_def]

end Sys2Proof.Machine
end

