-- ==== Sys2Proof/Tests/Slice0.lean ====
section
/-! SUPPORT. Tests. Expected values are the spec's: the words of 30_encoding.md R65, the examples of the
command rules (R110 to R142) and the vectors of 95_test_vectors.md, named in each docstring. Part 4 has
one witness for each obligation with hypotheses. -/

namespace Sys2Proof.Tests

-- One theorem at a time: the tests' kernel evaluations, all begun at once, would each hold a thread's
-- stack.
set_option Elab.async false

open Sys2Proof Sys2Proof.Machine Sys2Proof.Safety

/-! ## Small states -/

/-- An instance of a variant with no register written. -/
def base (v : Variant) (m : Memory) (rs : List Region) : State :=
  { State.reset with
    params := ⟨v, Config.nanDefault⟩
    vregs := Vector.replicate 8 (VectorReg.unwritten v.size)
    mem := m
    launch := ⟨rs⟩ }

/-- Memory holding these bytes from an address on. -/
def bytesAt (a : Nat) : List Byte → Memory
  | [] => []
  | b :: bs => (bytesAt (a + 1) bs).write a b

/-- Memory holding these 32-bit words from an address on, little-endian. -/
def wordsAt (a : Nat) (ws : List Nat) : Memory :=
  bytesAt a (ws.flatMap fun w =>
    [BitVec.ofNat 8 w, BitVec.ofNat 8 (w / 256), BitVec.ofNat 8 (w / 65536), BitVec.ofNat 8 (w / 16777216)])

/-- Sixteen bytes at 0x1000 (the values 1, 2, 3, 4) readable, sixteen at 0x2002 writable. -/
def w4 : State :=
  base .w4 (wordsAt 0x1000 [0x3F800000, 0x40000000, 0x40400000, 0x40800000])
    [⟨0x1000, 16, .readOnly⟩, ⟨0x2002, 16, .readWrite⟩]

/-- `w4` with `v[0] = [1, 2, 3, 4]`, `v[1] = [0.5, -2, 2^24, -4]` and `s[0] = 105`, `s[1] = 7.5`. -/
def w4regs : State :=
  (((w4.writeV 0 [0x3F800000, 0x40000000, 0x40400000, 0x40800000]).writeV 1
    [0x3F000000, 0xC0000000, 0x4B800000, 0xC0800000]).writeS 0 0x42D20000).writeS 1 0x40F00000

/-- The H8 instance of the VLOAD example of 41_vector_memory.md R111, its window also writable. -/
def h8 : State :=
  base .h8 (bytesAt 0x3000 [0x00, 0x3C, 0x00, 0x38, 0x00, 0x34, 0x00, 0xC0, 0x01, 0x00, 0xFF, 0x7B,
    0x00, 0x7C, 0x00, 0x80]) [⟨0x3000, 16, .readWrite⟩]

/-- `h8` with `v[0] = [1 + 2^-11, 131008, 2^-25, -0, 9.863525390625, 2^-15, -inf, 65520]`. -/
def h8regs : State :=
  h8.writeV 0 [0x3F801000, 0x47FFE000, 0x33000000, 0x80000000, 0x411DD100, 0x38000000, 0xFF800000,
    0x477FF000]

/-- A W8 instance with no memory and one register written. -/
def w8 : State := (base .w8 [] []).writeV 0 (List.replicate 8 0x3DCCCCCD)

/-- The lanes of a register after a step. -/
def lanesOf (o : Out) (k : VReg) : List Word :=
  match o with
  | .next t => t.vregs[k].lanes
  | .fault _ => []
  | .refused _ => []

/-- The bits of a scalar register after a step, if it is written. -/
def bitsOf (o : Out) (k : SReg) : Option Word :=
  match o with
  | .next t => if t.sregs[k].written then some t.sregs[k].bits else none
  | .fault _ => none
  | .refused _ => none

/-- The responses after a step. -/
def responsesOf (o : Out) : List Response :=
  match o with
  | .next t => t.responses
  | .fault _ => []
  | .refused _ => []

/-- The bytes of memory after a step. -/
def bytesOf (o : Out) (a n : Nat) : List Byte :=
  match o with
  | .next t => (List.range n).map fun k => t.mem.read (a + k)
  | .fault _ => []
  | .refused _ => []

/-- The step stopped at this fault. -/
def faultsWith (o : Out) (f : Fault) : Bool :=
  match o with
  | .next _ => false
  | .fault g => f == g
  | .refused _ => false

/-- The step has a next state. -/
def completes (o : Out) : Bool :=
  match o with
  | .next _ => true
  | .fault _ => false
  | .refused _ => false

/-- The state after a step, or the state before it. -/
def after (o : Out) (s : State) : State :=
  match o with
  | .next t => t
  | .fault _ => s
  | .refused _ => s

/-- A word's command, both buses at 0. -/
def wordOnly (w : Word) : Command := ⟨w, 0, 0⟩

/-! ## Part 1. Syntax, well-formedness, decoding and encoding -/

/-- 44_convert_caps.md R143: without a converter the two conversions are no commands. -/
theorem test_wellFormed_refuses_conversions :
    wellFormed .f32 (.cvths 0x3C00) = false ∧ wellFormed .f32 (.cvtsh 0x3F800000) = false ∧
      wellFormed .f16 (.cvths 0x3C00) = true := by decide

/-- 00_scope.md R7: (4, F16) does not exist. -/
theorem test_variant_four_half_refused :
    Variant.build 4 .f16 = none ∧ Variant.build 16 .f32 = none ∧
      Variant.build 8 .f16 = some .h8 := by decide

/-- Every constructor's word, written bit by bit from 30_encoding.md R61 and R65: `op`, `rd`, `rs1`,
`rs2`, twelve zero bits. -/
theorem test_decode_vzero :
    decode .f32 (wordOnly 0b00000001_0101_0000_0000_000000000000) = .ok (.vzero 5) := by decide

theorem test_decode_vload :
    decode .f32 ⟨0b00000010_0110_0000_0000_000000000000, 0x1001, 0xFF⟩ =
      .ok (.vload 6 0x1001) := by decide

theorem test_decode_vstore :
    decode .f32 ⟨0b00000011_0000_0011_0000_000000000000, 0x7002, 0⟩ =
      .ok (.vstore 3 0x7002) := by decide

theorem test_decode_vadd :
    decode .f32 (wordOnly 0b00000100_0001_0010_0100_000000000000) = .ok (.vadd 1 2 4) := by decide

theorem test_decode_vmul :
    decode .f32 (wordOnly 0b00000101_0110_0101_0011_000000000000) = .ok (.vmul 6 5 3) := by decide

/-- 95_test_vectors.md 2.7: `0x06140000` is `VACC v1, v4`. -/
theorem test_decode_vacc :
    decode .f32 (wordOnly 0b00000110_0001_0100_0000_000000000000) = .ok (.vacc 1 4) := by decide

theorem test_decode_hsum :
    decode .f32 (wordOnly 0b00000111_0011_0111_0000_000000000000) = .ok (.hsum 3 7) := by decide

theorem test_decode_smulm :
    decode .f32 ⟨0b00001000_0010_0000_0000_000000000000, 0x12D, 0xFFFFFFFFFFFFFFFF⟩ =
      .ok (.smulm 2 0x12D 0xFFFFFFFFFFFFFFFF) := by decide

theorem test_decode_sadd :
    decode .f32 (wordOnly 0b00001001_0011_0010_0001_000000000000) = .ok (.sadd 3 2 1) := by decide

theorem test_decode_sget :
    decode .f32 (wordOnly 0b00001010_0000_0011_0000_000000000000) = .ok (.sget 3) := by decide

/-- 95_test_vectors.md 2.6: the bus bits above the operand are ignored. -/
theorem test_decode_cvths :
    decode .f16 ⟨0b00001011_0000_0000_0000_000000000000, 0xFFFFFFFFFFFF3C01, 0⟩ =
      .ok (.cvths 0x3C01) := by decide

theorem test_decode_cvtsh :
    decode .f16 ⟨0b00001100_0000_0000_0000_000000000000, 0x123456783F800000, 0⟩ =
      .ok (.cvtsh 0x3F800000) := by decide

theorem test_decode_caps :
    decode .f32 (wordOnly 0b00001101_0000_0000_0000_000000000000) = .ok .caps := by decide

/-- 95_test_vectors.md 2.7, the rows that are illegal on every instance. -/
theorem test_illegal_words :
    ([0x00000000, 0xFFFFFFFF, 0x0E000000, 0x0F000000, 0x80000000, 0x01800000, 0x01000001, 0x01000800,
      0x01010000, 0x01001000, 0x02010000, 0x02800000, 0x03100000, 0x03080000, 0x04801000, 0x04080000,
      0x04008000, 0x05000100, 0x06001000, 0x06800000, 0x07400000, 0x07080000, 0x07001000, 0x08400000,
      0x08010000, 0x09004000, 0x09400000, 0x09040000, 0x0A100000, 0x0A040000, 0x0A001000, 0x0B100000,
      0x0C000001, 0x0D100000, 0x0D000001] : List Word).all
        (fun w => !legalWord .f32 w && !legalWord .f16 w) = true := by decide +kernel

/-- 95_test_vectors.md 2.7, the rows that are legal, E41 and E43 on H8 only. -/
theorem test_legal_words :
    ([0x01700000, 0x03070000, 0x04777000, 0x05777000, 0x06770000, 0x07370000, 0x08300000, 0x09333000,
      0x0A030000, 0x0D000000] : List Word).all (fun w => legalWord .f32 w && legalWord .f16 w) = true ∧
    ([0x0B000000, 0x0C000000] : List Word).all (fun w => !legalWord .f32 w && legalWord .f16 w) =
      true := by decide +kernel

/-- 95_test_vectors.md 2.7, "Encode and decode round trip". -/
theorem test_encode :
    encode (.vadd 2 0 1) = wordOnly 0x04201000 ∧ encode (.sadd 3 2 2) = wordOnly 0x09322000 ∧
      encode (.vstore 7 0x2000) = ⟨0x03070000, 0x2000, 0⟩ ∧
      encode (.smulm 1 0x1038 0x2038) = ⟨0x08100000, 0x1038, 0x2038⟩ ∧
      encode (.cvtsh 0x3F800000) = ⟨0x0C000000, 0x3F800000, 0⟩ := by decide

/-- The opcode map's rows have their patterns inside their masks and overlap nowhere
(30_encoding.md R65). -/
theorem test_opcodeMap_rows_apart :
    (opcodeMap.all fun r => r.pattern &&& r.mask == r.pattern) = true ∧
      (opcodeMap.Pairwise fun r q => r.pattern &&& q.mask ≠ q.pattern) := by decide +kernel

/-- The numbering of `decodeTableWord` (log 14): the word in bits 31:0, then bus `x`. -/
theorem test_decodeTableWord :
    decodeTableWord 32 0x04201000 = some (.vadd 2 0 1) ∧
      decodeTableWord 160 0x1000_02200000 = some (.vload 2 0x1000) ∧
      decodeTableWord 32 0x1000_02200000 = some (.vload 2 0) ∧
      decodeTableWord 32 0x0E000000 = none := by decide +kernel

/-- 30_encoding.md R70 writes a load so. -/
theorem test_assembly :
    (Instr.vload 2 0x1000).assembly = "VLOAD v2, (0x1000)" ∧
      (Instr.vadd 0 0 1).assembly = "VADD v0, v0, v1" ∧ Instr.caps.assembly = "CAPS" := by
  decide +kernel

/-! ## Part 2. The commands, one step each -/

/-- 41_vector_memory.md R110, example. -/
theorem test_vzero :
    lanesOf (exec (.vzero 1) w4) 1 = [0x00000000, 0x00000000, 0x00000000, 0x00000000] ∧
      responsesOf (exec (.vzero 1) w4) = [⟨false, 0⟩] := by decide +kernel

/-- 41_vector_memory.md R111, the W4 example. -/
theorem test_vload_w4 :
    lanesOf (exec (.vload 2 0x1000) w4) 2 = [0x3F800000, 0x40000000, 0x40400000, 0x40800000] ∧
      faultsWith (exec (.vload 2 0x1001) w4) .outsideReadable = true := by decide +kernel

/-- 41_vector_memory.md R111, the H8 example. -/
theorem test_vload_h8 :
    lanesOf (exec (.vload 0 0x3000) h8) 0 = [0x3F800000, 0x3F000000, 0x3E800000, 0xC0000000,
      0x33800000, 0x477FE000, 0x7F800000, 0x80000000] := by decide +kernel

/-- 41_vector_memory.md R112, the W4 example: an unaligned store. -/
theorem test_vstore_w4 :
    bytesOf (exec (.vstore 0 0x2002) w4regs) 0x2000 20 = [0x00, 0x00, 0x00, 0x00, 0x80, 0x3F, 0x00,
      0x00, 0x00, 0x40, 0x00, 0x00, 0x40, 0x40, 0x00, 0x00, 0x80, 0x40, 0x00, 0x00] ∧
      faultsWith (exec (.vstore 0 0x1000) w4regs) .outsideWritable = true := by decide +kernel

/-- 41_vector_memory.md R112 and program P5: rounding on a store of H8. -/
theorem test_vstore_h8 :
    bytesOf (exec (.vstore 0 0x3000) h8regs) 0x3000 16 = [0x00, 0x3C, 0x00, 0x7C, 0x00, 0x00, 0x00,
      0x80, 0xEF, 0x48, 0x00, 0x02, 0x00, 0xFC, 0x00, 0x7C] := by decide +kernel

/-- 42_vector_arith.md R120, example. -/
theorem test_vadd :
    lanesOf (exec (.vadd 2 0 1) w4regs) 2 = [0x3FC00000, 0x00000000, 0x4B800002, 0x00000000] := by
  decide +kernel

/-- All three fields the same register: every lane doubles (42_vector_arith.md R120, R123). -/
theorem test_vadd_same_register :
    lanesOf (exec (.vadd 0 0 0) w4regs) 0 = [0x40000000, 0x40800000, 0x40C00000, 0x41000000] := by
  decide +kernel

/-- Program P4, command 6: the destination is a source too. -/
theorem test_vmul :
    lanesOf (exec (.vmul 1 0 1) w4regs) 1 = [0x3F000000, 0xC0800000, 0x4C400000, 0xC1800000] := by
  decide +kernel

/-- Run K: `inf * 0`, `max * 2^-149`, `-0` times a NaN (K6). -/
theorem test_vmul_special :
    mulLanes Config.nanDefault [0x3F800000, 0x7F800000, 0x7F7FFFFF, 0x80000000]
      [0x40400000, 0x00000000, 0x00000001, 0x7FA00001] =
      [0x40400000, 0x7FC00000, 0x34FFFFFF, 0x7FC00000] := by decide +kernel

/-- 42_vector_arith.md R122: the accumulator is read and written; the addend stays. -/
theorem test_vacc :
    lanesOf (exec (.vacc 1 0) w4regs) 1 = [0x3FC00000, 0x00000000, 0x4B800002, 0x00000000] ∧
      lanesOf (exec (.vacc 1 0) w4regs) 0 = [0x3F800000, 0x40000000, 0x40400000, 0x40800000] := by
  decide +kernel

/-- Vectors HS1, HS8 and HS14: the order of the chain. -/
theorem test_hsum_order :
    hsum Config.nanDefault [0x4B800000, 0x3F800000, 0x3F800000, 0xCB800000] = 0x00000000 ∧
      bitsOf (exec (.hsum 3 0) w4regs) 3 = some 0x41200000 ∧
      bitsOf (exec (.hsum 0 0) w8) 0 = some 0x3F4CCCCE := by decide +kernel

/-- H8: `1 * -2`, and odd addresses as in run Q, Q6: the elements there are `0x003C` (bytes `3C 00`) and
`0x0038` (bytes `38 00`), so the product is `60 * 56 * 2^-48`. -/
theorem test_smulm_h8 :
    bitsOf (exec (.smulm 1 0x3000 0x3006) h8) 1 = some 0xC0000000 ∧
      bitsOf (exec (.smulm 1 0x3001 0x3003) h8) 1 = some 0x2D520000 ∧
      faultsWith (exec (.smulm 1 0x3000 0x300F) h8) .outsideReadable = true := by decide +kernel

/-- On F32 the elements are whole words: 2 times 3 (vector M2). -/
theorem test_smulm_w4 : bitsOf (exec (.smulm 2 0x1004 0x1008) w4) 2 = some 0x40C00000 := by
  decide +kernel

/-- 43_reduce_scalar.md R132, example. -/
theorem test_sadd :
    bitsOf (exec (.sadd 0 0 1) w4regs) 0 = some 0x42E10000 ∧
      bitsOf (exec (.sadd 2 1 1) w4regs) 2 = some 0x41700000 := by decide +kernel

/-- 43_reduce_scalar.md R133. -/
theorem test_sget :
    responsesOf (exec (.sget 1) w4regs) = [⟨false, 0x40F00000⟩] := by decide +kernel

/-- 60_exceptions.md R183 and program P9 (d): the unit reads an unwritten scalar as the bits it holds,
without an error, and the use breaks the contract. -/
theorem test_unwritten_read :
    (let held : State := { w4 with sregs := w4.sregs.set 2 ⟨0xDEADBEEF, false⟩ }
     responsesOf (exec (.sget 2) held) = [⟨false, 0xDEADBEEF⟩] ∧
       verdict held (wordOnly 0x0A020000) = .fault ∧
       contractStep (held.present (wordOnly 0x0A020000)) = none) := by decide +kernel

/-- 44_convert_caps.md R140, examples. -/
theorem test_cvths :
    responsesOf (exec (.cvths 0x3800) h8) = [⟨false, 0x3F000000⟩] ∧
      responsesOf (exec (.cvths 0x0001) h8) = [⟨false, 0x33800000⟩] ∧ h2f 0xFC00 = 0xFF800000 := by
  decide +kernel

/-- 44_convert_caps.md R141, examples. -/
theorem test_cvtsh :
    responsesOf (exec (.cvtsh 0x3DCCCCCD) h8) = [⟨false, 0x00002E66⟩] ∧
      responsesOf (exec (.cvtsh 0x47800000) h8) = [⟨false, 0x00007C00⟩] := by decide +kernel

/-- 44_convert_caps.md R142. -/
theorem test_caps :
    responsesOf (exec .caps w4) = [⟨false, 0x01000004⟩] ∧
      responsesOf (exec .caps w8) = [⟨false, 0x01000008⟩] ∧
      responsesOf (exec .caps h8) = [⟨false, 0x01000108⟩] := by decide +kernel

/-- Vectors A6, A8, A10, A11, A16, A20 and A22. -/
theorem test_fadd32 :
    fadd32 0x7FC00000 0x3F800000 0x33800000 = 0x3F800000 ∧
      fadd32 0x7FC00000 0x3F800001 0x33800000 = 0x3F800002 ∧
      fadd32 0x7FC00000 0x7F7FFFFF 0x73000000 = 0x7F800000 ∧
      fadd32 0x7FC00000 0x7F7FFFFF 0x72FFFFFF = 0x7F7FFFFF ∧
      fadd32 0x7FC00000 0x7F800001 0x3F800000 = 0x7FC00000 ∧
      fadd32 0x7FC00000 0x00800000 0x807FFFFF = 0x00000001 ∧
      fadd32 0x7FC00000 0x4B800000 0x40400000 = 0x4B800002 := by decide +kernel

/-- Vectors M4, M10, M12, M14, M15 and M24. -/
theorem test_fmul32 :
    fmul32 0x7FC00000 0x00000000 0xC0A00000 = 0x80000000 ∧
      fmul32 0x7FC00000 0x7F7FFFFF 0x3F800001 = 0x7F800000 ∧
      fmul32 0x7FC00000 0x00000001 0x3F000000 = 0x00000000 ∧
      fmul32 0x7FC00000 0x00000003 0x3F000000 = 0x00000002 ∧
      fmul32 0x7FC00000 0x00000001 0x3F400000 = 0x00000001 ∧
      fmul32 0x7FC00000 0x1F800000 0x1F800000 = 0x00200000 := by decide +kernel

/-- Vectors HF18, HF19, HF25 and HF26. -/
theorem test_h2f :
    h2f 0x03FF = 0x387FC000 ∧ h2f 0x0400 = 0x38800000 ∧ h2f 0x7C01 = 0x7FC02000 ∧
      h2f 0xFD55 = 0xFFEAA000 := by decide +kernel

/-- Vectors G39, G41, G42 and G44. -/
theorem test_f2h :
    f2h 0x40490FDB = 0x4248 ∧ f2h 0x7F800001 = 0x7E00 ∧ f2h 0xFFC12000 = 0xFE09 ∧
      f2h 0x7FFFFFFF = 0x7FFF := by decide +kernel

/-! ## Part 3. The step, the ports, memory and reset -/

/-- Program P4, commands 4 and 5: an illegal word is answered `(1, 0)`. -/
theorem test_step_illegal :
    responsesOf (step (w4.present (wordOnly 0x04801000))) = [⟨true, 0⟩] ∧
      responsesOf (step (w4.present ⟨0x0B000000, 0x3C00, 0⟩)) = [⟨true, 0⟩] := by decide +kernel

/-- The step after `withFetchWord` runs the transaction, from `State.reset` as well. -/
theorem test_withFetchWord :
    responsesOf (step (State.reset.withFetchWord 32 0x0D000000)) = [⟨false, 0x01000108⟩] ∧
      lanesOf (step (w4.withFetchWord 160 0x1000_02200000)) 2 =
        [0x3F800000, 0x40000000, 0x40400000, 0x40800000] := by decide +kernel

/-- A reset between commands makes written registers unwritten (10_state.md R32). -/
theorem test_reset_between_commands :
    ((after (step { w4regs with port := [.reset] }) w4regs).vregs.toList.any fun r => r.written) =
      false := by decide +kernel

/-- 95_test_vectors.md MW8 and MW9: the top of the address space. -/
theorem test_top_of_memory :
    completes (exec (.vload 0 0xFFFFFFFFFFFFFFF0)
      (base .w4 [] [⟨0xFFFFFFFFFFFFFFF0, 16, .readOnly⟩])) = true ∧
    faultsWith (exec (.vload 0 0xFFFFFFFFFFFFFFF8)
      (base .w4 [] [⟨0xFFFFFFFFFFFFFFF0, 32, .readOnly⟩])) .outsideReadable = true := by
  decide +kernel

/-- The canonical form: bytes written out of order are listed in order, and a byte that reads as an
unlisted one is not listed. -/
theorem test_memory_canonical :
    ((Memory.write (Memory.write [] 9 0x55) 4 0xAA).write 9 0x00) = [(4, 0xAA)] ∧
      State.reset.mem.wf = true ∧ w4.mem.wf = true ∧
      (w4.mem.readLE 0x1004 4) = 0x40000000 := by decide +kernel

/-- 48_dot_product_sequence.md R161: program P1 has 23 commands, P2 has 11, and the scalar reference of
three elements has 9. -/
theorem test_sequence_lengths :
    (dotProductW4 0x1000 0x2000 15).length = 23 ∧ (dotProductHalfW8 0x3001 0x4000 9).length = 11 ∧
      (dotProductNaive .w8 0x1000 0x2000 3).length = 9 ∧ (dotProductW8 0 0 0).length = 5 := by
  decide +kernel

/-- 48_dot_product_sequence.md R160, 93_implementation_defined.md U2: addresses are exact. The fifth
element of a buffer that begins 16 bytes below the top does not exist, so its SMULM is a fault and not a
read of address 0; the one before it is read. -/
theorem test_addresses_exact :
    (let top := base .w4 [] [⟨0, 2 ^ 64, .readOnly⟩]
     faultsWith (runCommands (scalarTail .w4 (2 ^ 64 - 16) 0 1 4) top) .outsideReadable = true ∧
       completes (runCommands (scalarTail .w4 (2 ^ 64 - 16) 0 1 3) top) = true) ∧
      busAddr (2 ^ 64) = none := by decide +kernel

/-- 95_test_vectors.md S6: zero converts to zero both ways, and a sequence of representable values comes
back, its order and length kept (48_dot_product_sequence.md R167). -/
theorem test_conversions :
    float32ToCompact16 h8 0x00000000 = some 0x0000 ∧ compact16ToFloat32 h8 0x0000 = some 0x00000000 ∧
      convertFloat32SeqToCompact16Seq h8 [0x3F000000, 0x3E800000, 0x3F800000, 0x40000000, 0x40400000] =
        some [0x3800, 0x3400, 0x3C00, 0x4000, 0x4200] ∧
      convertCompact16SeqToFloat32Seq h8 [0x3800, 0x3400, 0x3C00, 0x4000, 0x4200] =
        some [0x3F000000, 0x3E800000, 0x3F800000, 0x40000000, 0x40400000] := by decide +kernel

/-! ## Part 4. Witnesses: the hypotheses of each obligation are met, clause by clause -/

theorem witness_EncodeDecodeInverse :
    wellFormed .f16 (.cvths 0xFFFF) = true ∧ wellFormed .f32 (.vadd 7 7 7) = true ∧
      decode .f16 ⟨0x0C000000, 0xFFFFFFFF, 0⟩ = .ok (.cvtsh 0xFFFFFFFF) := by decide

theorem witness_WordIsCommandIffMaskMatches :
    (∃ r ∈ opcodeMap, (0x0B000000 : Word) &&& r.mask = r.pattern ∧ r.availableOn .f16 = true) ∧
      (opField 0x00000000).toNat = 0 ∧ 0x0E ≤ (opField 0x0E000000).toNat ∧
      0x0E ≤ (opField 0xFFFFFFFF).toNat := by decide +kernel

theorem witness_IllegalWordClauses :
    decode .f16 (wordOnly 0x0E000000) = .error .unassignedOpcode ∧
      decode .f16 (wordOnly 0x01000001) = .error .reservedBits ∧
      decode .f16 (wordOnly 0x01001000) = .error .unusedField ∧
      decode .f16 (wordOnly 0x07400000) = .error .registerRange ∧
      decode .f32 (wordOnly 0x0C000000) = .error .noConverter ∧
      decode (w4.present (wordOnly 0x00000000)).etype (wordOnly 0x00000000) =
        .error .unassignedOpcode := by decide

theorem witness_UnusedBusBitsIgnored :
    decode .f16 ⟨0x0B000000, 0x3C01, 5⟩ = .ok (.cvths 0x3C01) ∧
      (Instr.cvths 0x3C01).format.xKind.used 0x3C01 =
        (Instr.cvths 0x3C01).format.xKind.used 0xFFFF3C01 ∧
      (Instr.cvths 0x3C01).format.yKind.used 5 = (Instr.cvths 0x3C01).format.yKind.used 6 := by decide

theorem witness_StepRunsDecodedCommand :
    ({ w4 with port := [.command (wordOnly 0x0D000000)] } : State).port =
        [.command (wordOnly 0x0D000000)] ∧
      decode w4.etype (wordOnly 0x0D000000) = .ok .caps ∧
      decode w4.etype (Command.ofBits 160 0x1000_02200000) = .ok (.vload 2 0x1000) := by decide +kernel

theorem witness_IdleUnitHoldsState : w4.port = [] := by decide

/-- An illegal word before a command that completes, and before one that faults. -/
theorem witness_NextCommandUnaffectedByIllegal :
    decode w4.etype (wordOnly 0x04801000) = .error .registerRange ∧
      completes (step { w4 with port := [.command (wordOnly 0x0D000000)] }) = true ∧
      faultsWith (step { w4 with port := [.command ⟨0x02000000, 0x1001, 0⟩] }) .outsideReadable =
        true := by decide +kernel

theorem witness_ResponseOfEveryCommand :
    completes (step { w4 with port := [.command (wordOnly 0x0D000000)] }) = true ∧
      completes (step { w4 with port := [.command (wordOnly 0x00000000)] }) = true := by decide +kernel

theorem witness_OutcomeTable :
    (w4.present (wordOnly 0x0D000000)).port = [.command (wordOnly 0x0D000000)] ∧
      verdict w4 (wordOnly 0x0D000000) = .ok ∧ verdict w4 (wordOnly 0x0B000000) = .illegal ∧
      verdict w4 (wordOnly 0x0A000000) = .fault ∧ verdict w4 ⟨0x02000000, 0x1000, 0⟩ = .ok ∧
      verdict w4 ⟨0x02000000, 0x1001, 0⟩ = .fault ∧
      decode w4.etype ⟨0x02000000, 0x1001, 0⟩ = .ok (.vload 0 0x1001) ∧
      windowsValid w4 (.vload 0 0x1001) = false := by decide +kernel

/-- A command with an unwritten source that completes, and one whose window is not valid. -/
theorem witness_UnwrittenSourceRead :
    (w4.present (wordOnly 0x06010000)).port = [.command (wordOnly 0x06010000)] ∧
      decode w4.etype (wordOnly 0x06010000) = .ok (.vacc 0 1) ∧
      sourcesWritten w4 (.vacc 0 1) = false ∧ windowsValid w4 (.vacc 0 1) = true ∧
      completes (exec (.vacc 0 1) w4) = true ∧
      faultsWith (exec (.vstore 7 0x2003) w4) .outsideWritable = true := by decide +kernel

/-- The first, the fourth and the last command of program P6: VZERO, HSUM, SGET. -/
theorem witness_CorrectRunCompletes :
    (let s : State := { w4 with port := [.command (wordOnly 0x01000000),
        .command (wordOnly 0x07000000), .command (wordOnly 0x0A000000)] }
     ranCorrectly s.port s) = true := by decide +kernel

theorem witness_ResetBetweenCommands :
    ({ w4regs with port := [.reset, .command (wordOnly 0x0D000000)] } : State).port =
      .reset :: [.command (wordOnly 0x0D000000)] := by decide

/-- Also the premises of VstoreWritesWindow and OnlyVstoreWritesMemory: a well-formed state and a store
that changes a byte. -/
theorem witness_StepKeepsWellFormedness :
    ({ w4regs with port := [.command ⟨0x03000000, 0x2002, 0⟩] } : State).wf = true ∧
      completes (step { w4regs with port := [.command ⟨0x03000000, 0x2002, 0⟩] }) = true ∧
      (after (step { w4regs with port := [.command ⟨0x03000000, 0x2002, 0⟩] }) w4regs).mem ≠
        w4regs.mem := by decide +kernel

theorem witness_StepKeepsParameters :
    completes (step { w4 with port := [.reset] }) = true ∧
      completes (step { w4 with port := [.command (wordOnly 0x0D000000)] }) = true := by decide +kernel

theorem witness_VectorRegisterWriters :
    w4regs.wf = true ∧ completes (exec (.vacc 1 0) w4regs) = true ∧
      vectorDest (.vacc 1 0) = some 1 ∧ vectorDest (.vacc 1 0) ≠ some 0 := by decide +kernel

theorem witness_ScalarRegisterWriters :
    (after (exec (.sadd 0 0 1) w4regs) w4regs).sregs[0] ≠ w4regs.sregs[0] ∧
      completes (exec (.sadd 0 0 1) w4regs) = true := by decide +kernel

theorem witness_OnlyVstoreWritesMemory :
    w4regs.wf = true ∧ completes (exec (.vstore 0 0x2002) w4regs) = true ∧
      (after (exec (.vstore 0 0x2002) w4regs) w4regs).mem.read 0x2011 ≠ w4regs.mem.read 0x2011 := by
  decide +kernel

/-- A window that is wholly readable, and one whose last byte is the first not readable. -/
theorem witness_VloadReadsWindow :
    (∀ k, k < w4.vbytes → w4.launch.readable (0x1000 + k) = true) ∧ w4.etype = .f32 ∧
      (∀ k, k < h8.vbytes → h8.launch.readable (0x3000 + k) = true) ∧ h8.etype = .f16 ∧
      15 < w4.vbytes ∧ w4.launch.readable (0x1001 + 15) = false := by decide +kernel

theorem witness_VstoreWritesWindow :
    w4regs.wf = true ∧ w4.wf = true ∧ w4.vregs[7].written = false ∧
      (∀ k, k < w4regs.vbytes → w4regs.launch.writable (0x2002 + k) = true) ∧
      h8regs.wf = true ∧
      (∀ k, k < h8regs.vbytes → h8regs.launch.writable (0x3000 + k) = true) ∧
      15 < w4regs.vbytes ∧ w4regs.launch.writable (0x2003 + 15) = false := by decide +kernel

theorem witness_LoadSeesStoredWindow :
    w4regs.wf = true ∧ completes (exec (.vstore 1 0x2002) w4regs) = true ∧
      completes (exec (.vload 5 0x2002) (after (exec (.vstore 1 0x2002) w4regs) w4regs)) = true ∧
      h8regs.wf = true ∧ completes (exec (.vstore 0 0x3000) h8regs) = true ∧
      completes (exec (.vload 5 0x3000) (after (exec (.vstore 0 0x3000) h8regs) h8regs)) = true := by
  decide +kernel

/-- The first windows and elements that pass the top of the address space. -/
theorem witness_AddressesDoNotWrap :
    2 ^ 64 < (0xFFFFFFFFFFFFFFF1 : Addr).toNat + w4.vbytes ∧
      ¬2 ^ 64 < (0xFFFFFFFFFFFFFFF0 : Addr).toNat + w4.vbytes ∧
      2 ^ 64 < (0xFFFFFFFFFFFFFFFD : Addr).toNat + w4.esz ∧
      2 ^ 64 < (0xFFFFFFFFFFFFFFFF : Addr).toNat + h8.esz := by decide +kernel

theorem witness_MemoryPrimitivesLittleEndian :
    w4.wf = true ∧ (∀ k, k < 16 → w4.launch.readable (0x1000 + k) = true) ∧
      (0 < 17 ∧ w4.launch.readable (0x1000 + 16) = false) ∧
      (∀ k, k < 16 → w4.launch.writable (0x2002 + k) = true) ∧
      w4.launch.writable (0x2002 + 16) = false := by decide +kernel

/-- Written sources, and sources that nothing has written. -/
theorem witness_VaddAddsLanes : w4regs.wf = true ∧ State.reset.wf = true := by decide +kernel

theorem witness_VmulMultipliesLanes : w4regs.wf = true ∧ h8regs.wf = true := by decide +kernel

theorem witness_VaccAccumulatesLanes : w4regs.wf = true ∧ w8.wf = true := by decide +kernel

/-- Two additions on disjoint registers. -/
theorem witness_IndependentLaneCommandsCommute :
    isLaneArith (.vadd 2 0 0) = true ∧ isLaneArith (.vmul 3 1 1) = true ∧
      vectorDest (.vadd 2 0 0) = some 2 ∧ vectorDest (.vmul 3 1 1) = some 3 ∧
      (2 : VReg) ∉ vectorSources (.vmul 3 1 1) ∧ (3 : VReg) ∉ vectorSources (.vadd 2 0 0) ∧
      completes (exec (.vadd 2 0 0) w4regs) = true ∧
      completes (exec (.vmul 3 1 1) (after (exec (.vadd 2 0 0) w4regs) w4regs)) = true := by
  decide +kernel

theorem witness_CopyThroughZeroedRegister : (3 : VReg) ≠ 1 ∧ w4regs.wf = true := by decide +kernel

/-- Two states that agree in the lane (or the element) that matters. -/
theorem witness_LanesAreIndependent :
    w4regs.wf = true ∧ w4regs.params = (w4regs.writeV 1 [1, 2, 0x4B800000, 4]).params ∧
      (w4regs.writeV 1 [1, 2, 0x4B800000, 4]).wf = true ∧ 2 < w4regs.size ∧
      completes (exec (.vadd 2 0 1) w4regs) = true ∧
      completes (exec (.vadd 2 0 1) (w4regs.writeV 1 [1, 2, 0x4B800000, 4])) = true ∧
      (∀ k ∈ vectorSources (.vadd 2 0 1),
        w4regs.lane k 2 = (w4regs.writeV 1 [1, 2, 0x4B800000, 4]).lane k 2) ∧
      completes (exec (.vload 2 0x1000) w4regs) = true ∧
      completes (exec (.vstore 1 0x2002) w4regs) = true := by decide +kernel

theorem witness_HsumAddsLanesInOrder : w4regs.wf = true ∧ w8.wf = true := by decide +kernel

theorem witness_SmulmMultipliesElements :
    (∀ k, k < w4.esz → w4.launch.readable (0x100C + k) = true) ∧
      (∀ k, k < h8.esz → h8.launch.readable (0x300E + k) = true) ∧
      3 < w4.esz ∧ w4.launch.readable (0x100D + 3) = false ∧
      1 < h8.esz ∧ h8.launch.readable (0x300F + 1) = false := by decide +kernel

theorem witness_CvthsConverts : h8.params.variant = .h8 := by decide

theorem witness_CvtshConverts : h8regs.params.variant = .h8 := by decide

/-- A tie: `2^24 + 1` lies between two finite patterns, and the even one is the result. -/
theorem witness_RoundPackIsNearestEven :
    0 < 2 ^ 24 + 1 ∧ (0 : Int) ≤ 0 + 149 + 0 ∧ roundPack32 false (2 ^ 24 + 1) 0 = 0x4B800000 ∧
      isFinite32 (roundPack32 false (2 ^ 24 + 1) 0) = true ∧ isFinite32 0x4B800001 = true := by
  decide +kernel

/-- The boundary magnitudes: `2^-150` gives zero, the next representable half unit above it does not;
`2^128 - 2^103` gives infinity, the half unit below it does not. -/
theorem witness_RoundPackThresholds :
    isZero32 (roundPack32 false 1 (-150)) = true ∧ isZero32 (roundPack32 true 3 (-151)) = false ∧
      isInf32 (roundPack32 true (2 ^ 25 - 1) 103) = true ∧
      isInf32 (roundPack32 false (2 ^ 26 - 3) 102) = false ∧ (0 : Int) ≤ -151 + 150 + 1 := by
  decide +kernel

/-- A sum that rounds (A22's first operand with 1), and vectors A9, A28, A10 and A11: overflow to the
infinity of the sum's sign, at the boundary and just below it. -/
theorem witness_AdderRoundsExactSum :
    isFinite32 0x4B800000 = true ∧ isFinite32 0x3F800000 = true ∧
      isFinite32 (fadd32 0x7FC00000 0x4B800000 0x3F800000) = true ∧
      fadd32 0x7FC00000 0x7F7FFFFF 0x7F7FFFFF = 0x7F800000 ∧
      fadd32 0x7FC00000 0xFF7FFFFF 0xFF7FFFFF = 0xFF800000 ∧
      value32 0x7F7FFFFF + value32 0x73000000 = (2 ^ 128 - 2 ^ 103) * 2 ^ 149 ∧
      value32 0x7F7FFFFF + value32 0x72FFFFFF < (2 ^ 128 - 2 ^ 103) * 2 ^ 149 ∧
      isInf32 (fadd32 0x7FC00000 0x7F7FFFFF 0x73000000) = true ∧
      isFinite32 (fadd32 0x7FC00000 0x7F7FFFFF 0x72FFFFFF) = true := by decide +kernel

/-- A product that rounds (M14), and vectors M9, M10 and M23: overflow. -/
theorem witness_MultiplierRoundsExactProduct :
    isFinite32 0x00000003 = true ∧ isFinite32 0x3F000000 = true ∧
      isFinite32 (fmul32 0x7FC00000 0x00000003 0x3F000000) = true ∧
      fmul32 0x7FC00000 0x7F7FFFFF 0x40000000 = 0x7F800000 ∧
      fmul32 0x7FC00000 0x7F7FFFFF 0x3F800001 = 0x7F800000 ∧
      fmul32 0x7FC00000 0x5F800000 0x5F800000 = 0x7F800000 ∧
      (2 ^ 128 - 2 ^ 103) * 2 ^ 298 ≤ value32 0x5F800000 * value32 0x5F800000 := by decide +kernel

theorem witness_AdderSpecialCases :
    isNaN32 0x7F800001 = true ∧ isInf32 0x7F800000 = true ∧ isInf32 0xFF800000 = true ∧
      sign32 0x7F800000 ≠ sign32 0xFF800000 ∧ isFinite32 0x7F7FFFFF = true ∧
      value32 0x3F800000 + value32 0xBF800000 = 0 ∧ value32 0x80000000 + value32 0x00000000 = 0 := by
  decide +kernel

theorem witness_MultiplierSpecialCases :
    isNaN32 0xFFFFFFFF = true ∧ isInf32 0xFF800000 = true ∧ isZero32 0x80000000 = true ∧
      isNaN32 0x00000001 = false := by decide +kernel

theorem witness_NanResultOnly :
    isNaN32 0x7FC00000 = true ∧ isNaN32 (fadd32 0x7FC00000 0x7F800000 0xFF800000) = true ∧
      isNaN32 (fmul32 0x7FC00000 0x7F800000 0x00000000) = true := by decide +kernel

theorem witness_AdderAndMultiplierIdentities :
    isNaN32 0x7F800000 = false ∧ isNaN32 0x80000000 = false ∧ isNaN32 0x00000001 = false := by
  decide +kernel

/-- `2^24` and `-1`, at the edge of the range. -/
theorem witness_SmallIntegersExact :
    value32 0x4B800000 = 2 ^ 24 * 2 ^ 149 ∧ value32 0xBF800000 = -1 * 2 ^ 149 ∧
      isFinite32 0x4B800000 = true ∧ isFinite32 0xBF800000 = true ∧
      (2 ^ 24 + -1 : Int).natAbs ≤ 2 ^ 24 ∧ (2 ^ 24 * -1 : Int).natAbs ≤ 2 ^ 24 := by decide +kernel

theorem witness_SumIsNegativeZeroOnlyFromNegativeZeros :
    isNaN32 0x7FC00000 = true ∧ fadd32 0x7FC00000 0x80000000 0x80000000 = 0x80000000 := by
  decide +kernel

theorem witness_WideningIsExact :
    isFinite16 0x7BFF = true ∧ class16 0x7C00 = .infinity ∧ isNaN16 0x7C01 = true := by decide +kernel

/-- 65520 itself is infinite; the pattern below it is not; `2^-25` is zero. -/
theorem witness_NarrowingIsNearestEven :
    isFinite32 0x477FF000 = true ∧ f2h 0x477FF000 = 0x7C00 ∧ f2h 0x477FEFFF = 0x7BFF ∧
      f2h 0x33000000 = 0x0000 ∧ f2h 0x33000001 = 0x0001 ∧ isFinite16 0x7BFF = true := by
  decide +kernel

theorem witness_NarrowingSpecialCases :
    isInf32 0xFF800000 = true ∧ isNaN32 0x7F800001 = true := by decide +kernel

theorem witness_ConversionRoundTrip :
    isNaN16 0x0001 = false ∧ isNaN16 0x7C01 = true ∧ isNaN32 0x33800000 = false ∧
      h2f 0x0001 = 0x33800000 := by decide +kernel

theorem witness_HalfProductsExact : isFinite16 0x0001 = true ∧ isFinite16 0xFBFF = true := by
  decide +kernel

end Sys2Proof.Tests
end

/-! PROOFS. What every step keeps (00_scope.md R7, 20_memory.md R45) and the memory primitives
(00_scope.md R14). -/

namespace Sys2Proof.Machine

open Sys2Proof.Safety

/-! ## What a command and a step can do -/

/-- A command that has a next state writes one vector register, one scalar register or the window of a
VSTORE, or none of these, and delivers one response. -/
theorem exec_next_cases {i : Instr} {s t : State} (h : exec i s = .next t) :
    (∃ vd lanes, vectorDest i = some vd ∧ t = (s.writeV vd lanes).respond false 0) ∨
    (∃ sd bits, scalarDest i = some sd ∧ t = (s.writeS sd bits).respond false 0) ∨
    (∃ vs1 x, i = .vstore vs1 x ∧ s.writableWindow x.toNat s.vbytes = true ∧
      t = State.respond { s with mem := s.mem.storeLanes s.etype x.toNat (s.readV vs1) } false 0) ∨
    (vectorDest i = none ∧ scalarDest i = none ∧ ∃ err data, t = s.respond err data) := by
  cases i with
  | vzero vd | vadd vd _ _ | vmul vd _ _ | vacc vd _ => exact .inl ⟨vd, _, rfl, answered_next.mp h⟩
  | vload vd x =>
    obtain ⟨lanes, -, h⟩ := orFault_next.mp h
    exact .inl ⟨vd, lanes, rfl, answered_next.mp h⟩
  | hsum sd _ | sadd sd _ _ => exact .inr (.inl ⟨sd, _, rfl, answered_next.mp h⟩)
  | smulm sd x y =>
    obtain ⟨p, -, h⟩ := orFault_next.mp h
    obtain ⟨q, -, h⟩ := orFault_next.mp h
    exact .inr (.inl ⟨sd, _, rfl, answered_next.mp h⟩)
  | vstore vs1 x =>
    obtain ⟨s', hs, h⟩ := orFault_next.mp h
    obtain ⟨hw, rfl⟩ := storeWindow_ok.mp hs
    exact .inr (.inr (.inl ⟨vs1, x, rfl, hw, answered_next.mp h⟩))
  | sget | caps => exact .inr (.inr (.inr ⟨rfl, rfl, _, _, answered_next.mp h⟩))
  | cvths | cvtsh =>
    refine .inr (.inr (.inr ⟨rfl, rfl, ?_⟩))
    simp only [exec, execCvths, execCvtsh] at h
    split at h
    · exact ⟨_, _, answered_next.mp h⟩
    · exact ⟨_, _, illegalCommand_next.mp h⟩

/-- No command changes the parameters, the launch or the port's queue. -/
theorem exec_keepsSurroundings {i : Instr} {s t : State} (h : exec i s = .next t) :
    keepsSurroundings s t := by
  obtain ⟨vd, lanes, -, rfl⟩ | ⟨sd, bits, -, rfl⟩ | ⟨vs1, x, -, -, rfl⟩ | ⟨-, -, err, data, rfl⟩ :=
    exec_next_cases h <;> exact ⟨rfl, rfl, rfl⟩

/-- The four ways to a next state: no action presented, a reset, a legal word, an illegal one
(60_exceptions.md R194, R195). -/
theorem step_next_cases {s t : State} (h : step s = .next t) :
    (s.port = [] ∧ t = s) ∨
    (∃ rest, s.port = .reset :: rest ∧ takeReset (s.accept rest) = .next t) ∨
    (∃ c rest i, s.port = .command c :: rest ∧ decode s.etype c = .ok i ∧
      exec i (s.accept rest) = .next t) ∨
    (∃ c rest e, s.port = .command c :: rest ∧ decode s.etype c = .error e ∧
      t = (s.accept rest).respond true 0) := by
  unfold step at h
  split at h
  next hp => exact .inl ⟨hp, (Host.Outcome.next.inj h).symm⟩
  next rest hp => exact .inr (.inl ⟨rest, hp, h⟩)
  next c rest hp =>
    split at h
    next i hd => exact .inr (.inr (.inl ⟨c, rest, i, hp, hd, h⟩))
    next e hd => exact .inr (.inr (.inr ⟨c, rest, e, hp, hd, illegalCommand_next.mp h⟩))

/-- A reset keeps the parameters, the launch and the rest of the queue (log 10). -/
theorem takeReset_keepsSurroundings {s t : State} (h : takeReset s = .next t) :
    keepsSurroundings s t := by
  obtain rfl := Host.Outcome.next.inj h
  exact ⟨rfl, rfl, rfl⟩

/-- Settles O19: by the ways a step has a next state. -/
theorem stepKeepsParameters : Obligations.StepKeepsParameters := by
  intro s t h
  obtain ⟨-, rfl⟩ | ⟨rest, -, hr⟩ | ⟨c, rest, i, -, -, hi⟩ | ⟨c, rest, e, -, -, rfl⟩ :=
    step_next_cases h
  · exact ⟨rfl, rfl⟩
  · obtain ⟨hparams, hlaunch, -⟩ := takeReset_keepsSurroundings hr
    exact ⟨hparams, hlaunch⟩
  · obtain ⟨hparams, hlaunch, -⟩ := exec_keepsSurroundings hi
    exact ⟨hparams, hlaunch⟩
  · exact ⟨rfl, rfl⟩

/-! ## The memory primitives -/

/-- Byte `k` of a little-endian integer is the byte at `a + k`. -/
theorem Memory.readLE_byte (m : Memory) {a n k : Nat} (hk : k < n) :
    m.readLE a n / 256 ^ k % 256 = (m.read (a + k)).toNat := by
  induction n generalizing a k with
  | zero => omega
  | succ n ih =>
    have hbyte : (m.read a).toNat < 256 := (m.read a).isLt
    simp only [Memory.readLE]
    cases k with
    | zero => simp only [pow_zero, Nat.add_zero]; omega
    | succ k =>
      have hrest : ((m.read a).toNat + 256 * m.readLE (a + 1) n) / 256 = m.readLE (a + 1) n := by
        omega
      rw [pow_succ', ← Nat.div_div_eq_div_mul, hrest, ih (by omega), Nat.add_right_comm, Nat.add_assoc]

theorem readableWindow_false {s : State} {a n : Nat} :
    s.readableWindow a n = false ↔ ∃ k, k < n ∧ s.launch.readable (a + k) = false := by
  rw [← Bool.not_eq_true, readableWindow_iff]
  simp

theorem writableWindow_false {s : State} {a n : Nat} :
    s.writableWindow a n = false ↔ ∃ k, k < n ∧ s.launch.writable (a + k) = false := by
  rw [← Bool.not_eq_true, writableWindow_iff]
  simp

theorem memRead_error {s : State} {a n : Nat} {f : Fault} :
    s.memRead a n = .error f ↔ s.readableWindow a n = false ∧ f = .outsideReadable := by
  unfold State.memRead
  by_cases h : s.readableWindow a n = true <;> simp [h, eq_comm]

theorem memWrite_error {s : State} {a n w : Nat} {f : Fault} :
    s.memWrite a n w = .error f ↔ s.writableWindow a n = false ∧ f = .outsideWritable := by
  unfold State.memWrite
  by_cases h : s.writableWindow a n = true <;> simp [h, eq_comm]

/-- Settles O28: the canonical memory and the window inside the address space give the bytes. -/
theorem memoryPrimitivesLittleEndian : Obligations.MemoryPrimitivesLittleEndian := by
  intro s a n w hwf hn
  obtain ⟨-, -, hmem⟩ := wf_iff.mp hwf
  have hpow (k : Nat) : 2 ^ (8 * k) = 256 ^ k := pow_mul 2 8 k
  simp only [hpow]
  refine ⟨fun hr => ?_, fun hr => ?_, fun hw => ?_, fun hw => ?_⟩
  · exact ⟨_, memRead_ok.mpr ⟨readableWindow_iff.mpr hr, rfl⟩, s.mem.readLE_lt a n,
      fun k hk => s.mem.readLE_byte hk⟩
  · exact memRead_error.mpr ⟨readableWindow_false.mpr hr, rfl⟩
  · have hwin := writableWindow_iff.mpr hw
    have hbound := writableWindow_bound hwin hn
    refine ⟨_, memWrite_ok.mpr ⟨hwin, rfl⟩, fun k hk => ?_, fun b hb => ?_⟩
    · rw [Memory.writeLE_read_inside hmem hbound hk, BitVec.toNat_ofNat]
    · exact Memory.writeLE_read_outside hmem hbound hb
  · exact memWrite_error.mpr ⟨writableWindow_false.mpr hw, rfl⟩

end Sys2Proof.Machine

/-! PROOFS. The invariant `State.wf` of the state (10_state.md R21, 20_memory.md R46) and who writes a
vector register (10_state.md R25). -/

namespace Sys2Proof.Machine

open Sys2Proof.Safety

/-! ## The state right after reset (10_state.md R32) -/

@[simp] theorem VectorReg.unwritten_written (n : Nat) : (VectorReg.unwritten n).written = false := rfl

@[simp] theorem VectorReg.unwritten_length (n : Nat) : (VectorReg.unwritten n).lanes.length = n :=
  List.length_replicate

@[simp] theorem ScalarReg.unwritten_written : ScalarReg.unwritten.written = false := rfl

theorem reset_vregs (k : VReg) : State.reset.vregs[k] = VectorReg.unwritten State.reset.size :=
  Vector.getElem_replicate k.isLt

theorem reset_sregs (k : SReg) : State.reset.sregs[k] = ScalarReg.unwritten :=
  Vector.getElem_replicate k.isLt

theorem reset_variant : State.reset.params.variant = .h8 := rfl

/-- `CAPS` reads the variant alone and answers in every state (44_convert_caps.md R142). -/
theorem exec_caps (s : State) : exec .caps s = .next (s.respond false (capsWord s.params.variant)) :=
  rfl

/-- The fields of 10_state.md R28 on H8: version 1.0, HALF set, SIZE 8. -/
theorem capsWord_h8 : capsWord .h8 = 0x01000108 := by decide

/-- Settles O16: every register is an unwritten one, and CAPS answers the word of H8. -/
theorem resetState : Obligations.ResetState := by
  have hcaps : exec .caps State.reset = .next (State.reset.respond false 0x01000108) := by
    rw [exec_caps, reset_variant, capsWord_h8]
  refine ⟨fun k => ?_, fun k => ?_, rfl, rfl, rfl, hcaps⟩
  · rw [reset_vregs, VectorReg.unwritten_written]
  · rw [reset_sregs, ScalarReg.unwritten_written]

/-- The default NAN_RESULT is quiet (40_fp_numerics.md R88). -/
theorem nanDefault_quiet : isQuietNaN32 Config.nanDefault = true := by decide

/-- Settles O17: the three parts of the invariant. -/
theorem resetMeetsWellFormedness : Obligations.ResetMeetsWellFormedness :=
  wf_iff.mpr ⟨nanDefault_quiet, fun k => by rw [reset_vregs, VectorReg.unwritten_length],
    reset_memory_wf⟩

/-! ## What each operation keeps of the invariant

The invariant reads the parameters, the vector registers and the memory, so the scalar registers and the
two ports do not matter to it. -/

@[simp] theorem respond_wf (s : State) (err : Bool) (data : Word) : (s.respond err data).wf = s.wf := rfl

@[simp] theorem accept_wf (s : State) (rest : List HostAction) : (s.accept rest).wf = s.wf := rfl

@[simp] theorem writeS_wf (s : State) (k : SReg) (bits : Word) : (s.writeS k bits).wf = s.wf := rfl

theorem readV_length {s : State} (hwf : s.wf = true) (k : VReg) : (s.readV k).length = s.size := by
  obtain ⟨-, hlanes, -⟩ := wf_iff.mp hwf
  exact hlanes k

/-- Replacing a vector register by SIZE lanes keeps the invariant. -/
theorem writeV_wf {s : State} {k : VReg} {lanes : List Word} (hwf : s.wf = true)
    (hlen : lanes.length = s.size) : (s.writeV k lanes).wf = true := by
  obtain ⟨hnan, hlanes, hmem⟩ := wf_iff.mp hwf
  refine wf_iff.mpr ⟨hnan, fun j => ?_, hmem⟩
  rw [writeV_vregs]
  split
  · exact hlen
  · exact hlanes j

/-- Storing a vector register to a window keeps the invariant: a writable window lies inside the address
space, so the listed addresses stay below its top (20_memory.md R46). -/
theorem storeLanes_readV_wf {s : State} {a : Nat} {k : VReg} (hwf : s.wf = true)
    (hw : s.writableWindow a s.vbytes = true) :
    State.wf { s with mem := s.mem.storeLanes s.etype a (s.readV k) } = true := by
  obtain ⟨hnan, hlanes, hmem⟩ := wf_iff.mp hwf
  have hbound : a + (s.readV k).length * s.etype.esz ≤ Config.addrLimit := by
    rw [readV_length hwf]
    exact writableWindow_bound hw (vbytes_pos s.params.variant)
  exact wf_iff.mpr ⟨hnan, hlanes, Memory.storeLanes_wf hmem hbound⟩

/-- A reset between commands makes every vector register unwritten (10_state.md R32). -/
theorem takeReset_vregs {s t : State} (h : takeReset s = .next t) (k : VReg) :
    t.vregs[k] = VectorReg.unwritten s.size := by
  obtain rfl := Host.Outcome.next.inj h
  exact Vector.getElem_replicate k.isLt

theorem takeReset_mem {s t : State} (h : takeReset s = .next t) : t.mem = s.mem := by
  obtain rfl := Host.Outcome.next.inj h
  rfl

/-- A reset gives every vector register SIZE lanes again, and neither NAN_RESULT nor the memory changes
(log 10). -/
theorem takeReset_wf {s t : State} (hwf : s.wf = true) (h : takeReset s = .next t) : t.wf = true := by
  obtain ⟨hnan, -, hmem⟩ := wf_iff.mp hwf
  obtain ⟨hparams, -, -⟩ := takeReset_keepsSurroundings h
  refine wf_iff.mpr ⟨?_, fun k => ?_, ?_⟩
  · rwa [State.nan, hparams]
  · rw [takeReset_vregs h, VectorReg.unwritten_length, State.size, State.size, hparams]
  · rwa [takeReset_mem h]

/-! ## Who writes a vector register (10_state.md R20, R25) -/

/-- A command with a vector destination replaces it by SIZE lanes and changes nothing else but the
responses (10_state.md R25). -/
theorem exec_vectorDest {i : Instr} {s t : State} {vd : VReg} (hwf : s.wf = true)
    (hd : vectorDest i = some vd) (h : exec i s = .next t) :
    ∃ lanes : List Word, lanes.length = s.size ∧ t = (s.writeV vd lanes).respond false 0 := by
  cases i with
  | vzero _ =>
    obtain rfl := Option.some.inj hd
    exact ⟨_, List.length_replicate, answered_next.mp h⟩
  | vload _ _ =>
    obtain rfl := Option.some.inj hd
    obtain ⟨lanes, hl, h⟩ := orFault_next.mp h
    obtain ⟨-, rfl⟩ := loadWindow_ok.mp hl
    exact ⟨_, by simp, answered_next.mp h⟩
  | vadd _ _ _ | vmul _ _ _ | vacc _ _ =>
    obtain rfl := Option.some.inj hd
    exact ⟨_, by simp [readV_length hwf], answered_next.mp h⟩
  | vstore _ _ | hsum _ _ | smulm _ _ _ | sadd _ _ _ | sget _ | cvths _ | cvtsh _ | caps => cases hd

/-- A vector register that is not the command's destination keeps its lanes and its mark. -/
theorem exec_vregs_other {i : Instr} {s t : State} {k : VReg} (hk : vectorDest i ≠ some k)
    (h : exec i s = .next t) : t.vregs[k] = s.vregs[k] := by
  obtain ⟨vd, lanes, hd, rfl⟩ | ⟨sd, bits, -, rfl⟩ | ⟨vs1, x, -, -, rfl⟩ | ⟨-, -, err, data, rfl⟩ :=
    exec_next_cases h
  · have hne : k ≠ vd := by
      rintro rfl
      exact hk hd
    exact writeV_vregs_other s vd lanes hne
  all_goals rfl

/-- Settles O20: the destination by `exec_vectorDest`, every other register by `exec_vregs_other`. -/
theorem vectorRegisterWriters : Obligations.VectorRegisterWriters := by
  intro s t i k hwf h
  refine ⟨fun hk => exec_vregs_other hk h, fun hk => ?_⟩
  obtain ⟨lanes, hlen, rfl⟩ := exec_vectorDest hwf hk h
  rw [respond_vregs, writeV_vregs_same]
  exact ⟨rfl, hlen⟩

/-! ## Every step keeps the invariant -/

/-- Every command keeps the invariant: only a vector write and a store touch what it reads. -/
theorem exec_wf {i : Instr} {s t : State} (hwf : s.wf = true) (h : exec i s = .next t) :
    t.wf = true := by
  obtain ⟨vd, -, hd, -⟩ | ⟨sd, bits, -, rfl⟩ | ⟨vs1, x, -, hw, rfl⟩ | ⟨-, -, err, data, rfl⟩ :=
    exec_next_cases h
  · obtain ⟨lanes, hlen, rfl⟩ := exec_vectorDest hwf hd h
    rw [respond_wf]
    exact writeV_wf hwf hlen
  · rwa [respond_wf, writeS_wf]
  · rw [respond_wf]
    exact storeLanes_readV_wf hwf hw
  · rwa [respond_wf]

/-- Settles O18: the four ways a step has a next state (60_exceptions.md R194, R195), and a step from an
accepted action has the invariant of the state before it. -/
theorem stepKeepsWellFormedness : Obligations.StepKeepsWellFormedness := by
  intro s t hwf h
  have haccept (rest : List HostAction) : (s.accept rest).wf = true := by rwa [accept_wf]
  obtain ⟨-, rfl⟩ | ⟨rest, -, hr⟩ | ⟨c, rest, i, -, -, hi⟩ | ⟨c, rest, e, -, -, rfl⟩ :=
    step_next_cases h
  · exact hwf
  · exact takeReset_wf (haccept rest) hr
  · exact exec_wf (haccept rest) hi
  · rw [respond_wf]
    exact haccept rest

end Sys2Proof.Machine

/-! PROOFS. What the commands do to memory: who writes it (20_memory.md R47), what a load of a stored
window sees (R50), and the top of the address space (R46). -/

namespace Sys2Proof.Machine

/-! ## Who writes memory (20_memory.md R47) -/

/-- The lanes of a register fill the window they are stored to, and a writable window ends inside the
address space (20_memory.md R46). -/
theorem storedLanes_bound {s : State} {a : Nat} (hwf : s.wf = true)
    (hw : s.writableWindow a s.vbytes = true) (k : VReg) :
    a + (s.readV k).length * s.etype.esz ≤ Config.addrLimit := by
  rw [readV_length hwf]
  exact writableWindow_bound hw (vbytes_pos s.params.variant)

/-- A store to a writable window leaves every byte outside it as it was. -/
theorem storeLanes_readV_outside {s : State} {a b : Nat} {k : VReg} (hwf : s.wf = true)
    (hw : s.writableWindow a s.vbytes = true) (hb : b < a ∨ a + s.vbytes ≤ b) :
    (s.mem.storeLanes s.etype a (s.readV k)).read b = s.mem.read b := by
  obtain ⟨-, -, hmem⟩ := wf_iff.mp hwf
  refine Memory.storeLanes_read_outside hmem (storedLanes_bound hwf hw k) ?_
  rwa [readV_length hwf]

/-- Settles O22: of the four things a command can do only the store touches memory, and it leaves the
bytes outside its window. -/
theorem onlyVstoreWritesMemory : Obligations.OnlyVstoreWritesMemory := by
  intro s t i b hwf h hchanged
  obtain ⟨vd, lanes, -, rfl⟩ | ⟨sd, bits, -, rfl⟩ | ⟨vs1, x, hi, hw, rfl⟩ | ⟨-, -, err, data, rfl⟩ :=
    exec_next_cases h
  case inr.inr.inl =>
    have hinside : ¬(b < x.toNat ∨ x.toNat + s.vbytes ≤ b) := fun hout =>
      hchanged (storeLanes_readV_outside hwf hw hout)
    exact ⟨vs1, x, hi, by omega, by omega⟩
  all_goals exact absurd rfl hchanged

/-! ## A load of a stored window (20_memory.md R50, R57) -/

theorem exec_vstore_next {vs1 : VReg} {x : Addr} {s t : State} :
    exec (.vstore vs1 x) s = .next t ↔ s.writableWindow x.toNat s.vbytes = true ∧
      t = State.respond { s with mem := s.mem.storeLanes s.etype x.toNat (s.readV vs1) } false 0 := by
  simp [exec, execVstore, orFault_next, storeWindow_ok, answered_next, and_assoc]

theorem exec_vload_next {vd : VReg} {x : Addr} {s t : State} :
    exec (.vload vd x) s = .next t ↔ s.readableWindow x.toNat s.vbytes = true ∧
      t = (s.writeV vd ((List.range s.size).map fun i =>
        s.elemAt (elemAddr s.params.variant x.toNat i))).respond false 0 := by
  simp [exec, execVload, orFault_next, loadWindow_ok, answered_next, and_assoc]

/-- Lane `i` after a load is element `i` of the window (41_vector_memory.md R111). -/
theorem exec_vload_lane {vd : VReg} {x : Addr} {s t : State} {i : Nat}
    (h : exec (.vload vd x) s = .next t) (hi : i < s.size) :
    t.lane vd i = s.elemAt (elemAddr s.params.variant x.toNat i) := by
  obtain ⟨-, rfl⟩ := exec_vload_next.mp h
  rw [State.lane, respond_vregs, writeV_vregs_same]
  simp [hi]

/-- Element `i` of the window after a store is lane `i`, taken to the element type and back
(41_vector_memory.md R112). -/
theorem exec_vstore_elemAt {vs1 : VReg} {x : Addr} {s t : State} {i : Nat} (hwf : s.wf = true)
    (h : exec (.vstore vs1 x) s = .next t) (hi : i < s.size) :
    t.elemAt (elemAddr s.params.variant x.toNat i) =
      elemToF32 s.etype (f32ToElem s.etype (s.lane vs1 i)) := by
  obtain ⟨hw, rfl⟩ := exec_vstore_next.mp h
  obtain ⟨-, -, hmem⟩ := wf_iff.mp hwf
  have hlen : i < (s.readV vs1).length := by rwa [readV_length hwf]
  have hlane : s.lane vs1 i = (s.readV vs1)[i] := List.getD_eq_getElem _ _ hlen
  rw [hlane, ← Memory.storeLanes_readLE hmem (storedLanes_bound hwf hw vs1) hlen]
  rfl

/-- A binary32 element holds all bits of its lane (00_scope.md R16). -/
@[simp] theorem elemToF32_f32ToElem_f32 (f : Word) : elemToF32 .f32 (f32ToElem .f32 f) = f := by
  simp [elemToF32, f32ToElem]

/-- A binary16 element is the lane narrowed, and widened again by the load (00_scope.md R16). -/
@[simp] theorem elemToF32_f32ToElem_f16 (f : Word) :
    elemToF32 .f16 (f32ToElem .f16 f) = h2f (f2h f) := by
  simp [elemToF32, f32ToElem]

/-- Settles O26: the load reads the elements that the store wrote. -/
theorem loadSeesStoredWindow : Obligations.LoadSeesStoredWindow := by
  intro s t u vs1 vd x hwf hstore hload i hi
  obtain ⟨hparams, -, -⟩ := exec_keepsSurroundings hstore
  have hit : i < t.size := by rwa [State.size, hparams]
  have hlane : u.lane vd i = elemToF32 s.etype (f32ToElem s.etype (s.lane vs1 i)) := by
    rw [exec_vload_lane hload hit, hparams, exec_vstore_elemAt hwf hstore hi]
  refine ⟨fun het => ?_, fun het => ?_⟩
  · rw [hlane, het, elemToF32_f32ToElem_f32]
  · rw [hlane, het, elemToF32_f32ToElem_f16]

/-! ## The top of the address space (20_memory.md R46) -/

/-- No launch makes a window readable that passes the top: its last byte has no address. -/
theorem readableWindow_pastTop (s : State) {x : Addr} {n : Nat} (h : 2 ^ 64 < x.toNat + n) :
    s.readableWindow x.toNat n = false := by
  rw [← Bool.not_eq_true]
  intro hr
  have hx := x.isLt
  exact absurd h (Nat.not_lt.mpr (readableWindow_bound hr (by omega)))

/-- No launch makes a window writable that passes the top. -/
theorem writableWindow_pastTop (s : State) {x : Addr} {n : Nat} (h : 2 ^ 64 < x.toNat + n) :
    s.writableWindow x.toNat n = false := by
  rw [← Bool.not_eq_true]
  intro hw
  have hx := x.isLt
  exact absurd h (Nat.not_lt.mpr (writableWindow_bound hw (by omega)))

theorem exec_vload_fault {s : State} {x : Addr} (vd : VReg)
    (h : s.readableWindow x.toNat s.vbytes = false) :
    exec (.vload vd x) s = .fault .outsideReadable := by
  rw [exec, execVload, loadWindow_error.mpr ⟨h, rfl⟩, orFault_error]

theorem exec_vstore_fault {s : State} {x : Addr} (vs1 : VReg)
    (h : s.writableWindow x.toNat s.vbytes = false) :
    exec (.vstore vs1 x) s = .fault .outsideWritable := by
  rw [exec, execVstore, storeWindow_error.mpr ⟨h, rfl⟩, orFault_error]

/-- SMULM needs both its elements readable; whichever fails, the fault is the same (43_reduce_scalar.md
R131). -/
theorem exec_smulm_fault {s : State} {x y : Addr} (sd : SReg)
    (h : s.readableWindow x.toNat s.esz = false ∨ s.readableWindow y.toNat s.esz = false) :
    exec (.smulm sd x y) s = .fault .outsideReadable := by
  rw [exec, execSmulm]
  cases hx : s.loadElem x.toNat with
  | error f => rw [(loadElem_error.mp hx).2, orFault_error]
  | ok p =>
    obtain ⟨hxr, -⟩ := loadElem_ok.mp hx
    have hy := h.resolve_left (by simp [hxr])
    rw [orFault_ok, loadElem_error.mpr ⟨hy, rfl⟩, orFault_error]

/-- Settles O27: a window past the top is in no launch, and the command faults on it. -/
theorem addressesDoNotWrap : Obligations.AddressesDoNotWrap := by
  intro s x y
  refine ⟨fun vd h => ?_, fun vs1 h => ?_, fun sd h => ?_⟩
  · exact exec_vload_fault vd (readableWindow_pastTop s h)
  · exact exec_vstore_fault vs1 (writableWindow_pastTop s h)
  · exact exec_smulm_fault sd (h.imp (readableWindow_pastTop s) (readableWindow_pastTop s))

end Sys2Proof.Machine

/-! PROOFS. The command word field by field (30_encoding.md R61), and the encoder as the inverse of the
decoder (R72). -/

namespace Sys2Proof

/-! ## A word is its five fields (30_encoding.md R61) -/

theorem word_eq_iff {w v : Word} :
    w = v ↔ opField w = opField v ∧ rdField w = rdField v ∧ rs1Field w = rs1Field v ∧
      rs2Field w = rs2Field v ∧ zeroField w = zeroField v := by
  constructor
  · rintro rfl
    exact ⟨rfl, rfl, rfl, rfl, rfl⟩
  · rintro ⟨hop, hrd, hrs1, hrs2, hzero⟩
    simp only [opField, rdField, rs1Field, rs2Field, zeroField, ← BitVec.toNat_inj,
      BitVec.extractLsb'_toNat, Nat.shiftRight_eq_div_pow] at hop hrd hrs1 hrs2 hzero
    have hw := w.isLt
    have hv := v.isLt
    apply BitVec.eq_of_toNat_eq
    omega

@[simp] theorem opField_and (w v : Word) : opField (w &&& v) = opField w &&& opField v :=
  BitVec.extractLsb'_and

@[simp] theorem rdField_and (w v : Word) : rdField (w &&& v) = rdField w &&& rdField v :=
  BitVec.extractLsb'_and

@[simp] theorem rs1Field_and (w v : Word) : rs1Field (w &&& v) = rs1Field w &&& rs1Field v :=
  BitVec.extractLsb'_and

@[simp] theorem rs2Field_and (w v : Word) : rs2Field (w &&& v) = rs2Field w &&& rs2Field v :=
  BitVec.extractLsb'_and

@[simp] theorem zeroField_and (w v : Word) : zeroField (w &&& v) = zeroField w &&& zeroField v :=
  BitVec.extractLsb'_and

/-! ## The encoder's word (30_encoding.md R72) -/

section
variable {op rd rs1 rs2 : Nat}

/-- Fields in range do not overlap, so the formula's `|` is a sum. -/
theorem encodeWord_toNat (hop : op < 256) (hrd : rd < 16) (hrs1 : rs1 < 16) (hrs2 : rs2 < 16) :
    (encodeWord op rd rs1 rs2).toNat = op * 2 ^ 24 + rd * 2 ^ 20 + rs1 * 2 ^ 16 + rs2 * 2 ^ 12 := by
  have hor : (op <<< 24 ||| rd <<< 20 ||| rs1 <<< 16 ||| rs2 <<< 12) =
      op <<< 24 + (rd <<< 20 + (rs1 <<< 16 + rs2 <<< 12)) := by
    have h16 : rs2 <<< 12 < 2 ^ 16 := by rw [Nat.shiftLeft_eq]; omega
    have h20 : rs1 <<< 16 + rs2 <<< 12 < 2 ^ 20 := by simp only [Nat.shiftLeft_eq]; omega
    have h24 : rd <<< 20 + (rs1 <<< 16 + rs2 <<< 12) < 2 ^ 24 := by
      simp only [Nat.shiftLeft_eq]; omega
    rw [Nat.or_assoc, Nat.or_assoc, ← Nat.shiftLeft_add_eq_or_of_lt h16,
      ← Nat.shiftLeft_add_eq_or_of_lt h20, ← Nat.shiftLeft_add_eq_or_of_lt h24]
  rw [encodeWord, hor, BitVec.toNat_ofNat]
  simp only [Nat.shiftLeft_eq]
  omega

theorem encodeWord_fields (hop : op < 256) (hrd : rd < 16) (hrs1 : rs1 < 16) (hrs2 : rs2 < 16) :
    (opField (encodeWord op rd rs1 rs2)).toNat = op ∧
      (rdField (encodeWord op rd rs1 rs2)).toNat = rd ∧
      (rs1Field (encodeWord op rd rs1 rs2)).toNat = rs1 ∧
      (rs2Field (encodeWord op rd rs1 rs2)).toNat = rs2 ∧
      zeroField (encodeWord op rd rs1 rs2) = 0 := by
  simp only [opField, rdField, rs1Field, rs2Field, zeroField, ← BitVec.toNat_inj,
    BitVec.extractLsb'_toNat, Nat.shiftRight_eq_div_pow, encodeWord_toNat hop hrd hrs1 hrs2,
    BitVec.ofNat_eq_ofNat, BitVec.toNat_ofNat]
  omega

theorem eq_encodeWord_iff {w : Word} (hop : op < 256) (hrd : rd < 16) (hrs1 : rs1 < 16)
    (hrs2 : rs2 < 16) :
    w = encodeWord op rd rs1 rs2 ↔ (opField w).toNat = op ∧ (rdField w).toNat = rd ∧
      (rs1Field w).toNat = rs1 ∧ (rs2Field w).toNat = rs2 ∧ zeroField w = 0 := by
  obtain ⟨ho, hd, h1, h2, hz⟩ := encodeWord_fields hop hrd hrs1 hrs2
  rw [word_eq_iff, ← BitVec.toNat_inj, ← BitVec.toNat_inj, ← BitVec.toNat_inj, ← BitVec.toNat_inj,
    ho, hd, h1, h2, hz]

theorem encodeWord_eq_iff {w : Word} {d j k : BitVec 4} (hop : op < 256) :
    encodeWord op d.toNat j.toNat k.toNat = w ↔ (opField w).toNat = op ∧ rdField w = d ∧
      rs1Field w = j ∧ rs2Field w = k ∧ zeroField w = 0 := by
  rw [eq_comm, eq_encodeWord_iff hop d.isLt j.isLt k.isLt, BitVec.toNat_inj, BitVec.toNat_inj,
    BitVec.toNat_inj]

end

theorem VReg.lt_sixteen (v : VReg) : (v : Nat) < 16 := v.isLt.trans (by decide)

theorem SReg.lt_sixteen (v : SReg) : (v : Nat) < 16 := v.isLt.trans (by decide)

theorem Instr.opcode_lt (i : Instr) : i.opcode < 256 := by
  cases i <;> simp [Instr.opcode]

theorem Instr.rd_lt (i : Instr) : i.rd < 16 := by
  cases i with
  | vzero d | vload d _ | vadd d _ _ | vmul d _ _ | vacc d _ => exact VReg.lt_sixteen d
  | hsum d _ | smulm d _ _ | sadd d _ _ => exact SReg.lt_sixteen d
  | vstore | sget | cvths | cvtsh | caps => exact Nat.zero_lt_succ 15

theorem Instr.rs1_lt (i : Instr) : i.rs1 < 16 := by
  cases i with
  | vstore k _ | vadd _ k _ | vmul _ k _ | vacc _ k | hsum _ k => exact VReg.lt_sixteen k
  | sadd _ k _ | sget k => exact SReg.lt_sixteen k
  | vzero | vload | smulm | cvths | cvtsh | caps => exact Nat.zero_lt_succ 15

theorem Instr.rs2_lt (i : Instr) : i.rs2 < 16 := by
  cases i with
  | vadd _ _ k | vmul _ _ k => exact VReg.lt_sixteen k
  | sadd _ _ k => exact SReg.lt_sixteen k
  | vzero | vload | vstore | vacc | hsum | smulm | sget | cvths | cvtsh | caps =>
    exact Nat.zero_lt_succ 15

/-- A word is the word of a command exactly when its fields are the command's. -/
theorem eq_encode_word_iff {w : Word} {i : Instr} :
    w = (encode i).word ↔ (opField w).toNat = i.opcode ∧ (rdField w).toNat = i.rd ∧
      (rs1Field w).toNat = i.rs1 ∧ (rs2Field w).toNat = i.rs2 ∧ zeroField w = 0 :=
  eq_encodeWord_iff i.opcode_lt i.rd_lt i.rs1_lt i.rs2_lt

/-! ## What each check of the decoder accepts (30_encoding.md R62, R66) -/

section
variable {α : Type} {b : α} {f : BitVec 4}

/-- A register number in range is passed on; no other value of the field is. -/
theorem range_bind_ok {n : Nat} {k : Fin n → Except Illegal α} :
    ((if h : f.toNat < n then .ok ⟨f.toNat, h⟩ else .error .registerRange) >>= k) = .ok b ↔
      ∃ v : Fin n, f.toNat = v ∧ k v = .ok b := by
  split
  next h =>
    constructor
    · exact fun hk => ⟨⟨f.toNat, h⟩, rfl, hk⟩
    · rintro ⟨v, hv, hk⟩
      obtain rfl : v = ⟨f.toNat, h⟩ := Fin.ext hv.symm
      exact hk
  next h =>
    constructor
    · exact nofun
    · rintro ⟨v, hv, -⟩
      exact absurd (hv ▸ v.isLt) h

theorem vectorField_bind_ok {k : VReg → Except Illegal α} :
    (vectorField f >>= k) = .ok b ↔ ∃ v : VReg, f.toNat = v ∧ k v = .ok b := range_bind_ok

theorem scalarField_bind_ok {k : SReg → Except Illegal α} :
    (scalarField f >>= k) = .ok b ↔ ∃ v : SReg, f.toNat = v ∧ k v = .ok b := range_bind_ok

theorem unusedField_bind_ok {k : Unit → Except Illegal α} :
    (unusedField f >>= k) = .ok b ↔ f.toNat = 0 ∧ k () = .ok b := by
  have hzero : f.toNat = 0 ↔ f = 0 := BitVec.toNat_inj (y := 0)
  rw [hzero]
  unfold unusedField
  split
  next h => exact ⟨fun hk => ⟨h, hk⟩, fun hk => hk.2⟩
  next h => exact ⟨nofun, fun hk => absurd hk.1 h⟩

theorem converterPresent_bind_ok {et : EType} {k : Unit → Except Illegal α} :
    (converterPresent et >>= k) = .ok b ↔ et = .f16 ∧ k () = .ok b := by
  cases et with
  | f32 => exact ⟨nofun, nofun⟩
  | f16 => exact ⟨fun hk => ⟨rfl, hk⟩, fun hk => hk.2⟩

theorem pure_ok_iff {a : α} : (pure a : Except Illegal α) = .ok b ↔ a = b :=
  ⟨Except.ok.inj, congrArg _⟩

end

/-! ## The command of an opcode and its fields (30_encoding.md R63, R65) -/

/-- What command `i` asks of the element type, the opcode, the register fields and the buses it is decoded
from. -/
structure Instr.DecodesFrom (i : Instr) (et : EType) (op : Nat) (rd rs1 rs2 : BitVec 4) (x y : Addr) :
    Prop where
  op_eq : op = i.opcode
  rd_eq : rd.toNat = i.rd
  rs1_eq : rs1.toNat = i.rs1
  rs2_eq : rs2.toNat = i.rs2
  wellFormed_eq : wellFormed et i = true
  busX_eq : i.busX = i.format.xKind.used x
  busY_eq : i.busY = i.format.yKind.used y

section
variable {et : EType} {op : Nat} {rd rs1 rs2 : BitVec 4} {x y : Addr} {i : Instr}

/-- One case for each opcode, those whose checks have one shape together; the last is an unassigned
opcode. -/
theorem Instr.decodesFrom_of_decodeOp (h : decodeOp et op rd rs1 rs2 x y = .ok i) :
    i.DecodesFrom et op rd rs1 rs2 x y := by
  unfold decodeOp at h
  split at h
  case h_14 => cases h
  all_goals simp only [vectorField_bind_ok, scalarField_bind_ok, unusedField_bind_ok,
    converterPresent_bind_ok, pure_ok_iff] at h
  case h_1 | h_2 | h_8 =>
    obtain ⟨h1, h2, d, hd, rfl⟩ := h
    exact ⟨rfl, hd, h1, h2, rfl, rfl, rfl⟩
  case h_3 | h_10 =>
    obtain ⟨hd, h2, k, h1, rfl⟩ := h
    exact ⟨rfl, hd, h1, h2, rfl, rfl, rfl⟩
  case h_4 | h_5 | h_9 =>
    obtain ⟨d, hd, k, h1, j, h2, rfl⟩ := h
    exact ⟨rfl, hd, h1, h2, rfl, rfl, rfl⟩
  case h_6 | h_7 =>
    obtain ⟨h2, d, hd, k, h1, rfl⟩ := h
    exact ⟨rfl, hd, h1, h2, rfl, rfl, rfl⟩
  case h_11 | h_12 =>
    obtain ⟨hd, h1, h2, rfl, rfl⟩ := h
    exact ⟨rfl, hd, h1, h2, rfl, rfl, rfl⟩
  case h_13 =>
    obtain ⟨hd, h1, h2, rfl⟩ := h
    exact ⟨rfl, hd, h1, h2, rfl, rfl, rfl⟩

/-- An operand narrower than its bus is the bus's low bits (30_encoding.md R64). -/
theorem eq_setWidth_of_used {n : Nat} {v : BitVec n} {b : Addr} (hn : n ≤ 64)
    (h : v.setWidth 64 = (b.setWidth n).setWidth 64) : b.setWidth n = v := by
  have hback := congrArg (BitVec.setWidth n) h
  simpa [BitVec.setWidth_setWidth_of_le _ hn] using hback.symm

theorem Instr.DecodesFrom.decodeOp_eq (h : i.DecodesFrom et op rd rs1 rs2 x y) :
    decodeOp et op rd rs1 rs2 x y = .ok i := by
  obtain ⟨rfl, hd, h1, h2, hwf, hx, hy⟩ := h
  cases i <;>
    simp only [decodeOp, Instr.opcode, vectorField_bind_ok, scalarField_bind_ok, unusedField_bind_ok,
      converterPresent_bind_ok, pure_ok_iff]
  case vzero d => exact ⟨h1, h2, d, hd, rfl⟩
  case vload d _ =>
    obtain rfl := hx
    exact ⟨h1, h2, d, hd, rfl⟩
  case vstore k _ =>
    obtain rfl := hx
    exact ⟨hd, h2, k, h1, rfl⟩
  case vadd d k j | vmul d k j | sadd d k j => exact ⟨d, hd, k, h1, j, h2, rfl⟩
  case vacc d k | hsum d k => exact ⟨h2, d, hd, k, h1, rfl⟩
  case smulm d _ _ =>
    obtain rfl := hx
    obtain rfl := hy
    exact ⟨h1, h2, d, hd, rfl⟩
  case sget k => exact ⟨hd, h2, k, h1, rfl⟩
  case cvths | cvtsh =>
    exact ⟨hd, h1, h2, eq_of_beq hwf, congrArg _ (eq_setWidth_of_used (by decide) hx)⟩
  case caps => exact ⟨hd, h1, h2, trivial⟩

end

/-! ## The decoder, said once -/

/-- A transaction is command `i` exactly when its word is the encoder's, the variant has the command,
and the operands are the bus bits the format uses (30_encoding.md R64, R66). -/
theorem decode_ok_iff {et : EType} {c : Command} {i : Instr} :
    decode et c = .ok i ↔ c.word = (encode i).word ∧ wellFormed et i = true ∧
      i.busX = i.format.xKind.used c.x ∧ i.busY = i.format.yKind.used c.y := by
  rw [eq_encode_word_iff]
  unfold decode
  split
  next hz =>
    constructor
    · intro h
      obtain ⟨hop, hd, h1, h2, hwf, hx, hy⟩ := Instr.decodesFrom_of_decodeOp h
      exact ⟨⟨hop, hd, h1, h2, hz⟩, hwf, hx, hy⟩
    · rintro ⟨⟨hop, hd, h1, h2, -⟩, hwf, hx, hy⟩
      exact Instr.DecodesFrom.decodeOp_eq ⟨hop, hd, h1, h2, hwf, hx, hy⟩
  next hz =>
    constructor
    · exact nofun
    · rintro ⟨⟨-, -, -, -, hz'⟩, -⟩
      exact absurd hz' hz

theorem Instr.busX_used (i : Instr) : i.format.xKind.used i.busX = i.busX := by
  cases i <;> simp [Instr.format, Format.xKind, Instr.busX, BusKind.used]

theorem Instr.busY_used (i : Instr) : i.format.yKind.used i.busY = i.busY := by
  cases i <;> rfl

theorem decode_encode {et : EType} {i : Instr} (hwf : wellFormed et i = true) :
    decode et (encode i) = .ok i :=
  decode_ok_iff.mpr ⟨rfl, hwf, i.busX_used.symm, i.busY_used.symm⟩

/-- Settles O1: both directions are `decode_ok_iff`, read field by field. -/
theorem encodeDecodeInverse : Obligations.EncodeDecodeInverse := by
  refine ⟨fun op rd rs1 rs2 => BitVec.toNat_ofNat .., fun i => rfl, fun et i => decode_encode,
    fun et c i h => ?_⟩
  obtain ⟨hword, hwf, -, -⟩ := decode_ok_iff.mp h
  obtain ⟨hop, hd, h1, h2, -⟩ := eq_encode_word_iff.mp hword
  exact ⟨hwf, hword.symm, hop.symm, hd.symm, h1.symm, h2.symm⟩

/-- Settles O6: `decode_ok_iff` reads the buses through the format alone. -/
theorem unusedBusBitsIgnored : Obligations.UnusedBusBitsIgnored := by
  refine ⟨fun et w x y x' y' i h hx hy => ?_, fun et c i h => ?_⟩
  · obtain ⟨hword, hwf, hbx, hby⟩ := decode_ok_iff.mp h
    exact decode_ok_iff.mpr ⟨hword, hwf, hbx.trans hx, hby.trans hy⟩
  · obtain ⟨-, -, hbx, hby⟩ := decode_ok_iff.mp h
    exact ⟨hbx, hby⟩

/-- Settles O7: the legal words are encodings of their commands; the two illegal ones are evaluated. -/
theorem sampleWordsDecode : Obligations.SampleWordsDecode :=
  ⟨decode_encode (i := .vload 2 0x1000) rfl, decode_encode (i := .smulm 1 0x1038 0x2038) rfl,
    decode_encode (i := .cvths 0x3C00) rfl, decode_encode (i := .vadd 2 0 1) rfl,
    decode_encode (i := .hsum 3 7) rfl, rfl, rfl⟩

end Sys2Proof

/-! PROOFS. The rows of the opcode map (30_encoding.md R65): what a row's mask asks of the fields, the
words that are commands of a row, and the words that are illegal (R66). -/

namespace Sys2Proof

open Sys2Proof.Laws Sys2Proof.Machine

/-! ## A row's mask, field by field -/

/-- The bits of a register field that are zero in every word of a row. -/
def FieldKind.fixedBits : FieldKind → BitVec 4
  | .vector => 0x8
  | .scalar => 0xC
  | .unused => 0xF

theorem FieldKind.and_fixedBits_iff (k : FieldKind) (f : BitVec 4) :
    f &&& k.fixedBits = 0 ↔ k.rejects f = false := by
  cases k <;> revert f <;> decide

/-- The fields of `w` are those of a word of row `r`: its `op` value, in each register field a number
the format's kind allows, and no reserved bit. -/
structure OpcodeRow.Accepts (r : OpcodeRow) (w : Word) : Prop where
  op_eq : (opField w).toNat = r.op
  rd_ok : r.format.rdKind.rejects (rdField w) = false
  rs1_ok : r.format.rs1Kind.rejects (rs1Field w) = false
  rs2_ok : r.format.rs2Kind.rejects (rs2Field w) = false
  zero_eq : zeroField w = 0

theorem row_mask_fields : ∀ r ∈ opcodeMap, opField r.mask = BitVec.allOnes 8 ∧
    rdField r.mask = r.format.rdKind.fixedBits ∧ rs1Field r.mask = r.format.rs1Kind.fixedBits ∧
      rs2Field r.mask = r.format.rs2Kind.fixedBits ∧ zeroField r.mask = BitVec.allOnes 12 := by
  decide

theorem row_pattern_fields : ∀ r ∈ opcodeMap, (opField r.pattern).toNat = r.op ∧
    rdField r.pattern = 0 ∧ rs1Field r.pattern = 0 ∧ rs2Field r.pattern = 0 ∧
      zeroField r.pattern = 0 := by
  decide

theorem matches_iff_accepts {r : OpcodeRow} (hr : r ∈ opcodeMap) (w : Word) :
    w &&& r.mask = r.pattern ↔ r.Accepts w := by
  obtain ⟨mop, md, m1, m2, mz⟩ := row_mask_fields r hr
  obtain ⟨pop, pd, p1, p2, pz⟩ := row_pattern_fields r hr
  have hop : opField w = opField r.pattern ↔ (opField w).toNat = r.op := by
    rw [← pop, BitVec.toNat_inj]
  rw [word_eq_iff, opField_and, rdField_and, rs1Field_and, rs2Field_and, zeroField_and,
    mop, md, m1, m2, mz, pd, p1, p2, pz, BitVec.and_allOnes, BitVec.and_allOnes, hop,
    FieldKind.and_fixedBits_iff, FieldKind.and_fixedBits_iff, FieldKind.and_fixedBits_iff]
  exact ⟨fun ⟨ho, hd, h1, h2, hz⟩ => ⟨ho, hd, h1, h2, hz⟩,
    fun ⟨ho, hd, h1, h2, hz⟩ => ⟨ho, hd, h1, h2, hz⟩⟩

/-! ## The `op` values -/

theorem row_op_bounds : ∀ r ∈ opcodeMap, 0 < r.op ∧ r.op < 0x0E := by decide

theorem exists_row_of_op : ∀ n < 0x0E, 0 < n → ∃ r ∈ opcodeMap, r.op = n := by decide

theorem opcodeMap_ops_nodup : (opcodeMap.map OpcodeRow.op).Nodup := by decide

theorem row_eq_of_op {r q : OpcodeRow} (hr : r ∈ opcodeMap) (hq : q ∈ opcodeMap)
    (h : r.op = q.op) : r = q :=
  List.inj_on_of_nodup_map opcodeMap_ops_nodup hr hq h

theorem OpcodeRow.Accepts.row_eq {r q : OpcodeRow} {w : Word} (h : r.Accepts w) (hr : r ∈ opcodeMap)
    (hq : q ∈ opcodeMap) (hop : (opField w).toNat = q.op) : r = q :=
  row_eq_of_op hr hq (h.op_eq.symm.trans hop)

/-! ## The commands of a row -/

theorem encodeInRow : ∀ i : Instr, EncodeInRow.Statement i
  | .vzero vd => EncodeInRow.vzero vd
  | .vload vd x => EncodeInRow.vload vd x
  | .vstore vs1 x => EncodeInRow.vstore vs1 x
  | .vadd vd vs1 vs2 => EncodeInRow.vadd vd vs1 vs2
  | .vmul vd vs1 vs2 => EncodeInRow.vmul vd vs1 vs2
  | .vacc vd vs1 => EncodeInRow.vacc vd vs1
  | .hsum sd vs1 => EncodeInRow.hsum sd vs1
  | .smulm sd x y => EncodeInRow.smulm sd x y
  | .sadd sd ss1 ss2 => EncodeInRow.sadd sd ss1 ss2
  | .sget ss1 => EncodeInRow.sget ss1
  | .cvths x => EncodeInRow.cvths x
  | .cvtsh x => EncodeInRow.cvtsh x
  | .caps => EncodeInRow.caps

theorem availableOn_eq_wellFormed {r : OpcodeRow} {i : Instr} (h : r.format = i.format) (et : EType) :
    r.availableOn et = wellFormed et i := by
  rw [OpcodeRow.availableOn, h]
  cases i <;> rfl

/-- Every command lies in its row, by the encoder's own lemma `EncodeInRow`. -/
theorem accepts_of_decode {et : EType} {c : Command} {i : Instr} (h : decode et c = .ok i) :
    ∃ r ∈ opcodeMap, r.op = i.opcode ∧ r.Accepts c.word ∧ r.availableOn et = true := by
  obtain ⟨hword, hwf, -, -⟩ := decode_ok_iff.mp h
  obtain ⟨r, hr, -, hformat, hop, hmatch⟩ := encodeInRow i
  refine ⟨r, hr, hop, (matches_iff_accepts hr _).mp ?_, ?_⟩
  · rw [hword]
    exact eq_of_beq hmatch
  · rwa [availableOn_eq_wellFormed hformat]

section
variable {f : BitVec 4}

theorem vector_lt (h : FieldKind.vector.rejects f = false) : f.toNat < 8 := by
  simpa [FieldKind.rejects] using h

theorem scalar_lt (h : FieldKind.scalar.rejects f = false) : f.toNat < 4 := by
  simpa [FieldKind.rejects] using h

theorem unused_zero (h : FieldKind.unused.rejects f = false) : f.toNat = 0 := by
  simpa [FieldKind.rejects, ← BitVec.toNat_inj] using h

end

/-- The command of a row's word, row by row: its register fields are register numbers, and the buses
give the operands. -/
theorem OpcodeRow.Accepts.exists_instr {r : OpcodeRow} {c : Command} (h : r.Accepts c.word)
    (hr : r ∈ opcodeMap) : ∃ i : Instr,
      (i.opcode = r.op ∧ i.mnemonic = r.mnemonic ∧ i.format = r.format) ∧
      ((rdField c.word).toNat = i.rd ∧ (rs1Field c.word).toNat = i.rs1 ∧
        (rs2Field c.word).toNat = i.rs2) ∧
      i.busX = i.format.xKind.used c.x ∧ i.busY = i.format.yKind.used c.y := by
  obtain ⟨-, hd, h1, h2, -⟩ := h
  simp only [opcodeMap, List.mem_cons, List.not_mem_nil, or_false] at hr
  rcases hr with rfl | rfl | rfl | rfl | rfl | rfl | rfl | rfl | rfl | rfl | rfl | rfl | rfl
  · exact ⟨.vzero ⟨_, vector_lt hd⟩, ⟨rfl, rfl, rfl⟩, ⟨rfl, unused_zero h1, unused_zero h2⟩, rfl, rfl⟩
  · exact ⟨.vload ⟨_, vector_lt hd⟩ c.x, ⟨rfl, rfl, rfl⟩, ⟨rfl, unused_zero h1, unused_zero h2⟩,
      rfl, rfl⟩
  · exact ⟨.vstore ⟨_, vector_lt h1⟩ c.x, ⟨rfl, rfl, rfl⟩, ⟨unused_zero hd, rfl, unused_zero h2⟩,
      rfl, rfl⟩
  · exact ⟨.vadd ⟨_, vector_lt hd⟩ ⟨_, vector_lt h1⟩ ⟨_, vector_lt h2⟩, ⟨rfl, rfl, rfl⟩,
      ⟨rfl, rfl, rfl⟩, rfl, rfl⟩
  · exact ⟨.vmul ⟨_, vector_lt hd⟩ ⟨_, vector_lt h1⟩ ⟨_, vector_lt h2⟩, ⟨rfl, rfl, rfl⟩,
      ⟨rfl, rfl, rfl⟩, rfl, rfl⟩
  · exact ⟨.vacc ⟨_, vector_lt hd⟩ ⟨_, vector_lt h1⟩, ⟨rfl, rfl, rfl⟩, ⟨rfl, rfl, unused_zero h2⟩,
      rfl, rfl⟩
  · exact ⟨.hsum ⟨_, scalar_lt hd⟩ ⟨_, vector_lt h1⟩, ⟨rfl, rfl, rfl⟩, ⟨rfl, rfl, unused_zero h2⟩,
      rfl, rfl⟩
  · exact ⟨.smulm ⟨_, scalar_lt hd⟩ c.x c.y, ⟨rfl, rfl, rfl⟩, ⟨rfl, unused_zero h1, unused_zero h2⟩,
      rfl, rfl⟩
  · exact ⟨.sadd ⟨_, scalar_lt hd⟩ ⟨_, scalar_lt h1⟩ ⟨_, scalar_lt h2⟩, ⟨rfl, rfl, rfl⟩,
      ⟨rfl, rfl, rfl⟩, rfl, rfl⟩
  · exact ⟨.sget ⟨_, scalar_lt h1⟩, ⟨rfl, rfl, rfl⟩, ⟨unused_zero hd, rfl, unused_zero h2⟩, rfl, rfl⟩
  · exact ⟨.cvths (c.x.setWidth 16), ⟨rfl, rfl, rfl⟩,
      ⟨unused_zero hd, unused_zero h1, unused_zero h2⟩, rfl, rfl⟩
  · exact ⟨.cvtsh (c.x.setWidth 32), ⟨rfl, rfl, rfl⟩,
      ⟨unused_zero hd, unused_zero h1, unused_zero h2⟩, rfl, rfl⟩
  · exact ⟨.caps, ⟨rfl, rfl, rfl⟩, ⟨unused_zero hd, unused_zero h1, unused_zero h2⟩, rfl, rfl⟩

theorem OpcodeRow.Accepts.exists_decode {r : OpcodeRow} {et : EType} {c : Command}
    (h : r.Accepts c.word) (hr : r ∈ opcodeMap) (hav : r.availableOn et = true) :
    ∃ i, decode et c = .ok i ∧ i.opcode = r.op ∧ i.mnemonic = r.mnemonic ∧ i.format = r.format := by
  obtain ⟨i, ⟨hop, hname, hformat⟩, ⟨hd, h1, h2⟩, hx, hy⟩ := h.exists_instr hr
  have hword := eq_encode_word_iff.mpr ⟨h.op_eq.trans hop.symm, hd, h1, h2, h.zero_eq⟩
  have hwf : wellFormed et i = true := by rwa [← availableOn_eq_wellFormed hformat.symm]
  exact ⟨i, decode_ok_iff.mpr ⟨hword, hwf, hx, hy⟩, hop, hname, hformat⟩

theorem decodes_iff_row {et : EType} {c : Command} : (∃ i, decode et c = .ok i) ↔
    ∃ r ∈ opcodeMap, r.Accepts c.word ∧ r.availableOn et = true := by
  constructor
  · rintro ⟨i, hi⟩
    obtain ⟨r, hr, -, hacc, hav⟩ := accepts_of_decode hi
    exact ⟨r, hr, hacc, hav⟩
  · rintro ⟨r, hr, hacc, hav⟩
    obtain ⟨i, hi, -⟩ := hacc.exists_decode hr hav
    exact ⟨i, hi⟩

theorem illegal_iff_no_row {et : EType} {c : Command} : (∃ e, decode et c = .error e) ↔
    ∀ r ∈ opcodeMap, r.Accepts c.word → r.availableOn et = false := by
  have hnot : (∃ e, decode et c = .error e) ↔ ¬∃ i, decode et c = .ok i := by
    cases decode et c <;> simp
  rw [hnot, decodes_iff_row]
  simp

theorem illegal_of_unassigned {et : EType} {c : Command}
    (h : (opField c.word).toNat = 0 ∨ 0x0E ≤ (opField c.word).toNat) :
    ∃ e, decode et c = .error e := by
  refine illegal_iff_no_row.mpr fun r hr hacc => ?_
  have hbounds := row_op_bounds r hr
  have hop := hacc.op_eq
  omega

/-- Settles O2: a mask match is `OpcodeRow.Accepts`, and the `op` field tells the rows apart. -/
theorem wordIsCommandIffMaskMatches : Obligations.WordIsCommandIffMaskMatches := by
  refine ⟨fun et c r hr => ?_, fun w r q hr hq hwr hwq => ?_, fun _ _ => illegal_of_unassigned⟩
  · rw [matches_iff_accepts hr]
    constructor
    · rintro ⟨i, hi, hop, -, -⟩
      obtain ⟨q, hq, hqop, hacc, hav⟩ := accepts_of_decode hi
      obtain rfl := row_eq_of_op hq hr (hqop.trans hop)
      exact ⟨hacc, hav⟩
    · rintro ⟨hacc, hav⟩
      exact hacc.exists_decode hr hav
  · have hacc := (matches_iff_accepts hr w).mp hwr
    exact hacc.row_eq hr hq ((matches_iff_accepts hq w).mp hwq).op_eq

/-- Settles O5: their `op` values are 0x00 and 0xFF. -/
theorem allZeroAndAllOneWordsIllegal : Obligations.AllZeroAndAllOneWordsIllegal := by
  intro et x y
  have hzero : (opField 0x00000000).toNat = 0 := by decide
  have hones : 0x0E ≤ (opField 0xFFFFFFFF).toNat := by decide
  exact ⟨illegal_of_unassigned (.inl hzero), illegal_of_unassigned (.inr hones)⟩

/-! ## Illegal words (30_encoding.md R66, R68) -/

theorem row_unavailable_iff : ∀ r ∈ opcodeMap, ∀ et : EType,
    (r.availableOn et = false ↔ (r.op = 0x0B ∨ r.op = 0x0C) ∧ et = .f32) := by
  intro r hr et
  cases et <;> revert r <;> decide

/-- An assigned `op` value has one row, and the word is illegal exactly when that row refuses it. -/
theorem illegal_iff_row {et : EType} {c : Command} {r : OpcodeRow} (hr : r ∈ opcodeMap)
    (hop : r.op = (opField c.word).toNat) :
    (∃ e, decode et c = .error e) ↔ (r.Accepts c.word → r.availableOn et = false) := by
  rw [illegal_iff_no_row]
  refine ⟨fun h => h r hr, fun h q hq hacc => ?_⟩
  obtain rfl := hacc.row_eq hq hr hop.symm
  exact h hacc

/-- Clauses (c) and (d): a register field holds what the row's format does not allow. -/
def OpcodeRow.RejectsField (r : OpcodeRow) (w : Word) : Prop :=
  r.format.rdKind.rejects (rdField w) = true ∨ r.format.rs1Kind.rejects (rs1Field w) = true ∨
    r.format.rs2Kind.rejects (rs2Field w) = true

theorem OpcodeRow.accepts_iff {r : OpcodeRow} {w : Word} : r.Accepts w ↔
    (opField w).toNat = r.op ∧ zeroField w = 0 ∧ ¬r.RejectsField w := by
  simp only [RejectsField, not_or, Bool.not_eq_true]
  exact ⟨fun ⟨hop, hd, h1, h2, hz⟩ => ⟨hop, hz, hd, h1, h2⟩,
    fun ⟨hop, hz, hd, h1, h2⟩ => ⟨hop, hd, h1, h2, hz⟩⟩

theorem illegal_iff_clauses {et : EType} {c : Command} : (∃ e, decode et c = .error e) ↔
    ((opField c.word).toNat = 0 ∨ 0x0E ≤ (opField c.word).toNat) ∨
      zeroField c.word ≠ 0 ∨
      (∃ r ∈ opcodeMap, r.op = (opField c.word).toNat ∧ r.RejectsField c.word) ∨
      (((opField c.word).toNat = 0x0B ∨ (opField c.word).toNat = 0x0C) ∧ et = .f32) := by
  by_cases hunassigned : (opField c.word).toNat = 0 ∨ 0x0E ≤ (opField c.word).toNat
  · exact iff_of_true (illegal_of_unassigned hunassigned) (.inl hunassigned)
  obtain ⟨r, hr, hop⟩ := exists_row_of_op (opField c.word).toNat (by omega) (by omega)
  rw [illegal_iff_row hr hop, OpcodeRow.accepts_iff]
  constructor
  · intro hrefuses
    by_cases hz : zeroField c.word = 0
    case neg => exact .inr (.inl hz)
    by_cases hrej : r.RejectsField c.word
    case pos => exact .inr (.inr (.inl ⟨r, hr, hop, hrej⟩))
    have hconverter := (row_unavailable_iff r hr et).mp (hrefuses ⟨hop.symm, hz, hrej⟩)
    rw [hop] at hconverter
    exact .inr (.inr (.inr hconverter))
  · rintro (ha | hz | ⟨q, hq, hqop, hrej⟩ | hconverter) ⟨-, hzero, hfields⟩
    · exact absurd ha hunassigned
    · exact absurd hzero hz
    · obtain rfl := row_eq_of_op hq hr (hqop.trans hop.symm)
      exact absurd hrej hfields
    · rw [← hop] at hconverter
      exact (row_unavailable_iff r hr et).mpr hconverter

/-- The buses give operands only: what the decoder answers, the command itself set aside, is the same
whatever they carry. -/
theorem decodeOp_map_unit (et : EType) (op : Nat) (rd rs1 rs2 : BitVec 4) (x y x' y' : Addr) :
    (fun _ => ()) <$> decodeOp et op rd rs1 rs2 x y =
      (fun _ => ()) <$> decodeOp et op rd rs1 rs2 x' y' := by
  unfold decodeOp
  split <;> simp only [map_bind, map_pure]

theorem map_unit_error_iff {α : Type} {r : Except Illegal α} {e : Illegal} :
    (fun _ => ()) <$> r = .error e ↔ r = .error e := by
  cases r with
  | ok a => exact ⟨nofun, nofun⟩
  | error f => exact ⟨fun h => congrArg _ (Except.error.inj h), fun h => congrArg _ (Except.error.inj h)⟩

theorem decode_error_buses {et : EType} {w : Word} {x y : Addr} (x' y' : Addr) {e : Illegal}
    (h : decode et ⟨w, x, y⟩ = .error e) : decode et ⟨w, x', y'⟩ = .error e := by
  unfold decode at h ⊢
  split at h
  next hz =>
    rw [if_pos hz, ← map_unit_error_iff, decodeOp_map_unit _ _ _ _ _ x' y' x y, map_unit_error_iff]
    exact h
  next hz => rw [if_neg hz, h]

theorem step_illegal {s : State} {c : Command} {rest : List HostAction} {e : Illegal}
    (hp : s.port = .command c :: rest) (hd : decode s.etype c = .error e) :
    step s = .next ((s.accept rest).respond true 0) := by
  simp only [step, hp, hd, illegalCommand]

/-- Settles O3: the clauses say how the one row of the `op` value refuses the word. -/
theorem illegalWordClauses : Obligations.IllegalWordClauses :=
  ⟨fun _ _ => illegal_iff_clauses, fun _ _ _ _ x' y' _ => decode_error_buses x' y',
    fun _ _ _ _ => step_illegal⟩

end Sys2Proof

/-! PROOFS. The legal words, listed row by row and counted (30_encoding.md R73). -/

namespace Sys2Proof

/-! ## The words of a row -/

/-- The values a register field of this kind holds in a legal word (30_encoding.md R62). -/
def FieldKind.values : FieldKind → List (BitVec 4)
  | .vector => [0, 1, 2, 3, 4, 5, 6, 7]
  | .scalar => [0, 1, 2, 3]
  | .unused => [0]

theorem FieldKind.mem_values_iff (k : FieldKind) (f : BitVec 4) :
    f ∈ k.values ↔ k.rejects f = false := by
  cases k <;> revert f <;> decide

theorem FieldKind.values_nodup (k : FieldKind) : k.values.Nodup := by
  cases k <;> decide

/-- The words of a row: its `op` value with every choice of the register fields. -/
def OpcodeRow.words (r : OpcodeRow) : List Word :=
  (r.format.rdKind.values ×ˢ r.format.rs1Kind.values ×ˢ r.format.rs2Kind.values).map fun f =>
    encodeWord r.op f.1.toNat f.2.1.toNat f.2.2.toNat

/-- How many words a row has. -/
def OpcodeRow.wordCount (r : OpcodeRow) : Nat :=
  r.format.rdKind.values.length *
    (r.format.rs1Kind.values.length * r.format.rs2Kind.values.length)

theorem OpcodeRow.words_length (r : OpcodeRow) : r.words.length = r.wordCount := by
  simp [words, wordCount, List.length_product]

theorem row_op_lt {r : OpcodeRow} (hr : r ∈ opcodeMap) : r.op < 256 :=
  (row_op_bounds r hr).2.trans (by decide)

theorem OpcodeRow.mem_words_iff {r : OpcodeRow} (hr : r ∈ opcodeMap) {w : Word} :
    w ∈ r.words ↔ r.Accepts w := by
  simp only [words, List.mem_map, Prod.exists, List.mem_product, FieldKind.mem_values_iff,
    encodeWord_eq_iff (row_op_lt hr)]
  constructor
  · rintro ⟨d, j, k, ⟨hd, h1, h2⟩, hop, rfl, rfl, rfl, hz⟩
    exact ⟨hop, hd, h1, h2, hz⟩
  · rintro ⟨hop, hd, h1, h2, hz⟩
    exact ⟨_, _, _, ⟨hd, h1, h2⟩, hop, rfl, rfl, rfl, hz⟩

/-- Different register fields give different words. -/
theorem OpcodeRow.words_nodup {r : OpcodeRow} (hr : r ∈ opcodeMap) : r.words.Nodup := by
  refine List.Nodup.map ?_ ((FieldKind.values_nodup _).product
    ((FieldKind.values_nodup _).product (FieldKind.values_nodup _)))
  rintro ⟨d, j, k⟩ ⟨d', j', k'⟩ h
  obtain ⟨-, hd, hj, hk, -⟩ := (encodeWord_eq_iff (row_op_lt hr)).mp h
  obtain ⟨-, hd', hj', hk', -⟩ :=
    (encodeWord_eq_iff (d := d') (j := j') (k := k') (row_op_lt hr)).mp rfl
  exact Prod.ext (hd.symm.trans hd') (Prod.ext (hj.symm.trans hj') (hk.symm.trans hk'))

theorem row_words_disjoint {r q : OpcodeRow} (hr : r ∈ opcodeMap) (hq : q ∈ opcodeMap)
    (h : r.op ≠ q.op) : r.words.Disjoint q.words := by
  intro w hwr hwq
  have hrop := ((OpcodeRow.mem_words_iff hr).mp hwr).op_eq
  have hqop := ((OpcodeRow.mem_words_iff hq).mp hwq).op_eq
  exact h (hrop.symm.trans hqop)

/-! ## The words of a variant -/

theorem legalWord_iff_row {et : EType} {w : Word} : legalWord et w = true ↔
    ∃ r ∈ opcodeMap, r.Accepts w ∧ r.availableOn et = true := by
  rw [← decodes_iff_row (c := ⟨w, 0, 0⟩), legalWord]
  cases decode et ⟨w, 0, 0⟩ <;> simp [Except.isOk, Except.toBool]

/-- All legal words for an element type, row by row. -/
def legalWords (et : EType) : List Word :=
  (opcodeMap.filter fun r => r.availableOn et).flatMap OpcodeRow.words

theorem mem_legalWords_iff {et : EType} {w : Word} : w ∈ legalWords et ↔ legalWord et w = true := by
  rw [legalWord_iff_row, legalWords]
  simp only [List.mem_flatMap, List.mem_filter]
  constructor
  · rintro ⟨r, ⟨hr, hav⟩, hw⟩
    exact ⟨r, hr, (OpcodeRow.mem_words_iff hr).mp hw, hav⟩
  · rintro ⟨r, hr, hacc, hav⟩
    exact ⟨r, ⟨hr, hav⟩, (OpcodeRow.mem_words_iff hr).mpr hacc⟩

theorem legalWords_length (et : EType) : (legalWords et).length =
    ((opcodeMap.filter fun r => r.availableOn et).map OpcodeRow.wordCount).sum := by
  rw [legalWords, List.length_flatMap]
  simp only [OpcodeRow.words_length]

theorem legalWords_nodup (et : EType) : (legalWords et).Nodup := by
  have hops : (opcodeMap.filter fun r => r.availableOn et).Pairwise fun r q => r.op ≠ q.op :=
    (List.pairwise_map.mp opcodeMap_ops_nodup).filter _
  refine List.nodup_flatMap.mpr ⟨fun r hr => ?_, hops.imp_of_mem fun hr hq h => ?_⟩
  · exact OpcodeRow.words_nodup (List.mem_of_mem_filter hr)
  · exact row_words_disjoint (List.mem_of_mem_filter hr) (List.mem_of_mem_filter hq) h

theorem row_available_f16 : ∀ r ∈ opcodeMap, r.availableOn .f16 = true := by decide

theorem mem_words_iff_legal_f16 {r : OpcodeRow} (hr : r ∈ opcodeMap) {w : Word} :
    w ∈ r.words ↔ legalWord .f16 w = true ∧ (opField w).toNat = r.op := by
  rw [OpcodeRow.mem_words_iff hr, legalWord_iff_row]
  constructor
  · exact fun hacc => ⟨⟨r, hr, hacc, row_available_f16 r hr⟩, hacc.op_eq⟩
  · rintro ⟨⟨q, hq, hacc, -⟩, hop⟩
    obtain rfl := hacc.row_eq hq hr hop
    exact hacc

/-- Settles O4: the counts are the products of the rows' field choices, and the totals their sums. -/
theorem legalWordCounts : Obligations.LegalWordCounts := by
  refine ⟨fun p hp => ?_, ⟨legalWords .f16, legalWords_nodup _, ?_, fun w => mem_legalWords_iff⟩,
    ⟨legalWords .f32, legalWords_nodup _, ?_, fun w => mem_legalWords_iff⟩⟩
  · have hcounts : p ∈ opcodeMap.map fun r => (r.op, r.wordCount) := hp
    obtain ⟨r, hr, rfl⟩ := List.mem_map.mp hcounts
    exact ⟨r.words, OpcodeRow.words_nodup hr, r.words_length, fun w => mem_words_iff_legal_f16 hr⟩
  · rw [legalWords_length]
    decide
  · rw [legalWords_length]
    decide

end Sys2Proof

/-! PROOFS. The response of every command that is answered (30_encoding.md R69). -/

namespace Sys2Proof.Machine

/-- The `data` of the response to a legal command (30_encoding.md R69). -/
def responseData (s : State) : Instr → Word
  | .sget k => s.readS k
  | .cvths h => h2f h
  | .cvtsh f => (f2h f).setWidth 32
  | .caps => capsWord s.params.variant
  | .vzero _ => 0
  | .vload _ _ => 0
  | .vstore _ _ => 0
  | .vadd _ _ _ => 0
  | .vmul _ _ _ => 0
  | .vacc _ _ => 0
  | .hsum _ _ => 0
  | .smulm _ _ _ => 0
  | .sadd _ _ _ => 0

theorem exec_responses {i : Instr} {s t : State} (hwf : wellFormed s.etype i = true)
    (h : exec i s = .next t) : t.responses = s.responses ++ [⟨false, responseData s i⟩] := by
  cases i with
  | vzero | vadd | vmul | vacc | hsum | sadd | sget | caps =>
    obtain rfl := answered_next.mp h
    rfl
  | vload =>
    obtain ⟨-, rfl⟩ := exec_vload_next.mp h
    rfl
  | vstore =>
    obtain ⟨-, rfl⟩ := exec_vstore_next.mp h
    rfl
  | smulm =>
    obtain ⟨p, -, h⟩ := orFault_next.mp h
    obtain ⟨q, -, h⟩ := orFault_next.mp h
    obtain rfl := answered_next.mp h
    rfl
  | cvths | cvtsh =>
    have het : s.etype = .f16 := eq_of_beq hwf
    simp only [exec, execCvths, execCvtsh, if_pos het] at h
    obtain rfl := answered_next.mp h
    rfl

theorem step_command_cases {s t : State} {c : Command} {rest : List HostAction}
    (hp : s.port = .command c :: rest) (h : step s = .next t) :
    (∃ i, decode s.etype c = .ok i ∧ exec i (s.accept rest) = .next t) ∨
    (∃ e, decode s.etype c = .error e ∧ t = (s.accept rest).respond true 0) := by
  obtain ⟨hp', -⟩ | ⟨_, hp', -⟩ | ⟨_, _, i, hp', hd, hi⟩ | ⟨_, _, e, hp', hd, ht⟩ :=
    step_next_cases h <;> rw [hp] at hp' <;> cases hp'
  · exact .inl ⟨i, hd, hi⟩
  · exact .inr ⟨e, hd, ht⟩

theorem half_setWidth_eq_zero_append (h : Half) : h.setWidth 32 = (0 : BitVec 16) ++ h := by
  rw [BitVec.setWidth_eq_append (by decide)]
  rfl

/-- Settles O11: a legal word's response by `exec_responses`, an illegal one's by the step. -/
theorem responseOfEveryCommand : Obligations.ResponseOfEveryCommand := by
  intro s t c rest hp h
  obtain ⟨i, hd, hi⟩ | ⟨e, hd, rfl⟩ := step_command_cases hp h
  · obtain ⟨-, hwf, -, -⟩ := decode_ok_iff.mp hd
    obtain ⟨-, -, hport⟩ := exec_keepsSurroundings hi
    refine ⟨hport, _, exec_responses (s := s.accept rest) hwf hi, fun e he => ?_, fun j hj => ?_⟩
    · rw [hd] at he
      cases he
    · obtain rfl := Except.ok.inj (hd.symm.trans hj)
      refine ⟨rfl, ?_⟩
      cases i with
      | cvtsh f => exact half_setWidth_eq_zero_append (f2h f)
      | _ => rfl
  · refine ⟨rfl, ⟨true, 0⟩, rfl, fun _ _ => rfl, fun j hj => ?_⟩
    rw [hd] at hj
    cases hj

end Sys2Proof.Machine

/-! PROOFS. Rounding to nearest, ties to even, on natural numbers, and the magnitudes of a binary
format (40_fp_numerics.md R80, R81, R84, R85). Both formats share them: `p` is the number of fraction
bits, and a magnitude counts units of the format's smallest positive value. -/

namespace Sys2Proof.Machine

/-! ## Rounding to a multiple -/

/-- `q` units of size `u` are nearest to `x`, and `q` is even where `x` lies midway between two multiples
of `u`. -/
structure IsRounded (x u q : Nat) : Prop where
  le_add_half : 2 * x ≤ 2 * (q * u) + u
  sub_half_le : 2 * (q * u) ≤ 2 * x + u
  even_of_tie : 2 * x = 2 * (q * u) + u ∨ 2 * x + u = 2 * (q * u) → q % 2 = 0

theorem IsRounded.exact {u : Nat} (hu : 0 < u) (q : Nat) : IsRounded (q * u) u q where
  le_add_half := by omega
  sub_half_le := by omega
  even_of_tie := fun ht => absurd hu (by omega)

/-- Up to half a unit rounds to zero. -/
theorem IsRounded.zero {x u : Nat} (h : 2 * x ≤ u) : IsRounded x u 0 where
  le_add_half := by omega
  sub_half_le := by omega
  even_of_tie := fun _ => rfl

theorem IsRounded.scale {x u q c : Nat} (h : IsRounded x u q) (hc : 0 < c) :
    IsRounded (x * c) (u * c) q := by
  obtain ⟨hle, hge, htie⟩ := h
  have hq : q * (u * c) = q * u * c := (Nat.mul_assoc q u c).symm
  refine ⟨?_, ?_, fun ht => htie (ht.imp (fun ht => ?_) fun ht => ?_)⟩
  · rw [hq]; nlinarith
  · rw [hq]; nlinarith
  · rw [hq] at ht
    exact Nat.eq_of_mul_eq_mul_right hc (by linarith)
  · rw [hq] at ht
    exact Nat.eq_of_mul_eq_mul_right hc (by linarith)

/-- The rounding step of R84 and R93. -/
theorem roundShift_isRounded (n : Nat) {sh : Nat} (hsh : 0 < sh) :
    IsRounded n (2 ^ sh) (roundShift n sh) := by
  obtain ⟨j, rfl⟩ : ∃ j, sh = j + 1 := ⟨sh - 1, by omega⟩
  have hdiv : n / 2 ^ (j + 1) * 2 ^ (j + 1) + n % 2 ^ (j + 1) = n := Nat.div_add_mod' n _
  have hlt : n % 2 ^ (j + 1) < 2 ^ (j + 1) := Nat.mod_lt _ (by positivity)
  have hpow : 2 ^ (j + 1) = 2 * 2 ^ j := Nat.pow_succ'
  simp only [roundShift, Nat.shiftRight_eq_div_pow, Nat.add_sub_cancel]
  generalize n / 2 ^ (j + 1) = q at *
  generalize n % 2 ^ (j + 1) = r at *
  split
  · have hq : (q + 1) * 2 ^ (j + 1) = q * 2 ^ (j + 1) + 2 ^ (j + 1) := Nat.succ_mul _ _
    constructor <;> omega
  · constructor <;> omega

section
variable {x u q : Nat}

/-- Rounding keeps the order with the multiples of the unit. -/
theorem IsRounded.le_of_le {c : Nat} (h : IsRounded x u q) (hu : 0 < u) (hc : c * u ≤ x) : c ≤ q := by
  by_contra hq
  have hmul : (q + 1) * u ≤ c * u := Nat.mul_le_mul_right u (by omega)
  have hle := h.le_add_half
  rw [Nat.succ_mul] at hmul
  omega

theorem IsRounded.le_of_ge {c : Nat} (h : IsRounded x u q) (hu : 0 < u) (hc : x ≤ c * u) : q ≤ c := by
  by_contra hq
  have hmul : (c + 1) * u ≤ q * u := Nat.mul_le_mul_right u (by omega)
  have hge := h.sub_half_le
  rw [Nat.succ_mul] at hmul
  omega

/-- No multiple of the unit is nearer than the rounded one, and an equally near one is another only on a
tie. -/
theorem IsRounded.nearest (h : IsRounded x u q) (m : Int) :
    |(x : Int) - q * u| ≤ |(x : Int) - m * u| ∧
      (|(x : Int) - q * u| = |(x : Int) - m * u| → m * u ≠ (q : Int) * u → q % 2 = 0) := by
  obtain ⟨hle, hge, htie⟩ := h
  zify at hle hge
  have htie' : 2 * (x : Int) = 2 * (q * u) + u ∨ 2 * (x : Int) + u = 2 * (q * u) → q % 2 = 0 := by
    exact_mod_cast htie
  have hu : (0 : Int) ≤ u := Int.natCast_nonneg u
  obtain hlt | heq | hgt := lt_trichotomy m q
  · have hm : m * u + u ≤ q * u := by nlinarith [mul_le_mul_of_nonneg_right hlt hu]
    grind
  · subst heq
    exact ⟨le_refl _, fun _ hne => absurd rfl hne⟩
  · have hm : q * u + u ≤ m * u := by nlinarith [mul_le_mul_of_nonneg_right hgt hu]
    grind

end

/-! ## The magnitudes of a format -/

/-- The magnitude of the pattern whose exponent and fraction fields together read as the number `r`. It
goes on past the largest finite pattern. -/
def latticeMag (p r : Nat) : Nat :=
  if r < 2 ^ p then r else (2 ^ p + r % 2 ^ p) * 2 ^ (r / 2 ^ p - 1)

section
variable {p : Nat}

/-- A significand `q` in units of `2^d` is at index `d * 2^p + q`: a significand that has grown to
`2^(p+1)` carries into the exponent field. -/
theorem latticeMag_index {d q : Nat} (hq : q ≤ 2 ^ (p + 1)) (hd : d = 0 ∨ 2 ^ p ≤ q) :
    latticeMag p (d * 2 ^ p + q) = q * 2 ^ d := by
  have hpos : 0 < 2 ^ p := by positivity
  have hpow : 2 ^ (p + 1) = 2 * 2 ^ p := Nat.pow_succ'
  unfold latticeMag
  split
  next hlt =>
    have hd0 : d = 0 := by
      rcases hd with hd | hd
      · exact hd
      · omega
    simp [hd0]
  next hge =>
    have hpq : 2 ^ p ≤ q := by
      rcases hd with rfl | hd
      · omega
      · exact hd
    obtain ⟨m, rfl⟩ : ∃ m, q = 2 ^ p + m := ⟨q - 2 ^ p, by omega⟩
    have hidx : d * 2 ^ p + (2 ^ p + m) = m + 2 ^ p * (d + 1) := by ring
    rw [hidx, Nat.add_mul_mod_self_left, Nat.add_mul_div_left _ _ hpos]
    obtain hm | rfl : m < 2 ^ p ∨ m = 2 ^ p := by omega
    · rw [Nat.mod_eq_of_lt hm, Nat.div_eq_of_lt hm]
      simp
    · rw [Nat.mod_self, Nat.div_self hpos, show 1 + (d + 1) - 1 = d + 1 by omega, Nat.pow_succ]
      ring

/-- Every index is a significand below `2^(p+1)` and a unit, the significand at least `2^p` above the
smallest unit. -/
theorem exists_index (p r : Nat) :
    ∃ d q, r = d * 2 ^ p + q ∧ q < 2 ^ (p + 1) ∧ (d = 0 ∨ 2 ^ p ≤ q) := by
  have hpos : 0 < 2 ^ p := by positivity
  have hpow : 2 ^ (p + 1) = 2 * 2 ^ p := Nat.pow_succ'
  have hdiv : r / 2 ^ p * 2 ^ p + r % 2 ^ p = r := Nat.div_add_mod' r _
  have hlt : r % 2 ^ p < 2 ^ p := Nat.mod_lt _ hpos
  cases hd : r / 2 ^ p with
  | zero => exact ⟨0, r % 2 ^ p, by rw [hd] at hdiv; omega, by omega, .inl rfl⟩
  | succ d =>
    rw [hd, Nat.succ_mul] at hdiv
    exact ⟨d, 2 ^ p + r % 2 ^ p, by omega, by omega, .inr (by omega)⟩

theorem latticeMag_strictMono (p : Nat) : StrictMono (latticeMag p) := by
  refine strictMono_nat_of_lt_succ fun r => ?_
  obtain ⟨d, q, rfl, hq, hd⟩ := exists_index p r
  rw [Nat.add_assoc, latticeMag_index hq.le hd, latticeMag_index hq (hd.imp_right Nat.le_succ_of_le)]
  exact Nat.mul_lt_mul_of_pos_right (Nat.lt_succ_self q) (by positivity)

@[simp] theorem latticeMag_zero (p : Nat) : latticeMag p 0 = 0 := by simp [latticeMag]

/-- A significand of at most `p + 1` bits, or `2^(p+1)`, is representable in every unit. -/
theorem exists_latticeMag_eq {q : Nat} (d : Nat) (hq : q ≤ 2 ^ (p + 1)) :
    ∃ r, latticeMag p r = q * 2 ^ d := by
  induction d generalizing q with
  | zero => exact ⟨_, latticeMag_index hq (.inl rfl)⟩
  | succ d ih =>
    by_cases hp : 2 ^ p ≤ q
    · exact ⟨_, latticeMag_index hq (.inr hp)⟩
    · obtain ⟨r, hr⟩ := ih (q := 2 * q) (by rw [Nat.pow_succ]; omega)
      exact ⟨r, by rw [hr, Nat.pow_succ]; ring⟩

end

/-! ## Rounding into a format -/

/-- The rounding of `x` in units of `2^-k` of the smallest positive magnitude: the unit in the last place
is `2^d` and the significand `q`, so `x` is rounded to the magnitude at index `d * 2^p + q`
(40_fp_numerics.md R84). -/
structure RoundsTo (p k x d q : Nat) : Prop where
  isRounded : IsRounded x (2 ^ (k + d)) q
  le_of_unit : d = 0 ∨ 2 ^ p * 2 ^ (k + d) ≤ x
  lt_next : x < 2 ^ (p + 1) * 2 ^ (k + d)

namespace RoundsTo
variable {p k x d q : Nat}

theorem sig_le (h : RoundsTo p k x d q) : q ≤ 2 ^ (p + 1) :=
  h.isRounded.le_of_ge (by positivity) h.lt_next.le

theorem unit_cases (h : RoundsTo p k x d q) : d = 0 ∨ 2 ^ p ≤ q :=
  h.le_of_unit.imp_right (h.isRounded.le_of_le (by positivity))

theorem latticeMag_eq (h : RoundsTo p k x d q) : latticeMag p (d * 2 ^ p + q) = q * 2 ^ d :=
  latticeMag_index h.sig_le h.unit_cases

theorem index_mod_two (h : q % 2 = 0) (hp : 0 < p) : (d * 2 ^ p + q) % 2 = 0 := by
  obtain ⟨p, rfl⟩ : ∃ n, p = n + 1 := ⟨p - 1, by omega⟩
  rw [Nat.pow_succ, ← Nat.mul_assoc]
  omega

/-- What a smaller unit in the last place can express lies below `2^p` of the larger units. -/
theorem signed_mul_lt_unit {d' q' : Nat} (s : Bool) (hd : d' < d) (hq : q' < 2 ^ (p + 1)) :
    signed s (q' * 2 ^ d') * 2 ^ k < ((2 ^ p : Nat) : Int) * (2 ^ (k + d) : Nat) := by
  obtain ⟨c, rfl⟩ : ∃ c, d = d' + c + 1 := ⟨d - d' - 1, by omega⟩
  have hlt : q' * 2 ^ d' * 2 ^ k < 2 ^ p * 2 ^ (k + (d' + c + 1)) :=
    calc q' * 2 ^ d' * 2 ^ k = q' * (2 ^ d' * 2 ^ k) := by ring
      _ < 2 ^ (p + 1) * (2 ^ d' * 2 ^ k) := Nat.mul_lt_mul_of_pos_right hq (by positivity)
      _ ≤ 2 ^ (p + 1) * (2 ^ d' * 2 ^ k) * 2 ^ c := Nat.le_mul_of_pos_right _ (by positivity)
      _ = 2 ^ p * 2 ^ (k + (d' + c + 1)) := by ring
  have hpos : (0 : Int) ≤ q' * 2 ^ d' * 2 ^ k := by positivity
  zify at hlt
  cases s
  · simpa [signed] using hlt
  · simp only [signed, if_true]
    push_cast
    linarith

/-- No magnitude of the format, of either sign, is nearer to `x` than the rounded one; if another one is
equally near, the last bit of the rounded index is zero. -/
theorem nearest (h : RoundsTo p k x d q) (hp : 0 < p) (s : Bool) (r : Nat) :
    |(x : Int) - latticeMag p (d * 2 ^ p + q) * 2 ^ k| ≤
        |(x : Int) - signed s (latticeMag p r) * 2 ^ k| ∧
      (|(x : Int) - latticeMag p (d * 2 ^ p + q) * 2 ^ k| =
          |(x : Int) - signed s (latticeMag p r) * 2 ^ k| →
        signed s (latticeMag p r) * 2 ^ k ≠ (latticeMag p (d * 2 ^ p + q) : Int) * 2 ^ k →
        (d * 2 ^ p + q) % 2 = 0) := by
  obtain ⟨d', q', rfl, hq', hd'⟩ := exists_index p r
  have hval : (latticeMag p (d * 2 ^ p + q) : Int) * 2 ^ k = q * (2 ^ (k + d) : Nat) := by
    rw [h.latticeMag_eq]; push_cast; ring
  rw [hval, latticeMag_index hq'.le hd']
  by_cases hdd : d ≤ d'
  · -- a multiple of the unit in the last place
    obtain ⟨c, rfl⟩ := Nat.exists_eq_add_of_le hdd
    have hmul : signed s (q' * 2 ^ (d + c)) * 2 ^ k =
        signed s (q' * 2 ^ c) * ((2 ^ (k + d) : Nat) : Int) := by
      cases s <;> simp only [signed] <;> push_cast <;> ring
    rw [hmul]
    obtain ⟨hle, htie⟩ := h.isRounded.nearest (signed s (q' * 2 ^ c))
    exact ⟨hle, fun heq hne => index_mod_two (htie heq hne) hp⟩
  · -- below `2^p` units in the last place, which `x` is not
    have hbelow := signed_mul_lt_unit (p := p) (k := k) s (not_le.mp hdd) hq'
    have hx : ((2 ^ p : Nat) : Int) * (2 ^ (k + d) : Nat) ≤ x := by
      exact_mod_cast h.le_of_unit.resolve_left (by omega)
    obtain ⟨hle, -⟩ := h.isRounded.nearest (2 ^ p : Nat)
    rw [abs_of_nonneg (sub_nonneg.mpr hx)] at hle
    rw [abs_of_nonneg (sub_nonneg.mpr (hbelow.le.trans hx))]
    exact ⟨by linarith, fun heq => by linarith⟩

/-- A magnitude rounds to zero exactly up to half the smallest positive one. -/
theorem index_eq_zero_iff (h : RoundsTo p k x d q) : d * 2 ^ p + q = 0 ↔ 2 * x ≤ 2 ^ k := by
  have hpos : 0 < 2 ^ p := by positivity
  have hle := h.isRounded.le_add_half
  have hge := h.isRounded.sub_half_le
  have htie := h.isRounded.even_of_tie
  obtain rfl | hd := Nat.eq_zero_or_pos d
  · rw [Nat.add_zero] at hle hge htie
    have hk : 0 < 2 ^ k := by positivity
    constructor
    · intro h0
      obtain rfl : q = 0 := by omega
      omega
    · intro hx
      by_contra hq
      have hq1 : 2 ^ k ≤ q * 2 ^ k := Nat.le_mul_of_pos_left _ (by omega)
      obtain rfl | hq2 : q = 1 ∨ 2 ≤ q := by omega
      · exact absurd (htie (by omega)) (by decide)
      · have := Nat.mul_le_mul_right (2 ^ k) hq2
        omega
  · have hx := h.le_of_unit.resolve_left (by omega)
    have hq := h.unit_cases.resolve_left (by omega)
    have hk : 2 ^ k ≤ 2 ^ (k + d) := Nat.pow_le_pow_right (by decide) (by omega)
    have hk0 : 0 < 2 ^ k := by positivity
    have hu : 2 ^ (k + d) ≤ 2 ^ p * 2 ^ (k + d) := Nat.le_mul_of_pos_left _ hpos
    omega

/-- The significand grows to the next power of two exactly from half a unit below it: the tie is between
an odd significand and that power, so it goes up. -/
theorem sig_eq_iff (h : RoundsTo p k x d q) :
    q = 2 * 2 ^ p ↔ 4 * 2 ^ p * 2 ^ (k + d) ≤ 2 * x + 2 ^ (k + d) := by
  have hle := h.isRounded.le_add_half
  have hge := h.isRounded.sub_half_le
  have htie := h.isRounded.even_of_tie
  have hsig := h.sig_le
  rw [Nat.pow_succ'] at hsig
  have hpow : 4 * 2 ^ p * 2 ^ (k + d) = 2 * (2 * 2 ^ p * 2 ^ (k + d)) := by ring
  constructor
  · rintro rfl
    omega
  · intro hx
    by_contra hq
    have hbelow : (q + 1) * 2 ^ (k + d) ≤ 2 * 2 ^ p * 2 ^ (k + d) := Nat.mul_le_mul_right _ (by omega)
    rw [Nat.succ_mul] at hbelow
    have heven : q % 2 = 0 := htie (by omega)
    have hbelow' : (q + 2) * 2 ^ (k + d) ≤ 2 * 2 ^ p * 2 ^ (k + d) := Nat.mul_le_mul_right _ (by omega)
    rw [Nat.add_mul] at hbelow'
    have hpos : 0 < 2 ^ (k + d) := by positivity
    omega

/-- A magnitude rounds to an exponent field of at least `M + 2` exactly from half a unit in the last place
below the first such magnitude. -/
theorem le_index_iff (h : RoundsTo p k x d q) (M : Nat) :
    (M + 2) * 2 ^ p ≤ d * 2 ^ p + q ↔ 4 * 2 ^ p * 2 ^ (k + M) ≤ 2 * x + 2 ^ (k + M) := by
  have hsig := h.sig_le
  have hlt := h.lt_next
  rw [Nat.pow_succ'] at hsig hlt
  have hsum : (M + 2) * 2 ^ p = M * 2 ^ p + 2 * 2 ^ p := Nat.add_mul ..
  obtain hd | rfl | hd := lt_trichotomy d M
  · have hidx : (d + 1) * 2 ^ p ≤ M * 2 ^ p := Nat.mul_le_mul_right _ hd
    rw [Nat.succ_mul] at hidx
    have hx : x < 2 ^ p * 2 ^ (k + M) :=
      calc x < 2 ^ p * 2 ^ (k + d + 1) := by rw [Nat.pow_succ']; linarith
        _ ≤ 2 ^ p * 2 ^ (k + M) :=
          Nat.mul_le_mul_left _ (Nat.pow_le_pow_right (by decide) (by omega))
    have hself : 2 ^ (k + M) ≤ 2 ^ p * 2 ^ (k + M) := Nat.le_mul_of_pos_left _ (by positivity)
    have hpos : 0 < 2 ^ p := by positivity
    rw [Nat.mul_assoc 4]
    constructor <;> omega
  · rw [← h.sig_eq_iff]
    omega
  · have hidx : (M + 1) * 2 ^ p ≤ d * 2 ^ p := Nat.mul_le_mul_right _ hd
    rw [Nat.succ_mul] at hidx
    have hq := h.unit_cases.resolve_left (by omega)
    have hx : 2 ^ p * 2 ^ (k + M + 1) ≤ x :=
      calc 2 ^ p * 2 ^ (k + M + 1) ≤ 2 ^ p * 2 ^ (k + d) :=
            Nat.mul_le_mul_left _ (Nat.pow_le_pow_right (by decide) (by omega))
        _ ≤ x := h.le_of_unit.resolve_left (by omega)
    rw [Nat.pow_succ'] at hx
    exact iff_of_true (by omega) (le_add_right (by linarith))

end RoundsTo

end Sys2Proof.Machine

/-! PROOFS. The binary32 and binary16 patterns as a sign and an index (40_fp_numerics.md R80, R81): the
exponent and fraction fields together, read as one number, count the magnitudes of the format in rising
order. -/

namespace Sys2Proof.Machine

/-! ## Integers with a sign bit -/

@[simp] theorem signed_zero (s : Bool) : signed s 0 = 0 := by cases s <;> rfl

@[simp] theorem abs_signed (s : Bool) (n : Nat) : |signed s n| = n := by cases s <;> simp [signed]

theorem signed_mul_natCast (s : Bool) (n c : Nat) : signed s n * (c : Int) = signed s (n * c) := by
  cases s <;> simp [signed]

theorem signed_mul_two_pow (s : Bool) (n k : Nat) : signed s n * 2 ^ k = signed s (n * 2 ^ k) := by
  rw [← signed_mul_natCast]
  push_cast
  rfl

theorem signed_mul_signed (s t : Bool) (m n : Nat) :
    signed s m * signed t n = signed (s ^^ t) (m * n) := by
  cases s <;> cases t <;> simp [signed]

theorem signed_lt_zero_iff {s : Bool} {n : Nat} (hn : n ≠ 0) : signed s n < 0 ↔ s = true := by
  have hpos : 0 < n := Nat.pos_of_ne_zero hn
  cases s
  · simp [signed]
  · simpa [signed] using hpos

theorem signed_natAbs (z : Int) : signed (decide (z < 0)) z.natAbs = z := by
  by_cases h : z < 0
  · simp [signed, h, abs_of_neg h]
  · simp [signed, h, abs_of_nonneg (not_lt.mp h)]

theorem signed_not (s : Bool) (n : Nat) : signed (!s) n = -signed s n := by
  cases s <;> simp [signed]

/-- `RoundsTo.nearest` with a sign on both sides: rounding a magnitude is symmetric (40_fp_numerics.md
R84). -/
theorem RoundsTo.nearest_signed {p k x d q : Nat} (h : RoundsTo p k x d q) (hp : 0 < p) (s t : Bool)
    (r : Nat) :
    |signed s x - signed s (latticeMag p (d * 2 ^ p + q)) * 2 ^ k| ≤
        |signed s x - signed t (latticeMag p r) * 2 ^ k| ∧
      (|signed s x - signed s (latticeMag p (d * 2 ^ p + q)) * 2 ^ k| =
          |signed s x - signed t (latticeMag p r) * 2 ^ k| →
        signed t (latticeMag p r) * 2 ^ k ≠ signed s (latticeMag p (d * 2 ^ p + q)) * 2 ^ k →
        (d * 2 ^ p + q) % 2 = 0) := by
  cases s
  case false => exact h.nearest hp t r
  case true =>
    obtain ⟨hle, htie⟩ := h.nearest hp (!t) r
    have hneg (a b : Nat) (c : Int) : signed true a - c = -((a : Int) - -c) := by
      simp only [signed, if_true]
      ring
    simp only [hneg x 0, abs_neg, ← neg_mul, ← signed_not, Bool.not_true]
    refine ⟨hle, fun heq hne => htie heq fun h' => hne ?_⟩
    rw [signed_not, neg_mul, neg_eq_iff_eq_neg, ← neg_mul] at h'
    rw [h']
    rfl

/-! ## Binary32 -/

/-- The exponent and fraction fields read as one number. -/
def index32 (f : Word) : Nat := exp32 f * 2 ^ 23 + frac32 f

theorem sign32_eq (f : Word) : sign32 f = decide (2 ^ 31 ≤ f.toNat) := by
  have hf := f.isLt
  rw [sign32, BitVec.getLsbD, Nat.testBit_eq_decide_div_mod_eq, decide_eq_decide]
  omega

theorem exp32_eq (f : Word) : exp32 f = f.toNat / 2 ^ 23 % 2 ^ 8 := by
  simp [exp32, BitVec.extractLsb'_toNat, Nat.shiftRight_eq_div_pow]

theorem frac32_eq (f : Word) : frac32 f = f.toNat % 2 ^ 23 := by
  simp [frac32, BitVec.extractLsb'_toNat]

theorem exp32_lt (f : Word) : exp32 f < 2 ^ 8 := BitVec.isLt _

theorem frac32_lt (f : Word) : frac32 f < 2 ^ 23 := BitVec.isLt _

theorem index32_eq (f : Word) : index32 f = f.toNat % 2 ^ 31 := by
  rw [index32, exp32_eq, frac32_eq]
  omega

theorem word_eq_of_sign_index {f g : Word} (hs : sign32 f = sign32 g) (hi : index32 f = index32 g) :
    f = g := by
  rw [sign32_eq, sign32_eq, decide_eq_decide] at hs
  rw [index32_eq, index32_eq] at hi
  have hf := f.isLt
  have hg := g.isLt
  exact BitVec.eq_of_toNat_eq (by omega)

theorem getLsbD_zero32 {f : Word} (h : index32 f % 2 = 0) : f.getLsbD 0 = false := by
  rw [index32_eq] at h
  rw [BitVec.getLsbD, Nat.testBit_eq_decide_div_mod_eq, decide_eq_false_iff_not]
  omega

section
variable {f : Word}

theorem isFinite32_iff : isFinite32 f = true ↔ index32 f < 255 * 2 ^ 23 := by
  have he := exp32_lt f
  have hm := frac32_lt f
  simp only [isFinite32, bne_iff_ne, index32]
  omega

theorem isInf32_iff : isInf32 f = true ↔ index32 f = 255 * 2 ^ 23 := by
  have hm := frac32_lt f
  simp only [isInf32, Bool.and_eq_true, beq_iff_eq, index32]
  omega

theorem isNaN32_iff : isNaN32 f = true ↔ 255 * 2 ^ 23 < index32 f := by
  have he := exp32_lt f
  have hm := frac32_lt f
  simp only [isNaN32, Bool.and_eq_true, beq_iff_eq, bne_iff_ne, index32]
  omega

theorem isNaN32_false_iff : isNaN32 f = false ↔ index32 f ≤ 255 * 2 ^ 23 := by
  rw [← Bool.not_eq_true, isNaN32_iff, not_lt]

theorem isZero32_iff : isZero32 f = true ↔ index32 f = 0 := by
  have hm := frac32_lt f
  simp only [isZero32, Bool.and_eq_true, beq_iff_eq, index32]
  omega

theorem isNaN32_of_finite (h : isFinite32 f = true) : isNaN32 f = false := by
  rw [isFinite32_iff] at h
  exact isNaN32_false_iff.mpr h.le

theorem isInf32_of_finite (h : isFinite32 f = true) : isInf32 f = false := by
  rw [isFinite32_iff] at h
  exact Bool.eq_false_iff.mpr (mt isInf32_iff.mp h.ne)

theorem isNaN32_of_inf (h : isInf32 f = true) : isNaN32 f = false :=
  isNaN32_false_iff.mpr (isInf32_iff.mp h).le

theorem isZero32_of_inf (h : isInf32 f = true) : isZero32 f = false := by
  rw [isInf32_iff] at h
  exact Bool.eq_false_iff.mpr fun h0 => absurd (isZero32_iff.mp h0) (by omega)

theorem isFinite32_of_not (hn : isNaN32 f = false) (hi : isInf32 f = false) : isFinite32 f = true := by
  rw [isNaN32_false_iff] at hn
  rw [isFinite32_iff]
  exact hn.lt_of_ne (mt isInf32_iff.mpr (Bool.eq_false_iff.mp hi))

theorem isFinite32_of_zero (h : isZero32 f = true) : isFinite32 f = true := by
  rw [isFinite32_iff, isZero32_iff.mp h]
  decide

/-- A pattern is a NaN, an infinity or a number. -/
theorem class32_cases (f : Word) : isNaN32 f = true ∨ isInf32 f = true ∨ isFinite32 f = true := by
  rw [isNaN32_iff, isInf32_iff, isFinite32_iff]
  omega

theorem class32_infinity_iff : class32 f = .infinity ↔ index32 f = 255 * 2 ^ 23 := by
  have hm := frac32_lt f
  unfold class32 index32
  split_ifs <;> simp <;> omega

theorem class32_quietNaN_iff : class32 f = .quietNaN ↔ exp32 f = 255 ∧ 2 ^ 22 ≤ frac32 f := by
  have hm := frac32_lt f
  have hq : f.getLsbD 22 = decide (2 ^ 22 ≤ frac32 f) := by
    rw [BitVec.getLsbD, Nat.testBit_eq_decide_div_mod_eq, decide_eq_decide, frac32_eq]
    omega
  unfold class32
  rw [hq]
  split_ifs <;> simp_all

end

theorem latticeMag_fields {p m : Nat} (e : Nat) (hm : m < 2 ^ p) :
    latticeMag p (e * 2 ^ p + m) = if e = 0 then m else (2 ^ p + m) * 2 ^ (e - 1) := by
  have hpow : 2 ^ (p + 1) = 2 * 2 ^ p := Nat.pow_succ'
  cases e with
  | zero => simpa using latticeMag_index (d := 0) (q := m) (by omega) (.inl rfl)
  | succ d =>
    rw [if_neg d.succ_ne_zero, Nat.succ_mul, Nat.add_assoc]
    exact latticeMag_index (by omega) (.inr (by omega))

/-- The magnitude of a finite pattern is the one its index counts (40_fp_numerics.md R80). -/
theorem mag32_eq (f : Word) : sig32 f * 2 ^ (scale32 f + 149).toNat = latticeMag 23 (index32 f) := by
  rw [index32, latticeMag_fields _ (frac32_lt f), sig32, scale32]
  split
  · simp
  · rw [show ((exp32 f : Int) - 150 + 149).toNat = exp32 f - 1 by omega]

theorem value32_eq (f : Word) : value32 f = signed (sign32 f) (latticeMag 23 (index32 f)) := by
  rw [value32, Nat.shiftLeft_eq, mag32_eq]

theorem abs_value32 (f : Word) : |value32 f| = latticeMag 23 (index32 f) := by
  rw [value32_eq, abs_signed]

theorem value32_eq_zero_iff {f : Word} : value32 f = 0 ↔ isZero32 f = true := by
  rw [← abs_eq_zero, abs_value32, isZero32_iff, Nat.cast_eq_zero]
  exact (latticeMag_strictMono 23).injective.eq_iff' (latticeMag_zero 23)

/-- The sign and the value determine the pattern. -/
theorem word_eq_of_sign_value {f g : Word} (hs : sign32 f = sign32 g) (hv : value32 f = value32 g) :
    f = g := by
  have habs := congrArg abs hv
  rw [abs_value32, abs_value32, Nat.cast_inj] at habs
  exact word_eq_of_sign_index hs ((latticeMag_strictMono 23).injective habs)

theorem pack32_toNat (s : Bool) (e m : Nat) :
    (pack32 s e m).toNat = s.toNat * 2 ^ 31 + e % 2 ^ 8 * 2 ^ 23 + m % 2 ^ 23 := by
  have h8 : e % 2 ^ 8 < 2 ^ 8 := Nat.mod_lt _ (by decide)
  have h23 : m % 2 ^ 23 < 2 ^ 23 := Nat.mod_lt _ (by decide)
  simp only [pack32, BitVec.toNat_append, BitVec.toNat_ofBool, BitVec.toNat_ofNat]
  rw [← Nat.shiftLeft_add_eq_or_of_lt h8, ← Nat.shiftLeft_add_eq_or_of_lt h23]
  simp only [Nat.shiftLeft_eq]
  omega

@[simp] theorem sign32_pack32 (s : Bool) (e m : Nat) : sign32 (pack32 s e m) = s := by
  have h8 : e % 2 ^ 8 < 2 ^ 8 := Nat.mod_lt _ (by decide)
  rw [sign32_eq, pack32_toNat]
  cases s
  · simp only [Bool.toNat_false, decide_eq_false_iff_not]
    omega
  · simp only [Bool.toNat_true, decide_eq_true_iff]
    omega

@[simp] theorem exp32_pack32 (s : Bool) (e m : Nat) : exp32 (pack32 s e m) = e % 2 ^ 8 := by
  rw [exp32_eq, pack32_toNat]
  omega

@[simp] theorem frac32_pack32 (s : Bool) (e m : Nat) : frac32 (pack32 s e m) = m % 2 ^ 23 := by
  rw [frac32_eq, pack32_toNat]
  omega

@[simp] theorem index32_pack32 (s : Bool) (e m : Nat) :
    index32 (pack32 s e m) = e % 2 ^ 8 * 2 ^ 23 + m % 2 ^ 23 := by
  rw [index32, exp32_pack32, frac32_pack32]

/-- Every index below `2^31` has a pattern of each sign. -/
theorem exists_word (s : Bool) {r : Nat} (hr : r < 2 ^ 31) : ∃ f, sign32 f = s ∧ index32 f = r :=
  ⟨pack32 s (r / 2 ^ 23) (r % 2 ^ 23), sign32_pack32 .., by rw [index32_pack32]; omega⟩

@[simp] theorem index32_infinity (s : Bool) : index32 (pack32 s 255 0) = 255 * 2 ^ 23 := by
  cases s <;> decide

/-! ## Binary16 -/

/-- The exponent and fraction fields read as one number. -/
def index16 (h : Half) : Nat := exp16 h * 2 ^ 10 + frac16 h

theorem sign16_eq (h : Half) : sign16 h = decide (2 ^ 15 ≤ h.toNat) := by
  have hh := h.isLt
  rw [sign16, BitVec.getLsbD, Nat.testBit_eq_decide_div_mod_eq, decide_eq_decide]
  omega

theorem exp16_eq (h : Half) : exp16 h = h.toNat / 2 ^ 10 % 2 ^ 5 := by
  simp [exp16, BitVec.extractLsb'_toNat, Nat.shiftRight_eq_div_pow]

theorem frac16_eq (h : Half) : frac16 h = h.toNat % 2 ^ 10 := by
  simp [frac16, BitVec.extractLsb'_toNat]

theorem exp16_lt (h : Half) : exp16 h < 2 ^ 5 := BitVec.isLt _

theorem frac16_lt (h : Half) : frac16 h < 2 ^ 10 := BitVec.isLt _

theorem index16_eq (h : Half) : index16 h = h.toNat % 2 ^ 15 := by
  rw [index16, exp16_eq, frac16_eq]
  omega

theorem half_eq_of_sign_index {g h : Half} (hs : sign16 g = sign16 h) (hi : index16 g = index16 h) :
    g = h := by
  rw [sign16_eq, sign16_eq, decide_eq_decide] at hs
  rw [index16_eq, index16_eq] at hi
  have hg := g.isLt
  have hh := h.isLt
  exact BitVec.eq_of_toNat_eq (by omega)

theorem getLsbD_zero16 {h : Half} (hi : index16 h % 2 = 0) : h.getLsbD 0 = false := by
  rw [index16_eq] at hi
  rw [BitVec.getLsbD, Nat.testBit_eq_decide_div_mod_eq, decide_eq_false_iff_not]
  omega

section
variable {h : Half}

theorem isFinite16_iff : isFinite16 h = true ↔ index16 h < 31 * 2 ^ 10 := by
  have he := exp16_lt h
  have hm := frac16_lt h
  simp only [isFinite16, bne_iff_ne, index16]
  omega

theorem isNaN16_iff : isNaN16 h = true ↔ 31 * 2 ^ 10 < index16 h := by
  have he := exp16_lt h
  have hm := frac16_lt h
  simp only [isNaN16, Bool.and_eq_true, beq_iff_eq, bne_iff_ne, index16]
  omega

theorem class16_infinity_iff : class16 h = .infinity ↔ index16 h = 31 * 2 ^ 10 := by
  have hm := frac16_lt h
  unfold class16 index16
  split_ifs <;> simp <;> omega

theorem class16_zero_iff : class16 h = .zero ↔ index16 h = 0 := by
  have hm := frac16_lt h
  unfold class16 index16
  split_ifs <;> simp <;> omega

theorem class16_quietNaN_iff : class16 h = .quietNaN ↔ exp16 h = 31 ∧ 2 ^ 9 ≤ frac16 h := by
  have hm := frac16_lt h
  have hq : h.getLsbD 9 = decide (2 ^ 9 ≤ frac16 h) := by
    rw [BitVec.getLsbD, Nat.testBit_eq_decide_div_mod_eq, decide_eq_decide, frac16_eq]
    omega
  unfold class16
  rw [hq]
  split_ifs <;> simp_all

end

theorem value16_eq (h : Half) : value16 h = signed (sign16 h) (latticeMag 10 (index16 h)) := by
  rw [value16, index16, latticeMag_fields _ (frac16_lt h)]
  simp only [Nat.shiftLeft_eq]

theorem abs_value16 (h : Half) : |value16 h| = latticeMag 10 (index16 h) := by
  rw [value16_eq, abs_signed]

theorem half_eq_of_sign_value {g h : Half} (hs : sign16 g = sign16 h) (hv : value16 g = value16 h) :
    g = h := by
  have habs := congrArg abs hv
  rw [abs_value16, abs_value16, Nat.cast_inj] at habs
  exact half_eq_of_sign_index hs ((latticeMag_strictMono 10).injective habs)

theorem pack16Magnitude_toNat (s : Bool) (r : Nat) :
    (pack16Magnitude s r).toNat = s.toNat * 2 ^ 15 + r % 2 ^ 15 := by
  have h15 : r % 2 ^ 15 < 2 ^ 15 := Nat.mod_lt _ (by decide)
  simp only [pack16Magnitude, BitVec.toNat_append, BitVec.toNat_ofBool, BitVec.toNat_ofNat]
  rw [← Nat.shiftLeft_add_eq_or_of_lt h15, Nat.shiftLeft_eq]

@[simp] theorem sign16_pack16Magnitude (s : Bool) (r : Nat) : sign16 (pack16Magnitude s r) = s := by
  rw [sign16_eq, pack16Magnitude_toNat]
  cases s
  · simp only [Bool.toNat_false, decide_eq_false_iff_not]
    omega
  · simp only [Bool.toNat_true, decide_eq_true_iff]
    omega

@[simp] theorem index16_pack16Magnitude (s : Bool) (r : Nat) :
    index16 (pack16Magnitude s r) = r % 2 ^ 15 := by
  rw [index16_eq, pack16Magnitude_toNat]
  omega

theorem pack16_toNat (s : Bool) (e m : Nat) :
    (pack16 s e m).toNat = s.toNat * 2 ^ 15 + e % 2 ^ 5 * 2 ^ 10 + m % 2 ^ 10 := by
  have h5 : e % 2 ^ 5 < 2 ^ 5 := Nat.mod_lt _ (by decide)
  have h10 : m % 2 ^ 10 < 2 ^ 10 := Nat.mod_lt _ (by decide)
  simp only [pack16, BitVec.toNat_append, BitVec.toNat_ofBool, BitVec.toNat_ofNat]
  rw [← Nat.shiftLeft_add_eq_or_of_lt h5, ← Nat.shiftLeft_add_eq_or_of_lt h10]
  simp only [Nat.shiftLeft_eq]
  omega

@[simp] theorem exp16_pack16 (s : Bool) (e m : Nat) : exp16 (pack16 s e m) = e % 2 ^ 5 := by
  rw [exp16_eq, pack16_toNat]
  omega

@[simp] theorem frac16_pack16 (s : Bool) (e m : Nat) : frac16 (pack16 s e m) = m % 2 ^ 10 := by
  rw [frac16_eq, pack16_toNat]
  omega

@[simp] theorem index16_pack16 (s : Bool) (e m : Nat) :
    index16 (pack16 s e m) = e % 2 ^ 5 * 2 ^ 10 + m % 2 ^ 10 := by
  rw [index16, exp16_pack16, frac16_pack16]

@[simp] theorem sign16_pack16 (s : Bool) (e m : Nat) : sign16 (pack16 s e m) = s := by
  have h5 : e % 2 ^ 5 < 2 ^ 5 := Nat.mod_lt _ (by decide)
  have h10 : m % 2 ^ 10 < 2 ^ 10 := Nat.mod_lt _ (by decide)
  rw [sign16_eq, pack16_toNat]
  cases s
  · simp only [Bool.toNat_false, decide_eq_false_iff_not]
    omega
  · simp only [Bool.toNat_true, decide_eq_true_iff]
    omega

@[simp] theorem index16_infinity (s : Bool) : index16 (pack16 s 31 0) = 31 * 2 ^ 10 := by
  cases s <;> decide

/-- A pattern is its sign and its two fields. -/
theorem half_eq_pack16 (h : Half) : h = pack16 (sign16 h) (exp16 h) (frac16 h) := by
  have he := exp16_lt h
  have hm := frac16_lt h
  refine half_eq_of_sign_index (sign16_pack16 ..).symm ?_
  rw [index16_pack16, Nat.mod_eq_of_lt he, Nat.mod_eq_of_lt hm, index16]

/-! ## The quiet bit -/

theorem or_two_pow (x n : Nat) : x ||| 2 ^ n = x / 2 ^ n / 2 * 2 ^ (n + 1) + 2 ^ n + x % 2 ^ n := by
  have hlow : (x ||| 2 ^ n) % 2 ^ n = x % 2 ^ n := by simp [Nat.or_mod_two_pow]
  have hhigh : (x ||| 2 ^ n) / 2 ^ n = x / 2 ^ n ||| 1 := by simp [Nat.or_div_two_pow]
  have hodd : (x / 2 ^ n ||| 1) = x / 2 ^ n / 2 * 2 + 1 := by
    have hmod : (x / 2 ^ n ||| 1) % 2 = 1 := by simp
    have hdiv : (x / 2 ^ n ||| 1) / 2 = x / 2 ^ n / 2 := by simp [Nat.or_div_two]
    omega
  rw [← Nat.div_add_mod' (x ||| 2 ^ n) (2 ^ n), hlow, hhigh, hodd]
  ring

theorem pack32_or_quiet (s : Bool) (e m : Nat) :
    pack32 s e m ||| 0x00400000 = pack32 s e (2 ^ 22 + m % 2 ^ 22) := by
  apply BitVec.eq_of_toNat_eq
  rw [BitVec.toNat_or, pack32_toNat, pack32_toNat, show (0x00400000 : Word).toNat = 2 ^ 22 by decide,
    or_two_pow]
  omega

theorem pack16_or_quiet (s : Bool) (e m : Nat) :
    pack16 s e m ||| 0x0200 = pack16 s e (2 ^ 9 + m % 2 ^ 9) := by
  apply BitVec.eq_of_toNat_eq
  rw [BitVec.toNat_or, pack16_toNat, pack16_toNat, show (0x0200 : Half).toNat = 2 ^ 9 by decide,
    or_two_pow]
  omega

end Sys2Proof.Machine

/-! PROOFS. `round_pack32` rounds to nearest, ties to even, and saturates at infinity (40_fp_numerics.md
R84, R85). -/

namespace Sys2Proof.Machine

theorem bitlength_bounds {n : Nat} (hn : 0 < n) :
    0 < bitlength n ∧ 2 ^ (bitlength n - 1) ≤ n ∧ n < 2 ^ bitlength n := by
  rw [bitlength, if_neg hn.ne']
  exact ⟨Nat.succ_pos _, Nat.log2_self_le hn.ne', Nat.lt_log2_self⟩

theorem unitExponent_cases (N : Nat) (E : Int) :
    (bitlength N + E < -125 ∧ unitExponent N E = -149) ∨
      (-125 ≤ bitlength N + E ∧ unitExponent N E = bitlength N + E - 24) := by
  unfold unitExponent
  simp only
  split <;> omega

/-- The last step of `round_pack32` makes the significand and its unit an index, and every index past
the finite ones an infinity. -/
theorem packSig_fields (s : Bool) {q d : Nat} {qe : Int} (hqe : qe + 149 = d) (hq : q ≤ 2 ^ 24)
    (hd : d = 0 ∨ 2 ^ 23 ≤ q) :
    sign32 (packSig s q qe) = s ∧
      index32 (packSig s q qe) = min (d * 2 ^ 23 + q) (255 * 2 ^ 23) := by
  unfold packSig
  split_ifs with h24 _ hlt <;> refine ⟨sign32_pack32 .., ?_⟩
  case pos => rw [index32_infinity, min_eq_right (by omega)]
  case neg =>
    rw [index32_pack32]
    omega
  case pos =>
    obtain rfl : d = 0 := hd.resolve_right (not_le.mpr hlt)
    rw [index32_pack32, Nat.zero_mod, Nat.mod_eq_of_lt hlt, min_eq_left (by omega)]
  case pos => rw [index32_infinity, min_eq_right (by omega)]
  case neg =>
    rw [index32_pack32]
    omega

section
variable {N : Nat} {E : Int} {k : Nat}

/-- The significand and the unit that `round_pack32` computes round `N * 2^E`, counted in units of
`2^(-149-k)`. -/
theorem roundPack32_roundsTo (hN : 0 < N) (hk : 0 ≤ E + 149 + k) :
    RoundsTo 23 k (N * 2 ^ (E + 149 + k).toNat) (unitExponent N E + 149).toNat (roundedSig N E) := by
  obtain ⟨hbl, hlow, hhigh⟩ := bitlength_bounds hN
  have hunit := unitExponent_cases N E
  constructor
  case isRounded =>
    by_cases hsh : unitExponent N E - E ≤ 0
    · have hexp : (E + 149 + k).toNat =
          (-(unitExponent N E - E)).toNat + (k + (unitExponent N E + 149).toNat) := by omega
      rw [roundedSig, if_pos hsh, hexp, Nat.pow_add, ← Nat.mul_assoc, Nat.shiftLeft_eq]
      exact IsRounded.exact (by positivity) _
    · have hexp : k + (unitExponent N E + 149).toNat =
          (unitExponent N E - E).toNat + (E + 149 + k).toNat := by omega
      rw [roundedSig, if_neg hsh, hexp, Nat.pow_add]
      exact (roundShift_isRounded N (by omega)).scale (by positivity)
  case le_of_unit =>
    obtain ⟨-, hqe⟩ | ⟨hge, hqe⟩ := hunit
    · exact .inl (by omega)
    · right
      rw [← Nat.pow_add, show 23 + (k + (unitExponent N E + 149).toNat) =
        bitlength N - 1 + (E + 149 + k).toNat by omega, Nat.pow_add]
      exact Nat.mul_le_mul_right _ hlow
  case lt_next =>
    calc N * 2 ^ (E + 149 + k).toNat < 2 ^ bitlength N * 2 ^ (E + 149 + k).toNat :=
          Nat.mul_lt_mul_of_pos_right hhigh (by positivity)
      _ = 2 ^ (bitlength N + (E + 149 + k).toNat) := (Nat.pow_add ..).symm
      _ ≤ 2 ^ (23 + 1 + (k + (unitExponent N E + 149).toNat)) :=
          Nat.pow_le_pow_right (by decide) (by omega)
      _ = 2 ^ (23 + 1) * 2 ^ (k + (unitExponent N E + 149).toNat) := Nat.pow_add ..

theorem roundPack32_fields (s : Bool) (E : Int) (hN : 0 < N) :
    sign32 (roundPack32 s N E) = s ∧ index32 (roundPack32 s N E) =
      min ((unitExponent N E + 149).toNat * 2 ^ 23 + roundedSig N E) (255 * 2 ^ 23) := by
  have hround := roundPack32_roundsTo (k := (-(E + 149)).toNat) (E := E) hN (by omega)
  have hunit := unitExponent_cases N E
  exact packSig_fields s (by omega) hround.sig_le hround.unit_cases

theorem isFinite32_roundPack32_iff (s : Bool) (E : Int) (hN : 0 < N) :
    isFinite32 (roundPack32 s N E) = true ↔
      (unitExponent N E + 149).toNat * 2 ^ 23 + roundedSig N E < 255 * 2 ^ 23 := by
  obtain ⟨-, hi⟩ := roundPack32_fields s E hN
  rw [isFinite32_iff, hi]
  omega

end

/-- Settles O43: the index is zero, or past the finite ones, exactly as the rounding says. -/
theorem roundPackThresholds : Obligations.RoundPackThresholds := by
  intro sg N E k hN hk
  obtain ⟨hs, hi⟩ := roundPack32_fields sg E hN
  have hround := roundPack32_roundsTo (k := k + 1) (E := E) hN (by omega)
  rw [show (E + 149 + ((k + 1 : Nat) : Int)).toNat = (E + 150 + k).toNat by omega] at hround
  have hzero := hround.index_eq_zero_iff
  have hinf := hround.le_index_iff 253
  rw [Nat.pow_succ] at hzero
  have hpow : 2 ^ (k + 1 + 253) = 2 ^ 104 * 2 ^ (150 + k) := by ring
  rw [hpow] at hinf
  rw [isZero32_iff, isInf32_iff, isNaN32_false_iff, hi]
  refine ⟨hs, ?_, ?_, min_le_right _ _⟩
  · omega
  · omega

/-- Settles O42: the finite patterns are the magnitudes of the format, of either sign. -/
theorem roundPackIsNearestEven : Obligations.RoundPackIsNearestEven := by
  intro sg N E k f hN hk hfin _
  obtain ⟨hs, hi⟩ := roundPack32_fields sg E hN
  have hlt := (isFinite32_roundPack32_iff sg E hN).mp hfin
  rw [min_eq_left hlt.le] at hi
  have hround := roundPack32_roundsTo hN hk
  obtain ⟨hle, htie⟩ := hround.nearest_signed (by decide) sg (sign32 f) (index32 f)
  have hvalue : value32 (roundPack32 sg N E) = signed sg (latticeMag 23
      ((unitExponent N E + 149).toNat * 2 ^ 23 + roundedSig N E)) := by rw [value32_eq, hs, hi]
  rw [← hvalue, ← value32_eq] at hle htie
  exact ⟨hle, fun heq hne => getLsbD_zero32 (hi ▸ htie heq hne)⟩

end Sys2Proof.Machine

/-! PROOFS. The adder and the multiplier of one lane (40_fp_numerics.md R88 to R90, R102): what they do
with each class of operand, and that finite operands are computed exactly and rounded once. -/

namespace Sys2Proof.Machine

/-! ## Correct rounding -/

/-- `r` is the exact number `z`, counted in units of `2^(-149-k)`, rounded once to binary32, to nearest
with ties to even; from `2^128 - 2^103` up it is an infinity (40_fp_numerics.md R84, R85). -/
structure CorrectlyRounded (z : Int) (k : Nat) (r : Word) : Prop where
  not_nan : isNaN32 r = false
  inf_iff : isInf32 r = true ↔ (2 ^ 128 - 2 ^ 103) * 2 ^ (149 + k) ≤ |z|
  nearest : isFinite32 r = true → ∀ f : Word, isFinite32 f = true →
    |z - value32 r * 2 ^ k| ≤ |z - value32 f * 2 ^ k| ∧
      (|z - value32 r * 2 ^ k| = |z - value32 f * 2 ^ k| → value32 f ≠ value32 r →
        r.getLsbD 0 = false)

theorem roundPack32_correctlyRounded (s : Bool) {N : Nat} {E : Int} {k : Nat} (hN : 0 < N)
    (hk : 0 ≤ E + 149 + k) :
    CorrectlyRounded (signed s (N * 2 ^ (E + 149 + k).toNat)) k (roundPack32 s N E) := by
  obtain ⟨-, -, hinf, hnan⟩ := roundPackThresholds s N E k hN (by omega)
  refine ⟨hnan, ?_, fun hfin f hf => ?_⟩
  · rw [hinf, abs_signed, show (E + 150 + k).toNat = (E + 149 + k).toNat + 1 by omega,
      show 150 + k = 149 + k + 1 by omega, pow_succ 2 (149 + k),
      pow_succ 2 (E + 149 + k).toNat, ← Nat.mul_assoc, ← Nat.mul_assoc,
      Nat.mul_le_mul_right_iff (by decide), ← Nat.cast_le (α := Int), Nat.cast_mul,
      Nat.cast_sub (by decide)]
    push_cast
    rfl
  · obtain ⟨hle, htie⟩ := roundPackIsNearestEven s N E k f hN hk hfin hf
    exact ⟨hle, fun heq hne => htie heq fun h => hne (mul_right_cancel₀ (by positivity) h)⟩

theorem zero_correctlyRounded {r : Word} (k : Nat) (hr : isZero32 r = true) :
    CorrectlyRounded 0 k r := by
  have hfin := isFinite32_of_zero hr
  refine ⟨isNaN32_of_finite hfin, ?_, fun _ f _ => ?_⟩
  · rw [isInf32_of_finite hfin, abs_zero]
    simp
  · rw [value32_eq_zero_iff.mpr hr, zero_mul, sub_zero, abs_zero]
    refine ⟨abs_nonneg _, fun heq hne => absurd ?_ hne⟩
    simpa using heq.symm

/-- The magnitude of a number stays a unit in the last place below `2^128`. -/
theorem abs_value32_lt {f : Word} (hf : isFinite32 f = true) :
    |value32 f| < (2 ^ 128 - 2 ^ 103) * 2 ^ 149 := by
  have hidx := isFinite32_iff.mp hf
  have hmono := (latticeMag_strictMono 23).monotone
    (show index32 f ≤ 253 * 2 ^ 23 + (2 ^ 24 - 1) by omega)
  rw [latticeMag_index (by decide) (by decide)] at hmono
  rw [abs_value32]
  calc (latticeMag 23 (index32 f) : Int) ≤ ((2 ^ 24 - 1) * 2 ^ 253 : Nat) := by exact_mod_cast hmono
    _ < (2 ^ 128 - 2 ^ 103) * 2 ^ 149 := by norm_num

/-- A number that is a binary32 value is not changed by rounding. -/
theorem CorrectlyRounded.eq_of_exact {z : Int} {k : Nat} {r f : Word} (h : CorrectlyRounded z k r)
    (hf : isFinite32 f = true) (hz : z = value32 f * 2 ^ k) :
    isFinite32 r = true ∧ value32 r = value32 f := by
  have hfin : isFinite32 r = true := by
    obtain hnan | hinf | hfin := class32_cases r
    · rw [h.not_nan] at hnan
      cases hnan
    · have hlt := mul_lt_mul_of_pos_right (abs_value32_lt hf) (show (0 : Int) < 2 ^ k by positivity)
      rw [h.inf_iff, hz, abs_mul, abs_of_pos (show (0 : Int) < 2 ^ k by positivity), pow_add,
        ← mul_assoc] at hinf
      exact absurd hinf hlt.not_ge
    · exact hfin
  obtain ⟨hle, -⟩ := h.nearest hfin f hf
  rw [← hz, sub_self, abs_zero, abs_nonpos_iff, sub_eq_zero, hz] at hle
  exact ⟨hfin, (mul_right_cancel₀ (by positivity) hle).symm⟩

/-! ## The adder, class by class (R89) -/

section
variable {nan a b : Word}

theorem fadd32_of_nan (h : isNaN32 a = true ∨ isNaN32 b = true) : fadd32 nan a b = nan := by
  rw [fadd32, if_pos (by simpa using h)]

theorem fadd32_of_inf_inf (ha : isInf32 a = true) (hb : isInf32 b = true) :
    fadd32 nan a b = if sign32 a = sign32 b then a else nan := by
  simp [fadd32, ha, hb, isNaN32_of_inf]

theorem fadd32_of_inf_finite (ha : isInf32 a = true) (hb : isFinite32 b = true) :
    fadd32 nan a b = a := by
  simp [fadd32, ha, isNaN32_of_inf, isNaN32_of_finite hb, isInf32_of_finite hb]

theorem fadd32_of_finite_inf (ha : isFinite32 a = true) (hb : isInf32 b = true) :
    fadd32 nan a b = b := by
  simp [fadd32, hb, isNaN32_of_inf, isNaN32_of_finite ha, isInf32_of_finite ha]

theorem fadd32_of_zero_zero (ha : isZero32 a = true) (hb : isZero32 b = true) :
    fadd32 nan a b = pack32 (sign32 a && sign32 b) 0 0 := by
  simp [fadd32, ha, hb, isNaN32_of_finite, isInf32_of_finite, isFinite32_of_zero]

/-- The signed sum of the significands at the smaller exponent. -/
def alignedSum (a b : Word) : Int :=
  alignedSig a (min (scale32 a) (scale32 b)) + alignedSig b (min (scale32 a) (scale32 b))

theorem fadd32_of_finite (ha : isFinite32 a = true) (hb : isFinite32 b = true)
    (h : ¬(isZero32 a = true ∧ isZero32 b = true)) :
    fadd32 nan a b =
      if alignedSum a b = 0 then pack32 false 0 0
      else roundPack32 (decide (alignedSum a b < 0)) (alignedSum a b).natAbs
        (min (scale32 a) (scale32 b)) := by
  have h' : (isZero32 a && isZero32 b) = false := by
    rw [← Bool.not_eq_true, Bool.and_eq_true]
    exact h
  rw [fadd32, isNaN32_of_finite ha, isNaN32_of_finite hb, isInf32_of_finite ha,
    isInf32_of_finite hb, h']
  rfl

theorem neg_149_le_scale32 (f : Word) : -149 ≤ scale32 f := by
  unfold scale32
  split <;> omega

theorem alignedSig_mul {f : Word} {em : Int} (h : -149 ≤ em) (hem : em ≤ scale32 f) :
    alignedSig f em * 2 ^ (em + 149).toNat = value32 f := by
  rw [alignedSig, signed_mul_two_pow, Nat.shiftLeft_eq, Nat.mul_assoc, ← Nat.pow_add, value32,
    Nat.shiftLeft_eq,
    show (scale32 f - em).toNat + (em + 149).toNat = (scale32 f + 149).toNat by omega]

theorem alignedSum_mul (a b : Word) :
    alignedSum a b * 2 ^ (min (scale32 a) (scale32 b) + 149).toNat = value32 a + value32 b := by
  have hem := le_min (neg_149_le_scale32 a) (neg_149_le_scale32 b)
  rw [alignedSum, add_mul, alignedSig_mul hem (min_le_left _ _), alignedSig_mul hem (min_le_right _ _)]

theorem alignedSum_eq_zero_iff : alignedSum a b = 0 ↔ value32 a + value32 b = 0 := by
  rw [← alignedSum_mul, mul_eq_zero_iff_right (by positivity)]

theorem alignedSum_lt_zero_iff : alignedSum a b < 0 ↔ value32 a + value32 b < 0 := by
  have hpos : (0 : Int) < 2 ^ (min (scale32 a) (scale32 b) + 149).toNat := by positivity
  rw [← alignedSum_mul, ← mul_lt_mul_iff_left₀ hpos, zero_mul]

/-- An exact zero sum is `+0`, and `-0` for two operands `-0` alone. -/
theorem fadd32_of_sum_zero (ha : isFinite32 a = true) (hb : isFinite32 b = true)
    (h : value32 a + value32 b = 0) :
    fadd32 nan a b = pack32 (isZero32 a && isZero32 b && sign32 a && sign32 b) 0 0 := by
  by_cases h0 : isZero32 a = true ∧ isZero32 b = true
  · rw [fadd32_of_zero_zero h0.1 h0.2, h0.1, h0.2, Bool.true_and, Bool.true_and]
  · have h0' : (isZero32 a && isZero32 b) = false := by
      rwa [← Bool.not_eq_true, Bool.and_eq_true]
    rw [fadd32_of_finite ha hb h0, if_pos (alignedSum_eq_zero_iff.mpr h), h0', Bool.false_and,
      Bool.false_and]

theorem fadd32_of_sum_ne_zero (ha : isFinite32 a = true) (hb : isFinite32 b = true)
    (h : value32 a + value32 b ≠ 0) :
    fadd32 nan a b = roundPack32 (decide (value32 a + value32 b < 0)) (alignedSum a b).natAbs
      (min (scale32 a) (scale32 b)) := by
  have h0 : ¬(isZero32 a = true ∧ isZero32 b = true) := fun h0 => h (by
    rw [value32_eq_zero_iff.mpr h0.1, value32_eq_zero_iff.mpr h0.2, add_zero])
  rw [fadd32_of_finite ha hb h0, if_neg (mt alignedSum_eq_zero_iff.mp h)]
  simp only [alignedSum_lt_zero_iff]

theorem alignedSum_natAbs_pos (h : value32 a + value32 b ≠ 0) : 0 < (alignedSum a b).natAbs :=
  Int.natAbs_pos.mpr (mt alignedSum_eq_zero_iff.mp h)

theorem isZero32_pack32_zero (s : Bool) : isZero32 (pack32 s 0 0) = true := by
  cases s <;> decide

/-- The adder rounds the exact sum once (R89). -/
theorem fadd32_correctlyRounded (nan : Word) (ha : isFinite32 a = true) (hb : isFinite32 b = true) :
    CorrectlyRounded (value32 a + value32 b) 0 (fadd32 nan a b) := by
  by_cases h : value32 a + value32 b = 0
  · rw [fadd32_of_sum_zero ha hb h, h]
    exact zero_correctlyRounded 0 (isZero32_pack32_zero _)
  · have hem := le_min (neg_149_le_scale32 a) (neg_149_le_scale32 b)
    have hround := roundPack32_correctlyRounded (decide (value32 a + value32 b < 0)) (k := 0)
      (E := min (scale32 a) (scale32 b)) (alignedSum_natAbs_pos h) (by omega)
    rw [← fadd32_of_sum_ne_zero (nan := nan) ha hb h, Nat.cast_zero, add_zero,
      ← signed_mul_two_pow] at hround
    simp only [← alignedSum_lt_zero_iff] at hround
    rwa [signed_natAbs, alignedSum_mul] at hround

theorem sign32_fadd32 (nan : Word) (ha : isFinite32 a = true) (hb : isFinite32 b = true)
    (h : value32 a + value32 b ≠ 0) :
    sign32 (fadd32 nan a b) = decide (value32 a + value32 b < 0) := by
  rw [fadd32_of_sum_ne_zero ha hb h]
  exact (roundPack32_fields _ _ (alignedSum_natAbs_pos h)).1

/-- A sum that is not zero is at least the smallest positive value, so it never rounds to zero. -/
theorem isZero32_fadd32 (nan : Word) (ha : isFinite32 a = true) (hb : isFinite32 b = true)
    (h : value32 a + value32 b ≠ 0) : isZero32 (fadd32 nan a b) = false := by
  have hem := le_min (neg_149_le_scale32 a) (neg_149_le_scale32 b)
  have hpos := alignedSum_natAbs_pos h
  rw [fadd32_of_sum_ne_zero ha hb h, ← Bool.not_eq_true]
  obtain ⟨-, hzero, -, -⟩ := roundPackThresholds (decide (value32 a + value32 b < 0)) _ _ 0 hpos
    (show 0 ≤ min (scale32 a) (scale32 b) + 150 + (0 : Nat) by omega)
  rw [hzero, not_le, pow_zero]
  exact Nat.lt_of_lt_of_le (Nat.one_lt_two_pow (by omega)) (Nat.le_mul_of_pos_left _ hpos)

/-! ## The multiplier, class by class (R90) -/

theorem fmul32_of_nan (h : isNaN32 a = true ∨ isNaN32 b = true) : fmul32 nan a b = nan := by
  rw [fmul32, if_pos (by simpa using h)]

theorem fmul32_of_inf_zero
    (h : isInf32 a = true ∧ isZero32 b = true ∨ isZero32 a = true ∧ isInf32 b = true) :
    fmul32 nan a b = nan := by
  obtain ⟨ha, hb⟩ | ⟨ha, hb⟩ := h
  · simp [fmul32, ha, hb]
  · simp [fmul32, ha, hb]

theorem fmul32_of_inf (hna : isNaN32 a = false) (hnb : isNaN32 b = false)
    (hinf : isInf32 a = true ∨ isInf32 b = true) (ha : isZero32 a = false) (hb : isZero32 b = false) :
    fmul32 nan a b = pack32 (sign32 a ^^ sign32 b) 255 0 := by
  rw [← Bool.or_eq_true] at hinf
  simp [fmul32, hna, hnb, hinf, ha, hb]

theorem fmul32_of_zero (ha : isFinite32 a = true) (hb : isFinite32 b = true)
    (h : isZero32 a = true ∨ isZero32 b = true) :
    fmul32 nan a b = pack32 (sign32 a ^^ sign32 b) 0 0 := by
  rw [← Bool.or_eq_true] at h
  simp [fmul32, isNaN32_of_finite, isInf32_of_finite, ha, hb, h]

theorem fmul32_of_nonzero (ha : isFinite32 a = true) (hb : isFinite32 b = true)
    (ha0 : isZero32 a = false) (hb0 : isZero32 b = false) :
    fmul32 nan a b =
      roundPack32 (sign32 a ^^ sign32 b) (sig32 a * sig32 b) (scale32 a + scale32 b) := by
  simp [fmul32, isNaN32_of_finite, isInf32_of_finite, ha, hb, ha0, hb0]

theorem sig32_pos {f : Word} (h : isZero32 f = false) : 0 < sig32 f := by
  rw [isZero32, Bool.and_eq_false_iff] at h
  simp only [beq_eq_false_iff_ne] at h
  unfold sig32
  split <;> omega

/-- The exact product in units of `2^-298`. -/
theorem value32_mul_value32 (a b : Word) : value32 a * value32 b =
    signed (sign32 a ^^ sign32 b)
      (sig32 a * sig32 b * 2 ^ (scale32 a + scale32 b + 149 + 149).toNat) := by
  have ha := neg_149_le_scale32 a
  have hb := neg_149_le_scale32 b
  rw [value32, value32, signed_mul_signed, Nat.shiftLeft_eq, Nat.shiftLeft_eq,
    show (scale32 a + scale32 b + 149 + 149).toNat =
      (scale32 a + 149).toNat + (scale32 b + 149).toNat by omega, Nat.pow_add, Nat.mul_mul_mul_comm]

/-- The multiplier rounds the exact product once (R90). -/
theorem fmul32_correctlyRounded (nan : Word) (ha : isFinite32 a = true) (hb : isFinite32 b = true) :
    CorrectlyRounded (value32 a * value32 b) 149 (fmul32 nan a b) ∧
      sign32 (fmul32 nan a b) = (sign32 a ^^ sign32 b) := by
  by_cases h : isZero32 a = true ∨ isZero32 b = true
  · have hz : value32 a * value32 b = 0 :=
      mul_eq_zero.mpr (h.imp value32_eq_zero_iff.mpr value32_eq_zero_iff.mpr)
    rw [fmul32_of_zero ha hb h, hz]
    exact ⟨zero_correctlyRounded 149 (isZero32_pack32_zero _), sign32_pack32 ..⟩
  · rw [not_or, Bool.not_eq_true, Bool.not_eq_true] at h
    obtain ⟨ha0, hb0⟩ := h
    have hN := Nat.mul_pos (sig32_pos ha0) (sig32_pos hb0)
    have hsa := neg_149_le_scale32 a
    have hsb := neg_149_le_scale32 b
    rw [fmul32_of_nonzero ha hb ha0 hb0, value32_mul_value32]
    exact ⟨roundPack32_correctlyRounded _ hN (by push_cast; omega), (roundPack32_fields _ _ hN).1⟩

end

end Sys2Proof.Machine

/-! PROOFS. What the adder and the multiplier guarantee (40_fp_numerics.md R88 to R90, R102). -/

namespace Sys2Proof.Machine

/-! ## Zeros and ones -/

theorem isZero32_eq_pack32 {f : Word} (h : isZero32 f = true) : f = pack32 (sign32 f) 0 0 :=
  word_eq_of_sign_index (sign32_pack32 ..).symm (by simp [isZero32_iff.mp h])

theorem eq_negZero_iff {f : Word} : f = 0x80000000 ↔ isZero32 f = true ∧ sign32 f = true := by
  constructor
  · rintro rfl
    decide
  · rintro ⟨h0, hs⟩
    rw [isZero32_eq_pack32 h0, hs]
    decide

theorem posZero_eq_pack32 : (0x00000000 : Word) = pack32 false 0 0 := by decide

theorem isZero32_negZero : isZero32 0x80000000 = true := by decide

theorem isZero32_posZero : isZero32 0x00000000 = true := by decide

/-- An exact zero sum, in the patterns of the operands (R89). -/
theorem fadd32_sum_zero_eq {nan a b : Word} (ha : isFinite32 a = true) (hb : isFinite32 b = true)
    (h : value32 a + value32 b = 0) :
    fadd32 nan a b = if a = 0x80000000 ∧ b = 0x80000000 then 0x80000000 else 0x00000000 := by
  rw [fadd32_of_sum_zero ha hb h]
  split
  next hneg =>
    obtain ⟨rfl, rfl⟩ := hneg
    decide
  next hneg =>
    rw [eq_negZero_iff, eq_negZero_iff] at hneg
    have hfalse : (isZero32 a && isZero32 b && sign32 a && sign32 b) = false := by
      rw [← Bool.not_eq_true]
      simp only [Bool.and_eq_true]
      tauto
    rw [hfalse]
    decide

/-! ## The rounded sum and the rounded product -/

/-- Settles O44: the result is the exact sum rounded once. -/
theorem adderRoundsExactSum : Obligations.AdderRoundsExactSum := by
  intro nan a b ha hb
  obtain ⟨hnan, hinf, hnear⟩ := fadd32_correctlyRounded nan ha hb
  simp only [pow_zero, mul_one] at hnear
  exact ⟨hnan, hinf, sign32_fadd32 nan ha hb, hnear⟩

/-- Settles O45: the result is the exact product rounded once. -/
theorem multiplierRoundsExactProduct : Obligations.MultiplierRoundsExactProduct := by
  intro nan a b ha hb
  obtain ⟨⟨hnan, hinf, hnear⟩, hs⟩ := fmul32_correctlyRounded nan ha hb
  exact ⟨hnan, hinf, hs, hnear⟩

/-- Settles O46: one equation of the adder for each class of operands. -/
theorem adderSpecialCases : Obligations.AdderSpecialCases := by
  intro nan a b
  refine ⟨fadd32_of_nan, fun ha hb hs => ?_, fun ha hb hs => ?_, fadd32_of_inf_finite,
    fun hb ha => fadd32_of_finite_inf ha hb, fadd32_sum_zero_eq⟩
  · rw [fadd32_of_inf_inf ha hb, if_neg hs]
  · rw [fadd32_of_inf_inf ha hb, if_pos hs]

/-- Settles O47: one equation of the multiplier for each class of operands. -/
theorem multiplierSpecialCases : Obligations.MultiplierSpecialCases := by
  intro nan a b
  refine ⟨fmul32_of_nan, fmul32_of_inf_zero, fun hna hnb hab hba => ?_⟩
  by_cases hinf : isInf32 a = true ∨ isInf32 b = true
  · have h0 : isZero32 a = false ∧ isZero32 b = false := by
      obtain ha | hb := hinf
      · exact ⟨isZero32_of_inf ha, Bool.eq_false_iff.mpr fun hb => hab ⟨ha, hb⟩⟩
      · exact ⟨Bool.eq_false_iff.mpr fun ha => hba ⟨ha, hb⟩, isZero32_of_inf hb⟩
    rw [fmul32_of_inf hna hnb hinf h0.1 h0.2]
    refine ⟨sign32_pack32 .., fun _ => isInf32_iff.mpr (index32_infinity _), fun h => ?_⟩
    rw [h0.1, h0.2] at h
    simp at h
  · obtain ⟨hia, hib⟩ := not_or.mp hinf
    have ha := isFinite32_of_not hna (Bool.eq_false_iff.mpr hia)
    have hb := isFinite32_of_not hnb (Bool.eq_false_iff.mpr hib)
    refine ⟨(fmul32_correctlyRounded nan ha hb).2, fun h => absurd h hinf, fun h => ?_⟩
    rw [fmul32_of_zero ha hb h]
    exact isZero32_pack32_zero _

/-! ## NaN results (R88) -/

/-- The adder must return a NaN: an operand is one, or infinities of opposite signs are added. -/
def AddInvalid (a b : Word) : Prop :=
  isNaN32 a = true ∨ isNaN32 b = true ∨
    isInf32 a = true ∧ isInf32 b = true ∧ sign32 a ≠ sign32 b

/-- The multiplier must return a NaN: an operand is one, or a zero is multiplied by an infinity. -/
def MulInvalid (a b : Word) : Prop :=
  isNaN32 a = true ∨ isNaN32 b = true ∨
    isInf32 a = true ∧ isZero32 b = true ∨ isZero32 a = true ∧ isInf32 b = true

section
variable {nan a b : Word}

theorem fadd32_of_invalid (h : AddInvalid a b) : fadd32 nan a b = nan := by
  obtain ha | hb | ⟨ha, hb, hs⟩ := h
  · exact fadd32_of_nan (.inl ha)
  · exact fadd32_of_nan (.inr hb)
  · rw [fadd32_of_inf_inf ha hb, if_neg hs]

/-- An operation that is not invalid has two finite operands or an infinite result. -/
theorem fadd32_valid_cases (nan : Word) (h : ¬AddInvalid a b) :
    isInf32 (fadd32 nan a b) = true ∨ isFinite32 a = true ∧ isFinite32 b = true := by
  obtain hna | hia | hfa := class32_cases a
  · exact absurd (.inl hna) h
  · obtain hnb | hib | hfb := class32_cases b
    · exact absurd (.inr (.inl hnb)) h
    · have hs : sign32 a = sign32 b := by
        by_contra hs
        exact h (.inr (.inr ⟨hia, hib, hs⟩))
      rw [fadd32_of_inf_inf hia hib, if_pos hs]
      exact .inl hia
    · rw [fadd32_of_inf_finite hia hfb]
      exact .inl hia
  · obtain hnb | hib | hfb := class32_cases b
    · exact absurd (.inr (.inl hnb)) h
    · rw [fadd32_of_finite_inf hfa hib]
      exact .inl hib
    · exact .inr ⟨hfa, hfb⟩

theorem isNaN32_fadd32_of_valid (nan : Word) (h : ¬AddInvalid a b) :
    isNaN32 (fadd32 nan a b) = false := by
  obtain hinf | ⟨ha, hb⟩ := fadd32_valid_cases nan h
  · exact isNaN32_of_inf hinf
  · exact (fadd32_correctlyRounded nan ha hb).not_nan

theorem fmul32_of_invalid (h : MulInvalid a b) : fmul32 nan a b = nan := by
  obtain ha | hb | h := h
  · exact fmul32_of_nan (.inl ha)
  · exact fmul32_of_nan (.inr hb)
  · exact fmul32_of_inf_zero h

theorem isNaN32_fmul32_of_valid (nan : Word) (h : ¬MulInvalid a b) :
    isNaN32 (fmul32 nan a b) = false := by
  simp only [MulInvalid, not_or, Bool.not_eq_true] at h
  obtain ⟨hna, hnb, hab, hba⟩ := h
  obtain ⟨-, -, hvalid⟩ := multiplierSpecialCases nan a b
  obtain ⟨-, hinf, -⟩ := hvalid hna hnb hab hba
  by_cases hi : isInf32 a = true ∨ isInf32 b = true
  · exact isNaN32_of_inf (hinf hi)
  · obtain ⟨hia, hib⟩ := not_or.mp hi
    exact (fmul32_correctlyRounded nan (isFinite32_of_not hna (Bool.eq_false_iff.mpr hia))
      (isFinite32_of_not hnb (Bool.eq_false_iff.mpr hib))).1.not_nan

/-- An operation that answers `nan` exactly where it is invalid, and a number or an infinity elsewhere,
returns no other NaN. -/
theorem nan_iff_invalid {r : Word} {P : Prop} (hnan : isNaN32 nan = true) (hinv : P → r = nan)
    (hval : ¬P → isNaN32 r = false) : (isNaN32 r = true → r = nan) ∧ (isNaN32 r = true ↔ P) := by
  have hiff : isNaN32 r = true ↔ P :=
    ⟨fun h => by_contra fun hP => Bool.eq_false_iff.mp (hval hP) h, fun hP => by rw [hinv hP, hnan]⟩
  exact ⟨fun h => hinv (hiff.mp h), hiff⟩

end

/-- Settles O48: both units return NAN_RESULT where they must return a NaN, and no NaN elsewhere. -/
theorem nanResultOnly : Obligations.NanResultOnly := by
  refine ⟨rfl, by decide, fun nan a b hnan => ?_⟩
  obtain ⟨hadd, hadd'⟩ := nan_iff_invalid hnan (fadd32_of_invalid (a := a) (b := b))
    (isNaN32_fadd32_of_valid nan)
  obtain ⟨hmul, hmul'⟩ := nan_iff_invalid hnan (fmul32_of_invalid (a := a) (b := b))
    (isNaN32_fmul32_of_valid nan)
  exact ⟨hadd, hadd', hmul, hmul'⟩

/-- Settles O52: of the results of the adder only an exact zero sum is a zero. -/
theorem sumIsNegativeZeroOnlyFromNegativeZeros :
    Obligations.SumIsNegativeZeroOnlyFromNegativeZeros := by
  intro nan a b hnan h
  have hvalid : ¬AddInvalid a b := fun hinv => by
    rw [← fadd32_of_invalid (nan := nan) hinv, h] at hnan
    exact absurd hnan (by decide)
  obtain hinf | ⟨ha, hb⟩ := fadd32_valid_cases nan hvalid
  · rw [h] at hinf
    exact absurd hinf (by decide)
  · by_cases hsum : value32 a + value32 b = 0
    · rw [fadd32_sum_zero_eq ha hb hsum] at h
      by_contra hneg
      rw [if_neg hneg] at h
      exact absurd h (by decide)
    · have hne := isZero32_fadd32 nan ha hb hsum
      rw [h] at hne
      exact absurd hne (by decide)

/-! ## Commutativity and identities (R102) -/

section
variable {nan a b : Word}

theorem alignedSum_comm (a b : Word) : alignedSum a b = alignedSum b a := by
  rw [alignedSum, alignedSum, min_comm, add_comm]

theorem fadd32_comm (nan a b : Word) : fadd32 nan a b = fadd32 nan b a := by
  obtain hna | hia | hfa := class32_cases a
  · rw [fadd32_of_nan (.inl hna), fadd32_of_nan (.inr hna)]
  · obtain hnb | hib | hfb := class32_cases b
    · rw [fadd32_of_nan (.inl hnb), fadd32_of_nan (.inr hnb)]
    · rw [fadd32_of_inf_inf hia hib, fadd32_of_inf_inf hib hia]
      by_cases hs : sign32 a = sign32 b
      · rw [if_pos hs, if_pos hs.symm]
        exact word_eq_of_sign_index hs ((isInf32_iff.mp hia).trans (isInf32_iff.mp hib).symm)
      · rw [if_neg hs, if_neg (Ne.symm hs)]
    · rw [fadd32_of_inf_finite hia hfb, fadd32_of_finite_inf hfb hia]
  · obtain hnb | hib | hfb := class32_cases b
    · rw [fadd32_of_nan (.inl hnb), fadd32_of_nan (.inr hnb)]
    · rw [fadd32_of_finite_inf hfa hib, fadd32_of_inf_finite hib hfa]
    · by_cases h : isZero32 a = true ∧ isZero32 b = true
      · rw [fadd32_of_zero_zero h.1 h.2, fadd32_of_zero_zero h.2 h.1, Bool.and_comm]
      · rw [fadd32_of_finite hfa hfb h, fadd32_of_finite hfb hfa (mt And.symm h), alignedSum_comm,
          min_comm]

theorem fmul32_comm (nan a b : Word) : fmul32 nan a b = fmul32 nan b a := by
  rw [fmul32, fmul32, Bool.or_comm (isNaN32 b), Bool.or_comm (isInf32 b), Bool.or_comm (isZero32 b),
    Bool.xor_comm (sign32 b), Nat.mul_comm (sig32 b), Int.add_comm (scale32 b)]

/-- A zero added to a number that is not one, or to an infinity, changes nothing. -/
theorem fadd32_zero {z : Word} (nan : Word) (hn : isNaN32 a = false) (hz : isZero32 z = true) :
    fadd32 nan a z = if isZero32 a = true then pack32 (sign32 a && sign32 z) 0 0 else a := by
  have hfz := isFinite32_of_zero hz
  split
  next ha => exact fadd32_of_zero_zero ha hz
  next ha =>
    cases hi : isInf32 a
    case true => exact fadd32_of_inf_finite hi hfz
    case false =>
      have hf := isFinite32_of_not hn hi
      have hsum : value32 a + value32 z = value32 a := by rw [value32_eq_zero_iff.mpr hz, add_zero]
      have hne : value32 a + value32 z ≠ 0 := by rwa [hsum, ne_eq, value32_eq_zero_iff]
      have hmag : latticeMag 23 (index32 a) ≠ 0 := by
        rwa [← Nat.cast_ne_zero (R := Int), ← abs_value32, abs_ne_zero, ne_eq, value32_eq_zero_iff]
      refine word_eq_of_sign_value ?_
        ((fadd32_correctlyRounded nan hf hfz).eq_of_exact hf (by simpa using hsum)).2
      rw [sign32_fadd32 nan hf hfz hne, hsum, value32_eq]
      simp only [signed_lt_zero_iff hmag, Bool.decide_eq_true]

end

/-- Settles O49: both units treat their operands alike. -/
theorem adderAndMultiplierCommute : Obligations.AdderAndMultiplierCommute :=
  fun nan a b => ⟨fadd32_comm nan a b, fmul32_comm nan a b⟩

theorem fmul32_one (nan : Word) {x : Word} (hn : isNaN32 x = false) :
    fmul32 nan x 0x3F800000 = x := by
  have hone : isFinite32 0x3F800000 = true ∧ isZero32 0x3F800000 = false ∧
    sign32 0x3F800000 = false ∧ value32 0x3F800000 = 2 ^ 149 := by decide
  obtain ⟨hf1, h01, hs1, hv1⟩ := hone
  cases hi : isInf32 x
  case true =>
    rw [fmul32_of_inf hn (isNaN32_of_finite hf1) (.inl hi) (isZero32_of_inf hi) h01, hs1,
      Bool.xor_false]
    exact word_eq_of_sign_index (sign32_pack32 ..) (by rw [index32_infinity, isInf32_iff.mp hi])
  case false =>
    have hf := isFinite32_of_not hn hi
    obtain ⟨hround, hs⟩ := fmul32_correctlyRounded nan hf hf1
    refine word_eq_of_sign_value (by rw [hs, hs1, Bool.xor_false]) (hround.eq_of_exact hf ?_).2
    rw [hv1]

/-- Settles O50: adding a zero by `fadd32_zero`, with the zeros themselves apart. -/
theorem adderAndMultiplierIdentities : Obligations.AdderAndMultiplierIdentities := by
  intro nan x hn
  refine ⟨?_, ?_, fmul32_one nan hn⟩
  · rw [fadd32_zero nan hn isZero32_negZero]
    split
    next h0 =>
      rw [show sign32 0x80000000 = true by decide, Bool.and_true]
      exact (isZero32_eq_pack32 h0).symm
    next => rfl
  · rw [fadd32_zero nan hn isZero32_posZero, show sign32 0x00000000 = false by decide, Bool.and_false]
    split
    next h0 =>
      cases hs : sign32 x
      case true => rw [if_pos (eq_negZero_iff.mpr ⟨h0, hs⟩), posZero_eq_pack32]
      case false =>
        rw [← hs, ← isZero32_eq_pack32 h0, if_neg fun h => ?_]
        rw [(eq_negZero_iff.mp h).2] at hs
        cases hs
    next h0 => rw [if_neg fun h => h0 (eq_negZero_iff.mp h).1]

/-! ## Small integers (R102) -/

/-- An integer of magnitude at most `2^24` is a finite binary32 value. -/
theorem exists_word_of_smallInt {z : Int} (h : |z| ≤ 2 ^ 24) :
    ∃ f, isFinite32 f = true ∧ value32 f = z * 2 ^ 149 := by
  have hz : z.natAbs ≤ 2 ^ 24 := by
    rw [Int.abs_eq_natAbs] at h
    exact_mod_cast h
  obtain ⟨r, hr⟩ := exists_latticeMag_eq (p := 23) 149 hz
  have hlt : r < 255 * 2 ^ 23 := by
    rw [← (latticeMag_strictMono 23).lt_iff_lt, hr,
      show 255 * 2 ^ 23 = 254 * 2 ^ 23 + 2 ^ 23 by decide,
      latticeMag_index (by decide) (by decide)]
    exact lt_of_le_of_lt (Nat.mul_le_mul_right _ hz) (by norm_num)
  obtain ⟨f, hs, hi⟩ := exists_word (decide (z < 0)) (show r < 2 ^ 31 by omega)
  refine ⟨f, isFinite32_iff.mpr (by rwa [hi]), ?_⟩
  rw [value32_eq, hs, hi, hr, ← signed_mul_two_pow, signed_natAbs]

/-- Settles O51: the exact result is representable, so rounding does not change it. -/
theorem smallIntegersExact : Obligations.SmallIntegersExact := by
  intro nan a b m n ha hb hva hvb _ _
  refine ⟨fun h => ?_, fun h => ?_⟩
  · obtain ⟨f, hf, hv⟩ := exists_word_of_smallInt h
    rw [← hv]
    refine (fadd32_correctlyRounded nan ha hb).eq_of_exact hf ?_
    rw [hva, hvb, hv]
    ring
  · obtain ⟨f, hf, hv⟩ := exists_word_of_smallInt h
    rw [← hv]
    refine (fmul32_correctlyRounded nan ha hb).1.eq_of_exact hf ?_
    rw [hva, hvb, hv]
    ring

end Sys2Proof.Machine

/-! PROOFS. The two conversions (40_fp_numerics.md R92 to R94): widening is exact, narrowing rounds to
nearest, ties to even, and their round trips. -/

namespace Sys2Proof.Machine

/-! ## Widening (R92) -/

@[simp] theorem sign32_h2f (h : Half) : sign32 (h2f h) = sign16 h := by
  simp only [h2f]
  split_ifs <;> exact sign32_pack32 ..

theorem h2f_of_inf {h : Half} (hi : index16 h = 31 * 2 ^ 10) : h2f h = pack32 (sign16 h) 255 0 := by
  have hm := frac16_lt h
  rw [index16] at hi
  rw [h2f, if_pos (by omega)]

theorem h2f_of_nan {h : Half} (hn : isNaN16 h = true) :
    h2f h = pack32 (sign16 h) 255 (2 ^ 22 + frac16 h % 2 ^ 9 * 2 ^ 13) := by
  simp only [isNaN16, Bool.and_eq_true, beq_iff_eq, bne_iff_ne] at hn
  obtain ⟨he, hm⟩ := hn
  simp [h2f, he, hm, Nat.shiftLeft_eq]

/-- A subnormal significand shifted up until it is a normal one of binary32. -/
theorem shifted_sig_bounds {m : Nat} (hpos : 0 < m) (hm : m < 2 ^ 10) :
    bitlength m ≤ 10 ∧ 2 ^ 23 ≤ m * 2 ^ (24 - bitlength m) ∧ m * 2 ^ (24 - bitlength m) < 2 ^ 24 := by
  obtain ⟨hbl, hlow, hhigh⟩ := bitlength_bounds hpos
  have hlt : bitlength m - 1 < 10 := (Nat.pow_lt_pow_iff_right (by decide)).mp (hlow.trans_lt hm)
  have h23 : 2 ^ (bitlength m - 1) * 2 ^ (24 - bitlength m) = 2 ^ 23 := by
    rw [← Nat.pow_add, show bitlength m - 1 + (24 - bitlength m) = 23 by omega]
  have h24 : 2 ^ bitlength m * 2 ^ (24 - bitlength m) = 2 ^ 24 := by
    rw [← Nat.pow_add, show bitlength m + (24 - bitlength m) = 24 by omega]
  exact ⟨by omega, h23 ▸ Nat.mul_le_mul_right _ hlow,
    h24 ▸ Nat.mul_lt_mul_of_pos_right hhigh (by positivity)⟩

theorem h2f_index_of_subnormal {h : Half} (he : exp16 h = 0) (hm : frac16 h ≠ 0) :
    index32 (h2f h) = (bitlength (frac16 h) + 101) * 2 ^ 23 +
      frac16 h * 2 ^ (24 - bitlength (frac16 h)) := by
  have hpos := Nat.pos_of_ne_zero hm
  obtain ⟨hbl, -, -⟩ := bitlength_bounds hpos
  obtain ⟨hbl', hge, hlt⟩ := shifted_sig_bounds hpos (frac16_lt h)
  simp only [h2f, he, hm, Nat.shiftLeft_eq,
    show 23 - (bitlength (frac16 h) - 1) = 24 - bitlength (frac16 h) by omega]
  simp
  omega

/-- The widened pattern counts the same magnitude: `2^-24` is `2^125` units of `2^-149`. -/
theorem latticeMag_h2f {h : Half} (hf : isFinite16 h = true) :
    isFinite32 (h2f h) = true ∧
      latticeMag 23 (index32 (h2f h)) = latticeMag 10 (index16 h) * 2 ^ 125 := by
  have hm := frac16_lt h
  have he31 : exp16 h < 31 := by
    rw [isFinite16_iff, index16] at hf
    omega
  rw [isFinite32_iff, index16, latticeMag_fields _ hm]
  by_cases he : exp16 h = 0
  · by_cases hm0 : frac16 h = 0
    · simp [h2f, he, hm0]
    · obtain ⟨hbl, hge, hlt⟩ := shifted_sig_bounds (Nat.pos_of_ne_zero hm0) hm
      rw [h2f_index_of_subnormal he hm0, latticeMag_index hlt.le (.inr hge), if_pos he, Nat.mul_assoc, ← Nat.pow_add,
        show 24 - bitlength (frac16 h) + (bitlength (frac16 h) + 101) = 125 by omega]
      exact ⟨by omega, rfl⟩
  · have hi : index32 (h2f h) = (exp16 h + 111) * 2 ^ 23 + (2 ^ 10 + frac16 h) * 2 ^ 13 := by
      simp only [h2f, he, show ¬exp16 h = 31 by omega, false_and, if_false, index32_pack32,
        Nat.shiftLeft_eq]
      omega
    rw [hi, latticeMag_index (by omega) (.inr (by omega)), if_neg he, Nat.mul_assoc, Nat.mul_assoc,
      ← Nat.pow_add, ← Nat.pow_add, show exp16 h - 1 + 125 = 13 + (exp16 h + 111) by omega]
    exact ⟨by omega, rfl⟩

theorem value32_h2f {h : Half} (hf : isFinite16 h = true) :
    value32 (h2f h) = value16 h * 2 ^ 125 := by
  rw [value32_eq, value16_eq, sign32_h2f, (latticeMag_h2f hf).2, signed_mul_two_pow]

/-- The pattern of R92's NaN before it is made quiet. -/
theorem nan_fields_in_place (h : Half) :
    BitVec.ofBool (sign16 h) ++ (255 : BitVec 8) ++ h.extractLsb' 0 10 ++ (0 : BitVec 13) =
      pack32 (sign16 h) 255 (frac16 h * 2 ^ 13) := by
  have hm := frac16_lt h
  apply BitVec.eq_of_toNat_eq
  rw [pack32_toNat]
  have h13 : (0 : BitVec 13).toNat < 2 ^ 13 := by decide
  have h10 : (h.extractLsb' 0 10).toNat < 2 ^ 10 := BitVec.isLt _
  have h8 : (255 : BitVec 8).toNat < 2 ^ 8 := by decide
  simp only [BitVec.toNat_append, BitVec.toNat_ofBool]
  rw [← Nat.shiftLeft_add_eq_or_of_lt h8, ← Nat.shiftLeft_add_eq_or_of_lt h10,
    ← Nat.shiftLeft_add_eq_or_of_lt h13]
  have hfrac : (h.extractLsb' 0 10).toNat = frac16 h := rfl
  simp only [Nat.shiftLeft_eq, hfrac, BitVec.reduceToNat]
  omega

/-- Settles O53: a number by its place in the row of magnitudes, the other classes by their equations. -/
theorem wideningIsExact : Obligations.WideningIsExact := by
  intro h
  refine ⟨sign32_h2f h, fun hf => ⟨(latticeMag_h2f hf).1, value32_h2f hf⟩, fun hi => ?_,
    fun hn => ?_⟩
  · rw [class32_infinity_iff, h2f_of_inf (class16_infinity_iff.mp hi), index32_infinity]
  · have hm := frac16_lt h
    rw [class32_quietNaN_iff, nan_fields_in_place, pack32_or_quiet, h2f_of_nan hn, exp32_pack32,
      frac32_pack32]
    refine ⟨by omega, ?_⟩
    congr 2
    omega

/-! ## Narrowing (R93) -/

section
variable {f : Word}

@[simp] theorem sign16_f2h (f : Word) : sign16 (f2h f) = sign32 f := by
  simp only [f2h]
  split_ifs <;> simp only [sign16_pack16, sign16_pack16Magnitude]

theorem f2h_of_inf (hi : isInf32 f = true) : f2h f = pack16 (sign32 f) 31 0 := by
  simp only [isInf32, Bool.and_eq_true, beq_iff_eq] at hi
  simp [f2h, hi]

theorem f2h_of_nan (hn : isNaN32 f = true) :
    f2h f = pack16 (sign32 f) 31 (2 ^ 9 + frac32 f / 2 ^ 13 % 2 ^ 9) := by
  simp only [isNaN32, Bool.and_eq_true, beq_iff_eq, bne_iff_ne] at hn
  obtain ⟨he, hm⟩ := hn
  simp [f2h, he, hm, Nat.shiftRight_eq_div_pow]

/-- A binary32 subnormal or zero is below half the smallest binary16 value. -/
theorem f2h_roundsTo_of_exp_zero (he : exp32 f = 0) :
    RoundsTo 10 125 (latticeMag 23 (index32 f)) 0 0 ∧ index16 (f2h f) = 0 := by
  have hm := frac32_lt f
  rw [index32, latticeMag_fields _ hm, if_pos he]
  exact ⟨⟨IsRounded.zero (by omega), .inl rfl, by omega⟩, by simp [f2h, he]⟩

section
variable (he0 : exp32 f ≠ 0) (he255 : exp32 f < 255)
include he0

theorem latticeMag_of_exp_ne_zero :
    latticeMag 23 (index32 f) = (2 ^ 23 + frac32 f) * 2 ^ (exp32 f - 1) := by
  rw [index32, latticeMag_fields _ (frac32_lt f), if_neg he0]

/-- In the normal range of binary16 and beyond, thirteen fraction bits are rounded away. -/
theorem normal_roundsTo (hge : 113 ≤ exp32 f) :
    RoundsTo 10 125 (latticeMag 23 (index32 f)) (exp32 f - 113)
      (roundShift (2 ^ 23 + frac32 f) 13) := by
  have hm := frac32_lt f
  have hunit : 125 + (exp32 f - 113) = 13 + (exp32 f - 1) := by omega
  rw [latticeMag_of_exp_ne_zero he0]
  refine ⟨?_, .inr ?_, ?_⟩
  · rw [hunit, Nat.pow_add]
    exact (roundShift_isRounded _ (by decide)).scale (by positivity)
  · rw [hunit, Nat.pow_add, ← Nat.mul_assoc]
    exact Nat.mul_le_mul_right _ (by omega)
  · rw [hunit, Nat.pow_add 2 13, ← Nat.mul_assoc]
    exact Nat.mul_lt_mul_of_pos_right (by omega) (by positivity)

/-- Below the normal range the result counts units of `2^-24`, and none where the shift is so long that
even the rounding bit is lost. -/
theorem subnormal_roundsTo (hlt : exp32 f < 113) :
    RoundsTo 10 125 (latticeMag 23 (index32 f)) 0
      (if exp32 f ≤ 100 then 0 else roundShift (2 ^ 23 + frac32 f) (126 - exp32 f)) := by
  have hm := frac32_lt f
  have hbound (c : Nat) (hc : exp32 f - 1 ≤ c) :
      (2 ^ 23 + frac32 f) * 2 ^ (exp32 f - 1) < 2 ^ (24 + c) := by
    rw [Nat.pow_add]
    exact Nat.mul_lt_mul_of_lt_of_le (by omega) (Nat.pow_le_pow_right (by decide) hc) (by positivity)
  rw [latticeMag_of_exp_ne_zero he0]
  refine ⟨?_, .inl rfl, (hbound 111 (by omega)).trans (by norm_num)⟩
  split
  next hle =>
    have := hbound 99 (by omega)
    exact IsRounded.zero (by omega)
  next hgt =>
    rw [show 125 + 0 = (126 - exp32 f) + (exp32 f - 1) by omega, Nat.pow_add]
    exact (roundShift_isRounded _ (by omega)).scale (by positivity)

include he255

/-- The exponent is rebiased, and a result past the finite ones is an infinity. -/
theorem f2h_index_of_normal (hge : 113 ≤ exp32 f) :
    index16 (f2h f) =
      min ((exp32 f - 113) * 2 ^ 10 + roundShift (2 ^ 23 + frac32 f) 13) (31 * 2 ^ 10) := by
  have hq : 2 ^ 10 ≤ roundShift (2 ^ 23 + frac32 f) 13 :=
    (roundShift_isRounded _ (by decide)).le_of_le (by decide) (by omega)
  simp only [f2h, show ¬exp32 f = 255 by omega, he0, false_and, if_false, Nat.shiftLeft_eq,
    show ((exp32 f : Int) - 127 + 15).toNat = exp32 f - 112 by omega,
    show (exp32 f : Int) - 127 ≥ -14 by omega, if_true]
  generalize roundShift (2 ^ 23 + frac32 f) 13 = q at *
  have hidx : (exp32 f - 112) * 2 ^ 10 + (q - 0x400) = (exp32 f - 113) * 2 ^ 10 + q := by
    rw [show exp32 f - 112 = exp32 f - 113 + 1 by omega, Nat.succ_mul]
    omega
  rw [hidx]
  split_ifs with hbig hinf
  · rw [index16_infinity, min_eq_right (by omega)]
  · rw [index16_pack16Magnitude, min_eq_right (by omega)]
    decide
  · rw [index16_pack16Magnitude, min_eq_left (by omega), Nat.mod_eq_of_lt (by omega)]

theorem f2h_index_of_subnormal (hlt : exp32 f < 113) :
    index16 (f2h f) =
      if exp32 f ≤ 100 then 0 else roundShift (2 ^ 23 + frac32 f) (126 - exp32 f) := by
  have hsig := (subnormal_roundsTo he0 hlt).sig_le
  simp only [f2h, show ¬exp32 f = 255 by omega, he0, false_and, if_false,
    show (-((exp32 f : Int) - 127) - 1).toNat = 126 - exp32 f by omega,
    show ¬(exp32 f : Int) - 127 > 15 by omega, show ¬(exp32 f : Int) - 127 ≥ -14 by omega]
  by_cases hle : exp32 f ≤ 100
  · rw [if_pos (by omega), if_pos hle, index16_pack16Magnitude, Nat.zero_mod]
  · rw [if_neg hle] at hsig
    rw [if_neg (by omega), if_neg hle, index16_pack16Magnitude, Nat.mod_eq_of_lt (by omega)]

end

/-- Narrowing rounds the magnitude, counted in units of `2^-149`, to the magnitudes of binary16, and
every result past the finite ones is an infinity. -/
theorem f2h_roundsTo (hf : isFinite32 f = true) :
    ∃ d q, RoundsTo 10 125 (latticeMag 23 (index32 f)) d q ∧
      index16 (f2h f) = min (d * 2 ^ 10 + q) (31 * 2 ^ 10) := by
  have he255 : exp32 f < 255 := by
    have hm := frac32_lt f
    rw [isFinite32_iff, index32] at hf
    omega
  by_cases he0 : exp32 f = 0
  · obtain ⟨hround, hi⟩ := f2h_roundsTo_of_exp_zero he0
    exact ⟨0, 0, hround, by rw [hi]; decide⟩
  · by_cases hge : 113 ≤ exp32 f
    · exact ⟨_, _, normal_roundsTo he0 hge, f2h_index_of_normal he0 he255 hge⟩
    · have hround := subnormal_roundsTo he0 (not_le.mp hge)
      have hsig := hround.sig_le
      refine ⟨_, _, hround, ?_⟩
      rw [f2h_index_of_subnormal he0 he255 (not_le.mp hge), Nat.zero_mul, Nat.zero_add,
        min_eq_left (by omega)]

end

/-- Settles O54: the finite binary16 patterns are the magnitudes of their format, of either sign. -/
theorem narrowingIsNearestEven : Obligations.NarrowingIsNearestEven := by
  intro f h hf _
  obtain ⟨d, q, hround, hi⟩ := f2h_roundsTo hf
  have hzero := hround.index_eq_zero_iff
  have hinf := hround.le_index_iff 29
  rw [class16_infinity_iff, class16_zero_iff, hi, abs_value32]
  refine ⟨sign16_f2h f, ?_, ?_, fun hfin => ?_⟩
  · zify at hinf
    omega
  · omega
  · rw [isFinite16_iff, hi] at hfin
    rw [min_eq_left (by omega)] at hi
    obtain ⟨hle, htie⟩ := hround.nearest_signed (by decide) (sign32 f) (sign16 h) (index16 h)
    have hvalue : value16 (f2h f) = signed (sign32 f) (latticeMag 10 (d * 2 ^ 10 + q)) := by
      rw [value16_eq, sign16_f2h, hi]
    rw [← hvalue, ← value16_eq, ← value32_eq] at hle htie
    exact ⟨hle, fun heq hne => getLsbD_zero16
      (hi ▸ htie heq fun h' => hne (mul_right_cancel₀ (by positivity) h'))⟩

/-- Settles O55: the equation of each class, field by field. -/
theorem narrowingSpecialCases : Obligations.NarrowingSpecialCases := by
  intro f
  refine ⟨fun hi => ?_, fun hn => ⟨?_, sign16_f2h f, ?_⟩⟩
  · rw [f2h_of_inf hi]
    cases sign32 f <;> decide
  · rw [class16_quietNaN_iff, f2h_of_nan hn, exp16_pack16, frac16_pack16]
    omega
  · apply BitVec.eq_of_toNat_eq
    rw [f2h_of_nan hn, BitVec.extractLsb'_toNat, BitVec.extractLsb'_toNat, pack16_toNat, frac32_eq,
      Nat.shiftRight_zero, Nat.shiftRight_eq_div_pow]
    omega

/-! ## The round trips (R94) -/

/-- The magnitude of a binary16 number stays below 65520. -/
theorem abs_value16_lt {h : Half} (hf : isFinite16 h = true) :
    |value16 h| * 2 ^ 125 < 65520 * 2 ^ 149 := by
  have hidx := isFinite16_iff.mp hf
  have hmono := (latticeMag_strictMono 10).monotone
    (show index16 h ≤ 29 * 2 ^ 10 + (2 ^ 11 - 1) by omega)
  rw [latticeMag_index (by decide) (by decide)] at hmono
  rw [abs_value16]
  zify at hmono
  norm_num at hmono ⊢
  omega

theorem f2h_h2f_of_finite {h : Half} (hf : isFinite16 h = true) : f2h (h2f h) = h := by
  obtain ⟨hf32, -⟩ := latticeMag_h2f hf
  obtain ⟨-, hinf, -, hnear⟩ := narrowingIsNearestEven (h2f h) h hf32 hf
  have hfin : isFinite16 (f2h (h2f h)) = true := by
    obtain ⟨d, q, -, hi⟩ := f2h_roundsTo hf32
    have hpos : (0 : Int) < 2 ^ 125 := by positivity
    rw [class16_infinity_iff, value32_h2f hf, abs_mul, abs_of_pos hpos] at hinf
    have hne := mt hinf.mp (abs_value16_lt hf).not_ge
    rw [isFinite16_iff]
    omega
  obtain ⟨hle, -⟩ := hnear hfin
  rw [value32_h2f hf, sub_self, abs_zero, abs_nonpos_iff, sub_eq_zero] at hle
  exact half_eq_of_sign_value (by rw [sign16_f2h, sign32_h2f])
    (mul_right_cancel₀ (by positivity) hle).symm

theorem f2h_h2f {h : Half} (hn : isNaN16 h = false) : f2h (h2f h) = h := by
  by_cases hf : isFinite16 h = true
  · exact f2h_h2f_of_finite hf
  · have hi : index16 h = 31 * 2 ^ 10 := by
      rw [← Bool.not_eq_true, isNaN16_iff] at hn
      rw [isFinite16_iff] at hf
      omega
    rw [h2f_of_inf hi, f2h_of_inf (isInf32_iff.mpr (index32_infinity _)), sign32_pack32]
    exact half_eq_of_sign_index (sign16_pack16 ..) (by rw [index16_infinity, hi])

theorem f2h_h2f_nan {h : Half} (hn : isNaN16 h = true) : f2h (h2f h) = h ||| 0x0200 := by
  have hm := frac16_lt h
  have hnan : isNaN32 (h2f h) = true := by
    rw [h2f_of_nan hn, isNaN32_iff, index32_pack32]
    omega
  have he : exp16 h = 31 := by
    simp only [isNaN16, Bool.and_eq_true, beq_iff_eq] at hn
    exact hn.1
  conv_rhs => rw [half_eq_pack16 h, pack16_or_quiet, he]
  rw [f2h_of_nan hnan, sign32_h2f, h2f_of_nan hn, frac32_pack32]
  congr 1
  omega

/-- Settles O56: the second round trip follows from the first, on the patterns `h2f` gives. -/
theorem conversionRoundTrip : Obligations.ConversionRoundTrip := by
  refine ⟨fun h => f2h_h2f, fun h => f2h_h2f_nan, fun x _ hx => ?_⟩
  obtain ⟨h, hn, rfl⟩ := hx
  rw [f2h_h2f hn]

end Sys2Proof.Machine

/-! PROOFS. The units over SIZE lanes: lanes are independent (40_fp_numerics.md R95, R96, R100), and the
horizontal sum is a chain (R99). -/

namespace Sys2Proof.Machine

open Sys2Proof.Safety

/-! ## Lane by lane (R100) -/

/-- Lane `i` of a result is one operation on lane `i` of the two sources. -/
theorem lane_writeV_zipWith {s : State} (hwf : s.wf = true) (op : Word → Word → Word) (vd j k : VReg)
    {i : Nat} (hi : i < s.size) :
    ((s.writeV vd (List.zipWith op (s.readV j) (s.readV k))).respond false 0).lane vd i =
      op (s.lane j i) (s.lane k i) := by
  have hj : i < (s.readV j).length := by rwa [readV_length hwf]
  have hk : i < (s.readV k).length := by rwa [readV_length hwf]
  rw [State.lane, respond_vregs, writeV_vregs_same, State.lane, State.lane, ← readV_eq, ← readV_eq,
    List.getD_eq_getElem _ _ hj, List.getD_eq_getElem _ _ hk,
    List.getD_eq_getElem _ _ (by rw [List.length_zipWith]; exact lt_min hj hk),
    List.getElem_zipWith]

theorem exec_vadd_lane {vd j k : VReg} {s t : State} {i : Nat} (hwf : s.wf = true)
    (h : exec (.vadd vd j k) s = .next t) (hi : i < s.size) :
    t.lane vd i = fadd32 s.nan (s.lane j i) (s.lane k i) := by
  obtain rfl := answered_next.mp h
  exact lane_writeV_zipWith hwf (fadd32 s.nan) vd j k hi

theorem exec_vmul_lane {vd j k : VReg} {s t : State} {i : Nat} (hwf : s.wf = true)
    (h : exec (.vmul vd j k) s = .next t) (hi : i < s.size) :
    t.lane vd i = fmul32 s.nan (s.lane j i) (s.lane k i) := by
  obtain rfl := answered_next.mp h
  exact lane_writeV_zipWith hwf (fmul32 s.nan) vd j k hi

theorem exec_vacc_lane {vd k : VReg} {s t : State} {i : Nat} (hwf : s.wf = true)
    (h : exec (.vacc vd k) s = .next t) (hi : i < s.size) :
    t.lane vd i = fadd32 s.nan (s.lane vd i) (s.lane k i) := by
  obtain rfl := answered_next.mp h
  exact lane_writeV_zipWith hwf (fadd32 s.nan) vd vd k hi

/-- The bytes of element `i` after a store make up lane `i` in the element type (41_vector_memory.md
R112). -/
theorem exec_vstore_readLE {vs1 : VReg} {x : Addr} {s t : State} {i : Nat} (hwf : s.wf = true)
    (h : exec (.vstore vs1 x) s = .next t) (hi : i < s.size) :
    t.mem.readLE (x.toNat + i * s.esz) s.esz = f32ToElem s.etype (s.lane vs1 i) := by
  obtain ⟨hw, rfl⟩ := exec_vstore_next.mp h
  obtain ⟨-, -, hmem⟩ := wf_iff.mp hwf
  have hlen : i < (s.readV vs1).length := by rwa [readV_length hwf]
  rw [State.lane, ← readV_eq, List.getD_eq_getElem _ _ hlen]
  exact Memory.storeLanes_readLE hmem (storedLanes_bound hwf hw vs1) hlen

/-- Settles O34: one equation for the lane, or the element, of each command. -/
theorem lanesAreIndependent : Obligations.LanesAreIndependent := by
  intro s s' t t' n i hwf hwf' hparams hi h h'
  have hi' : i < s'.size := by rwa [State.size, ← hparams]
  have hnan : s'.nan = s.nan := by rw [State.nan, State.nan, hparams]
  have hetype : s'.etype = s.etype := by rw [State.etype, State.etype, hparams]
  have hesz : s'.esz = s.esz := by rw [State.esz, State.esz, hparams]
  refine ⟨fun vd harith hd hsrc => ?_, ?_, ?_⟩
  · cases n with
    | vadd d j k =>
      obtain rfl := Option.some.inj hd
      rw [exec_vadd_lane hwf h hi, exec_vadd_lane hwf' h' hi', hnan, hsrc j (by simp [vectorSources]),
        hsrc k (by simp [vectorSources])]
    | vmul d j k =>
      obtain rfl := Option.some.inj hd
      rw [exec_vmul_lane hwf h hi, exec_vmul_lane hwf' h' hi', hnan, hsrc j (by simp [vectorSources]),
        hsrc k (by simp [vectorSources])]
    | vacc d k =>
      obtain rfl := Option.some.inj hd
      rw [exec_vacc_lane hwf h hi, exec_vacc_lane hwf' h' hi', hnan, hsrc d (by simp [vectorSources]),
        hsrc k (by simp [vectorSources])]
    | vzero | vload | vstore | hsum | smulm | sadd | sget | cvths | cvtsh | caps => cases harith
  · rintro vd x rfl hbytes
    rw [exec_vload_lane h hi, exec_vload_lane h' hi', State.elemAt, State.elemAt, hetype, hesz,
      ← hparams]
    exact congrArg (elemToF32 s.etype) (Memory.readLE_congr hbytes)
  · rintro vs1 x rfl hlane k hk
    have helem : t.mem.readLE (x.toNat + i * s.esz) s.esz =
        t'.mem.readLE (x.toNat + i * s.esz) s.esz := by
      rw [exec_vstore_readLE hwf h hi, ← hesz, exec_vstore_readLE hwf' h' hi', hetype, hlane]
    apply BitVec.eq_of_toNat_eq
    rw [← Memory.readLE_byte _ hk, ← Memory.readLE_byte _ hk, helem]

/-! ## The horizontal sum (R99) -/

theorem fadd32_negZeros (nan : Word) : fadd32 nan 0x80000000 0x80000000 = 0x80000000 := by
  rw [fadd32_of_zero_zero isZero32_negZero isZero32_negZero]
  decide

theorem hsum_negZeros (nan : Word) (n : Nat) :
    hsum nan (List.replicate (n + 1) 0x80000000) = 0x80000000 := by
  show (List.replicate n 0x80000000).foldl (fadd32 nan) 0x80000000 = 0x80000000
  induction n with
  | zero => rfl
  | succ n ih => rw [List.replicate_succ, List.foldl_cons, fadd32_negZeros, ih]

/-- `2^24 + 1` lies midway between two values and rounds down to the even one. -/
theorem fadd32_two_pow_24_one (nan : Word) : fadd32 nan 0x4B800000 0x3F800000 = 0x4B800000 := by
  rw [fadd32_of_sum_ne_zero (by decide) (by decide) (by decide)]
  decide

theorem fadd32_two_pow_24_neg (nan : Word) : fadd32 nan 0x4B800000 0xCB800000 = 0x00000000 := by
  rw [fadd32_sum_zero_eq (by decide) (by decide) (by decide)]
  decide

/-- Settles O58: the fold unrolls to the chain, and the rule's example adds up lane by lane. -/
theorem horizontalSumIsAChain : Obligations.HorizontalSumIsAChain := by
  refine ⟨fun _ _ _ _ _ => rfl, fun _ _ _ _ _ _ _ _ _ => rfl, fun nan v => ?_, fun nan => ?_⟩
  · obtain ⟨n, hn⟩ : ∃ n, v.size = n + 1 := ⟨v.size - 1, by have := size_pos v; omega⟩
    rw [hn, hsum_negZeros]
  · show fadd32 nan (fadd32 nan (fadd32 nan 0x4B800000 0x3F800000) 0x3F800000) 0xCB800000 = 0x00000000
    rw [fadd32_two_pow_24_one, fadd32_two_pow_24_one, fadd32_two_pow_24_neg]

end Sys2Proof.Machine

/-! PROOFS. VZERO, VLOAD and VSTORE (41_vector_memory.md R110 to R112): the word, the lanes or bytes
written, the frame and the fault of each. -/

namespace Sys2Proof.Machine

open Sys2Proof.Safety

/-! ## The frames of a register write and of a window store -/

/-- Replacing register `vd` and answering changes nothing but `vd` (10_state.md R25). -/
theorem writeV_onlyVectorChanged (s : State) (vd : VReg) (lanes : List Word) :
    onlyVectorChanged vd s ((s.writeV vd lanes).respond false 0) :=
  ⟨fun _ hk => writeV_vregs_other s vd lanes hk, fun _ => rfl, fun _ => rfl, ⟨rfl, rfl, rfl⟩, rfl⟩

/-- A store changes nothing but the bytes of its window (20_memory.md R47). -/
theorem exec_vstore_onlyWindowChanged {vs1 : VReg} {x : Addr} {s t : State} (hwf : s.wf = true)
    (h : exec (.vstore vs1 x) s = .next t) : onlyWindowChanged x.toNat s.vbytes s t := by
  obtain ⟨hw, rfl⟩ := exec_vstore_next.mp h
  exact ⟨fun _ => rfl, fun _ => rfl, fun _ hb => storeLanes_readV_outside hwf hw hb, ⟨rfl, rfl, rfl⟩,
    rfl⟩

/-! ## VZERO (R110) -/

theorem exec_vzero (vd : VReg) (s : State) :
    exec (.vzero vd) s = .next ((s.writeV vd (List.replicate s.size 0)).respond false 0) := rfl

/-- Settles O23: the decoder by `decode_ok_iff`, the outcome by the register write of `exec_vzero`. -/
theorem vzeroClearsEveryLane : Obligations.VzeroClearsEveryLane := by
  intro vd
  refine ⟨fun et x y => decode_ok_iff.mpr ⟨rfl, rfl, rfl, rfl⟩, fun s => ?_⟩
  refine ⟨_, exec_vzero vd s, ?_, writeV_onlyVectorChanged s vd _⟩
  rw [respond_vregs, writeV_vregs_same]

/-! ## VLOAD (R111) -/

theorem esz_f32 {s : State} (het : s.etype = .f32) : s.esz = 4 := congrArg EType.esz het

theorem esz_f16 {s : State} (het : s.etype = .f16) : s.esz = 2 := congrArg EType.esz het

/-- A little-endian integer is its first byte below the integer of the others (20_memory.md R41). -/
theorem Memory.ofNat_readLE_succ (m : Memory) (a n : Nat) :
    BitVec.ofNat (8 * n + 8) (m.readLE a (n + 1)) =
      BitVec.ofNat (8 * n) (m.readLE (a + 1) n) ++ m.read a := by
  have hbyte : (m.read a).toNat < 2 ^ 8 := (m.read a).isLt
  apply BitVec.eq_of_toNat_eq
  rw [BitVec.toNat_append, BitVec.toNat_ofNat, BitVec.toNat_ofNat,
    ← Nat.shiftLeft_add_eq_or_of_lt hbyte, Nat.shiftLeft_eq, Memory.readLE, Nat.pow_add,
    Nat.mul_comm (2 ^ (8 * n)), Nat.mod_mul,
    show ((m.read a).toNat + 256 * m.readLE (a + 1) n) / 2 ^ 8 = m.readLE (a + 1) n by omega]
  omega

@[simp] theorem Memory.ofNat_readLE_one (m : Memory) (a : Nat) :
    BitVec.ofNat 8 (m.readLE a 1) = m.read a := by
  simp [Memory.readLE]

theorem Memory.ofNat_readLE_two (m : Memory) (a : Nat) :
    BitVec.ofNat 16 (m.readLE a 2) = m.read (a + 1) ++ m.read a := by
  rw [← m.ofNat_readLE_one (a + 1)]
  exact m.ofNat_readLE_succ a 1

theorem Memory.ofNat_readLE_four (m : Memory) (a : Nat) :
    BitVec.ofNat 32 (m.readLE a 4) =
      m.read (a + 3) ++ m.read (a + 2) ++ m.read (a + 1) ++ m.read a := by
  have hthree : BitVec.ofNat 24 (m.readLE (a + 1) 3) =
      BitVec.ofNat 16 (m.readLE (a + 2) 2) ++ m.read (a + 1) := m.ofNat_readLE_succ (a + 1) 2
  rw [← m.ofNat_readLE_two (a + 2), ← hthree]
  exact m.ofNat_readLE_succ a 3

/-- An element of binary32 is its four bytes themselves (00_scope.md R16). -/
theorem elemAt_f32 {s : State} (het : s.etype = .f32) (a : Nat) :
    s.elemAt a = s.mem.read (a + 3) ++ s.mem.read (a + 2) ++ s.mem.read (a + 1) ++ s.mem.read a := by
  rw [State.elemAt, esz_f32 het, het, ← Memory.ofNat_readLE_four, elemToF32]

/-- An element of binary16 is widened from its two bytes (00_scope.md R16). -/
theorem elemAt_f16 {s : State} (het : s.etype = .f16) (a : Nat) :
    s.elemAt a = h2f (s.mem.read (a + 1) ++ s.mem.read a) := by
  rw [State.elemAt, esz_f16 het, het, ← Memory.ofNat_readLE_two, elemToF32]

theorem elemAddr_eq (s : State) (a i : Nat) : elemAddr s.params.variant a i = a + i * s.esz := rfl

/-- Settles O24: the lanes are the elements of the window, and an element is its bytes. -/
theorem vloadReadsWindow : Obligations.VloadReadsWindow := by
  intro vd x
  refine ⟨fun et y => decode_ok_iff.mpr ⟨rfl, rfl, rfl, rfl⟩, fun s hr => ?_, fun s k hk hr => ?_⟩
  · have hexec := execVload_window (k := vd) (readableWindow_iff.mpr hr)
    refine ⟨_, hexec, ?_, ?_, fun i hi het => ?_, fun i hi het => ?_, writeV_onlyVectorChanged s vd _⟩
    · rw [respond_vregs, writeV_vregs_same]
    · rw [respond_vregs, writeV_vregs_same, List.length_map, List.length_range]
    · rw [exec_vload_lane hexec hi, elemAddr_eq, esz_f32 het, elemAt_f32 het]
    · rw [exec_vload_lane hexec hi, elemAddr_eq, esz_f16 het, elemAt_f16 het]
  · exact exec_vload_fault vd (readableWindow_false.mpr ⟨k, hk, hr⟩)

/-! ## VSTORE (R112) -/

/-- Byte `k` of element `i` after a store is byte `k` of the pattern `e` that lane `i` becomes in the
element type (20_memory.md R41). -/
theorem exec_vstore_read {vs1 : VReg} {x : Addr} {s t : State} {i k w : Nat} {e : BitVec w}
    (hwf : s.wf = true) (h : exec (.vstore vs1 x) s = .next t) (hi : i < s.size) (hk : k < s.esz)
    (he : f32ToElem s.etype (s.lane vs1 i) = e.toNat) :
    t.mem.read (x.toNat + i * s.esz + k) = e.extractLsb' (8 * k) 8 := by
  have hbyte : (t.mem.read (x.toNat + i * s.esz + k)).toNat = e.toNat / 256 ^ k % 256 := by
    rw [← Memory.readLE_byte _ hk, exec_vstore_readLE hwf h hi, he]
  have hpow : 2 ^ (8 * k) = 256 ^ k := pow_mul 2 8 k
  apply BitVec.eq_of_toNat_eq
  rw [hbyte, BitVec.extractLsb'_toNat, Nat.shiftRight_eq_div_pow, hpow]

/-- Settles O25: the bytes by `exec_vstore_read`, the frame by `exec_vstore_onlyWindowChanged`. -/
theorem vstoreWritesWindow : Obligations.VstoreWritesWindow := by
  intro vs1 x
  refine ⟨fun et y => decode_ok_iff.mpr ⟨rfl, rfl, rfl, rfl⟩, fun s hwf hw => ?_,
    fun s k hk hw => ?_⟩
  · obtain ⟨t, hexec⟩ : ∃ t, exec (.vstore vs1 x) s = .next t :=
      ⟨_, exec_vstore_next.mpr ⟨writableWindow_iff.mpr hw, rfl⟩⟩
    refine ⟨t, hexec, fun i k hi hk het => ?_, fun i k hi hk het => ?_,
      exec_vstore_onlyWindowChanged hwf hexec⟩
    · rw [← esz_f32 het] at hk ⊢
      exact exec_vstore_read hwf hexec hi hk (by rw [het, f32ToElem])
    · rw [← esz_f16 het] at hk ⊢
      exact exec_vstore_read hwf hexec hi hk (by rw [het, f32ToElem])
  · exact exec_vstore_fault vs1 (writableWindow_false.mpr ⟨k, hk, hw⟩)

end Sys2Proof.Machine

/-! PROOFS. VADD, VMUL and VACC (42_vector_arith.md R120 to R125): the word, the lanes and the frame of
each, that lane commands without a conflict commute, and the copy through a zeroed register. -/

namespace Sys2Proof.Machine

open Sys2Proof.Safety

/-! ## What a lane command writes (R120 to R122) -/

/-- The state after the answer to a lane command that puts `op` of the lanes of `j` and `k` into `vd`;
both are read before `vd` is written (R123). -/
def State.laneResult (s : State) (op : Word → Word → Word) (vd j k : VReg) : State :=
  (s.writeV vd (List.zipWith op (s.readV j) (s.readV k))).respond false 0

theorem exec_vadd (vd vs1 vs2 : VReg) (s : State) :
    exec (.vadd vd vs1 vs2) s = .next (s.laneResult (fadd32 s.nan) vd vs1 vs2) := rfl

theorem exec_vmul (vd vs1 vs2 : VReg) (s : State) :
    exec (.vmul vd vs1 vs2) s = .next (s.laneResult (fmul32 s.nan) vd vs1 vs2) := rfl

/-- The accumulator is the first operand, so VACC has the result of VADD vd, vd, vs1. -/
theorem exec_vacc (vd vs1 : VReg) (s : State) :
    exec (.vacc vd vs1) s = .next (s.laneResult (fadd32 s.nan) vd vd vs1) := rfl

/-- The destination is written, with SIZE lanes, each of them `op` of the sources' lanes as they were
before, and nothing else changes. -/
theorem laneResult_spec {s : State} (hwf : s.wf = true) (op : Word → Word → Word) (vd j k : VReg) :
    (s.laneResult op vd j k).vregs[vd].written = true ∧
      (s.laneResult op vd j k).vregs[vd].lanes.length = s.size ∧
      (∀ i, i < s.size → (s.laneResult op vd j k).lane vd i = op (s.lane j i) (s.lane k i)) ∧
      onlyVectorChanged vd s (s.laneResult op vd j k) := by
  refine ⟨?_, ?_, fun i hi => lane_writeV_zipWith hwf op vd j k hi, writeV_onlyVectorChanged s vd _⟩
  · rw [State.laneResult, respond_vregs, writeV_vregs_same]
  · rw [State.laneResult, respond_vregs, writeV_vregs_same, List.length_zipWith, readV_length hwf,
      readV_length hwf, min_self]

/-- Settles O29: the outcome by `exec_vadd`, its lanes and its frame by `laneResult_spec`. -/
theorem vaddAddsLanes : Obligations.VaddAddsLanes := by
  intro vd vs1 vs2
  exact ⟨fun et x y => decode_ok_iff.mpr ⟨rfl, rfl, rfl, rfl⟩,
    fun s hwf => ⟨_, exec_vadd vd vs1 vs2 s, laneResult_spec hwf (fadd32 s.nan) vd vs1 vs2⟩⟩

/-- Settles O30: the outcome by `exec_vmul`, its lanes and its frame by `laneResult_spec`. -/
theorem vmulMultipliesLanes : Obligations.VmulMultipliesLanes := by
  intro vd vs1 vs2
  exact ⟨fun et x y => decode_ok_iff.mpr ⟨rfl, rfl, rfl, rfl⟩,
    fun s hwf => ⟨_, exec_vmul vd vs1 vs2 s, laneResult_spec hwf (fmul32 s.nan) vd vs1 vs2⟩⟩

/-- Settles O31: `exec_vacc` and `exec_vadd` name the same result. -/
theorem vaccAccumulatesLanes : Obligations.VaccAccumulatesLanes := by
  intro vd vs1
  refine ⟨fun et x y => decode_ok_iff.mpr ⟨rfl, rfl, rfl, rfl⟩,
    fun s hwf => ⟨_, exec_vacc vd vs1 s, laneResult_spec hwf (fadd32 s.nan) vd vd vs1⟩, fun s => ?_⟩
  rw [exec_vacc, exec_vadd]

/-! ## Independent lane commands (R125) -/

/-- VADD, VMUL and VACC are one operation of the instance on the lanes of two of their sources. -/
theorem exec_laneArith {i : Instr} {vd : VReg} (harith : isLaneArith i = true)
    (hd : vectorDest i = some vd) :
    ∃ (op : Word → Word → Word → Word) (j k : VReg), j ∈ vectorSources i ∧ k ∈ vectorSources i ∧
      ∀ s, exec i s = .next (s.laneResult (op s.nan) vd j k) := by
  cases i with
  | vadd d j k =>
    obtain rfl := Option.some.inj hd
    exact ⟨fadd32, j, k, by simp [vectorSources], by simp [vectorSources], exec_vadd d j k⟩
  | vmul d j k =>
    obtain rfl := Option.some.inj hd
    exact ⟨fmul32, j, k, by simp [vectorSources], by simp [vectorSources], exec_vmul d j k⟩
  | vacc d k =>
    obtain rfl := Option.some.inj hd
    exact ⟨fadd32, d, k, by simp [vectorSources], by simp [vectorSources], exec_vacc d k⟩
  | vzero | vload | vstore | hsum | smulm | sadd | sget | cvths | cvtsh | caps => cases harith

/-- Writes of two different vector registers may be exchanged. -/
theorem writeV_comm (s : State) {a b : VReg} (h : a ≠ b) (la lb : List Word) :
    (s.writeV a la).writeV b lb = (s.writeV b lb).writeV a la := by
  have hval : (a : Nat) ≠ b := fun e => h (Fin.ext e)
  simp only [State.writeV, Vector.set_comm _ _ hval]

/-- A lane result on top of another whose destination it does not read: two register writes with lanes of
the first state, then two answers. -/
theorem laneResult_laneResult (s : State) (op op' : Word → Word → Word) {a j k b j' k' : VReg}
    (hj' : j' ≠ a) (hk' : k' ≠ a) :
    (s.laneResult op a j k).laneResult op' b j' k' =
      (((s.writeV a (List.zipWith op (s.readV j) (s.readV k))).writeV b
        (List.zipWith op' (s.readV j') (s.readV k'))).respond false 0).respond false 0 := by
  rw [← writeV_readV_other s (List.zipWith op (s.readV j) (s.readV k)) hj',
    ← writeV_readV_other s (List.zipWith op (s.readV j) (s.readV k)) hk']
  rfl

/-- Two lane results commute when neither destination is the other's or one of the other's sources; both
answers are `resp(0, 0)`, so the responses agree too. -/
theorem laneResult_comm (s : State) (op op' : Word → Word → Word) {a j k b j' k' : VReg}
    (hab : a ≠ b) (hj : j ≠ b) (hk : k ≠ b) (hj' : j' ≠ a) (hk' : k' ≠ a) :
    (s.laneResult op a j k).laneResult op' b j' k' =
      (s.laneResult op' b j' k').laneResult op a j k := by
  rw [laneResult_laneResult s op op' hj' hk', laneResult_laneResult s op' op hj hk,
    writeV_comm s hab]

/-- Settles O32: `laneResult_comm` for the results that `exec_laneArith` names. -/
theorem independentLaneCommandsCommute : Obligations.IndependentLaneCommandsCommute := by
  intro s t u i j di dj hi hj hdi hdj hne hij hji hexec hexec'
  obtain ⟨op, a, b, ha, hb, hrun⟩ := exec_laneArith hi hdi
  obtain ⟨op', a', b', ha', hb', hrun'⟩ := exec_laneArith hj hdj
  obtain rfl := Host.Outcome.next.inj ((hrun s).symm.trans hexec)
  obtain rfl := Host.Outcome.next.inj ((hrun' _).symm.trans hexec')
  refine ⟨_, hrun' s, ?_⟩
  rw [hrun]
  exact congrArg Host.Outcome.next (laneResult_comm s (op s.nan) (op' s.nan) hne
    (ne_of_mem_of_not_mem ha hji) (ne_of_mem_of_not_mem hb hji)
    (ne_of_mem_of_not_mem ha' hij) (ne_of_mem_of_not_mem hb' hij)).symm

/-! ## The copy through a zeroed register (R124) -/

/-- Every lane of a register that VZERO has cleared is `+0`. -/
theorem exec_vzero_lane {vd : VReg} {s t : State} {i : Nat} (h : exec (.vzero vd) s = .next t)
    (hi : i < s.size) : t.lane vd i = 0x00000000 := by
  obtain rfl := answered_next.mp h
  rw [State.lane, respond_vregs, writeV_vregs_same]
  simp [hi]

/-- `+0 + x` is `x`, but `+0` for `-0` and NAN_RESULT for a NaN (40_fp_numerics.md R88, R102). -/
theorem fadd32_posZero_left (nan x : Word) : fadd32 nan 0x00000000 x =
    if isNaN32 x = true then nan else if x = 0x80000000 then 0x00000000 else x := by
  split
  next hn => exact fadd32_of_nan (.inr hn)
  next hn =>
    obtain ⟨-, hzero, -⟩ := adderAndMultiplierIdentities nan x (Bool.eq_false_iff.mpr hn)
    rw [fadd32_comm, hzero]

/-- Settles O33: VACC adds the lanes of `va`, which VZERO has left as they were, to `+0`. -/
theorem copyThroughZeroedRegister : Obligations.CopyThroughZeroedRegister := by
  intro s vd va hne hwf
  obtain ⟨t, ht⟩ : ∃ t, exec (.vzero vd) s = .next t := ⟨_, exec_vzero vd s⟩
  refine ⟨t, _, ht, exec_vacc vd va t, fun i hi => ?_⟩
  obtain ⟨hparams, -, -⟩ := exec_keepsSurroundings ht
  have hi' : i < t.size := by rwa [State.size, hparams]
  have hnan : t.nan = s.nan := by rw [State.nan, State.nan, hparams]
  have hva : t.lane va i = s.lane va i := by
    rw [State.lane, State.lane, exec_vregs_other (i := .vzero vd) (mt Option.some.inj hne) ht]
  rw [exec_vacc_lane (exec_wf hwf ht) (exec_vacc vd va t) hi', exec_vzero_lane ht hi, hva, hnan,
    fadd32_posZero_left]

end Sys2Proof.Machine

/-! PROOFS. HSUM, SMULM, SADD and SGET (43_reduce_scalar.md R130 to R134): the word, the result, the frame
and the fault of each, who writes a scalar register, and that products of widened elements are exact. -/

namespace Sys2Proof.Machine

open Sys2Proof.Safety

/-! ## Who writes a scalar register (R134) -/

/-- HSUM, SMULM and SADD are the commands with a scalar destination (10_state.md R20). -/
theorem scalarDest_eq_some_iff {i : Instr} {k : SReg} : scalarDest i = some k ↔
    (∃ vs1, i = .hsum k vs1) ∨ (∃ x y, i = .smulm k x y) ∨ (∃ a b, i = .sadd k a b) := by
  constructor
  · intro h
    cases i with
    | hsum sd vs1 => obtain rfl := Option.some.inj h; exact .inl ⟨vs1, rfl⟩
    | smulm sd x y => obtain rfl := Option.some.inj h; exact .inr (.inl ⟨x, y, rfl⟩)
    | sadd sd a b => obtain rfl := Option.some.inj h; exact .inr (.inr ⟨a, b, rfl⟩)
    | vzero | vload | vstore | vadd | vmul | vacc | sget | cvths | cvtsh | caps => cases h
  · rintro (⟨_, rfl⟩ | ⟨_, _, rfl⟩ | ⟨_, _, rfl⟩) <;> rfl

/-- A scalar register that is not the command's destination keeps its bits and its mark. -/
theorem exec_sregs_other {i : Instr} {s t : State} {k : SReg} (hk : scalarDest i ≠ some k)
    (h : exec i s = .next t) : t.sregs[k] = s.sregs[k] := by
  obtain ⟨vd, lanes, -, rfl⟩ | ⟨sd, bits, hd, rfl⟩ | ⟨vs1, x, -, -, rfl⟩ | ⟨-, -, err, data, rfl⟩ :=
    exec_next_cases h
  case inr.inl =>
    have hne : k ≠ sd := by
      rintro rfl
      exact hk hd
    exact writeS_sregs_other s sd bits hne
  all_goals rfl

/-- The horizontal sum of the lanes that VZERO leaves is `+0`, on every variant. -/
theorem hsum_zeroedRegister (nan : Word) (v : Variant) : hsum nan (List.replicate v.size 0) = 0 := by
  rw [← Nat.succ_pred_eq_of_pos (size_pos v), hsum_zeros]

/-- Settles O21: a changed register is the command's scalar destination, and HSUM after VZERO adds up
`+0` lanes. -/
theorem scalarRegisterWriters : Obligations.ScalarRegisterWriters := by
  refine ⟨fun s t i k h hne => ?_, fun s sd vk => ?_⟩
  · have hdest : scalarDest i = some k := by
      by_contra hk
      exact hne (exec_sregs_other hk h)
    exact scalarDest_eq_some_iff.mp hdest
  · refine ⟨_, _, exec_vzero vk s, execHsum_of (writeV_vregs_same s vk _), ?_⟩
    rw [respond_sregs, writeS_sregs_same]
    exact congrArg (ScalarReg.mk · true) (hsum_zeroedRegister s.nan s.params.variant)

/-! ## What a scalar write changes -/

/-- Writing register `sd` and answering puts `bits` there and changes nothing else. -/
theorem scalarResult_spec (s : State) (sd : SReg) (bits : Word) :
    ((s.writeS sd bits).respond false 0).sregs[sd] = ⟨bits, true⟩ ∧
      onlyScalarChanged sd s ((s.writeS sd bits).respond false 0) :=
  ⟨writeS_sregs_same s sd bits, fun _ => rfl, fun _ hk => writeS_sregs_other s sd bits hk,
    fun _ => rfl, ⟨rfl, rfl, rfl⟩, rfl⟩

/-! ## HSUM (R130) -/

/-- A fold over a list is a fold over its indices. -/
theorem foldl_eq_foldl_range {α β : Type} (f : β → α → β) (l : List α) (d : α) (b : β) :
    l.foldl f b = (List.range l.length).foldl (fun acc i => f acc (l.getD i d)) b := by
  have hl : (List.range l.length).map (fun i => l.getD i d) = l :=
    List.ext_getElem (by simp) fun i _ hi => by simp [hi]
  conv_lhs => rw [← hl, List.foldl_map]

/-- The horizontal sum of a register with lanes, by lane number (40_fp_numerics.md R99). -/
theorem hsum_eq_foldl_range (nan : Word) {lanes : List Word} (h : lanes ≠ []) :
    hsum nan lanes = (List.range (lanes.length - 1)).foldl
      (fun acc i => fadd32 nan acc (lanes.getD (i + 1) 0)) (lanes.getD 0 0) := by
  cases lanes with
  | nil => exact absurd rfl h
  | cons w ws => exact foldl_eq_foldl_range (fadd32 nan) ws 0 w

/-- Settles O35: the sum by lane number, of a register that has SIZE lanes. -/
theorem hsumAddsLanesInOrder : Obligations.HsumAddsLanesInOrder := by
  intro sd vs1
  refine ⟨fun et x y => decode_ok_iff.mpr ⟨rfl, rfl, rfl, rfl⟩, fun s hwf => ?_⟩
  have hlen : s.vregs[vs1].lanes.length = s.size := readV_length hwf vs1
  have hne : s.vregs[vs1].lanes ≠ [] :=
    List.ne_nil_of_length_pos (hlen.symm ▸ size_pos s.params.variant)
  obtain ⟨hsd, hframe⟩ := scalarResult_spec s sd (hsum s.nan s.vregs[vs1].lanes)
  refine ⟨_, execHsum_of rfl, hsd.trans ?_, hframe⟩
  rw [hsum_eq_foldl_range _ hne, hlen]
  rfl

/-! ## SMULM (R131) -/

/-- Settles O36: the elements are their bytes, and a byte that is not readable faults the command. -/
theorem smulmMultipliesElements : Obligations.SmulmMultipliesElements := by
  intro sd x y
  refine ⟨fun et => decode_ok_iff.mpr ⟨rfl, rfl, rfl, rfl⟩, fun s hx hy => ?_, fun s k hk hr => ?_⟩
  · obtain ⟨hsd, hframe⟩ :=
      scalarResult_spec s sd (fmul32 s.nan (s.elemAt x.toNat) (s.elemAt y.toNat))
    refine ⟨_, execSmulm_elements (readableWindow_iff.mpr hx) (readableWindow_iff.mpr hy), ?_,
      fun het => ?_, fun het => ?_, hframe⟩
    · rw [hsd]
    · rw [hsd, elemAt_f32 het, elemAt_f32 het]
    · rw [hsd, elemAt_f16 het, elemAt_f16 het]
  · exact exec_smulm_fault sd (hr.imp (fun h => readableWindow_false.mpr ⟨k, hk, h⟩)
      (fun h => readableWindow_false.mpr ⟨k, hk, h⟩))

/-! ## Products of widened elements (R131) -/

/-- A significand up to `2^24` is a finite binary32 value in every unit from `2^-149` up to `2^103`. -/
theorem exists_word_of_sig (s : Bool) {q d : Nat} (hq : q ≤ 2 ^ 24) (hd : d ≤ 252) :
    ∃ f, isFinite32 f = true ∧ value32 f = signed s (q * 2 ^ d) := by
  obtain ⟨r, hr⟩ := exists_latticeMag_eq (p := 23) d hq
  have hlt : r < 255 * 2 ^ 23 := by
    rw [← (latticeMag_strictMono 23).lt_iff_lt, hr,
      show 255 * 2 ^ 23 = 254 * 2 ^ 23 + 2 ^ 23 by decide, latticeMag_index (by decide) (by decide)]
    calc q * 2 ^ d ≤ 2 ^ 24 * 2 ^ 252 := Nat.mul_le_mul hq (Nat.pow_le_pow_right (by decide) hd)
      _ < 2 ^ 23 * 2 ^ 254 := by norm_num
  obtain ⟨f, hs, hi⟩ := exists_word s (show r < 2 ^ 31 by omega)
  exact ⟨f, isFinite32_iff.mpr (by rwa [hi]), by rw [value32_eq, hs, hi, hr]⟩

/-- A binary16 number is a significand below `2^11` in one of its thirty units. -/
theorem exists_value16_eq {h : Half} (hf : isFinite16 h = true) :
    ∃ q d, q < 2 ^ 11 ∧ d < 30 ∧ value16 h = signed (sign16 h) (q * 2 ^ d) := by
  obtain ⟨d, q, hi, hq, hd⟩ := exists_index 10 (index16 h)
  have hidx := isFinite16_iff.mp hf
  exact ⟨q, d, hq, by omega, by rw [value16_eq, hi, latticeMag_index hq.le hd]⟩

/-- The product of two binary16 numbers has at most 22 significant bits, so it is a binary32 value;
its unit `2^-48` is `2^101` of the units `2^-149`. -/
theorem exists_word_of_halfProduct {a b : Half} (ha : isFinite16 a = true) (hb : isFinite16 b = true) :
    ∃ f, isFinite32 f = true ∧ value32 f = value16 a * value16 b * 2 ^ 101 := by
  obtain ⟨q, d, hq, hd, hva⟩ := exists_value16_eq ha
  obtain ⟨q', d', hq', hd', hvb⟩ := exists_value16_eq hb
  have hsig : q * q' ≤ 2 ^ 24 := (Nat.mul_le_mul hq.le hq'.le).trans (by decide)
  obtain ⟨f, hf, hv⟩ := exists_word_of_sig (sign16 a ^^ sign16 b) hsig
    (show d + d' + 101 ≤ 252 by omega)
  have hmag : q * q' * 2 ^ (d + d' + 101) = q * 2 ^ d * (q' * 2 ^ d') * 2 ^ 101 := by ring
  exact ⟨f, hf, by rw [hv, hva, hvb, signed_mul_signed, signed_mul_two_pow, hmag]⟩

/-- Settles O57: the exact product is representable, so rounding does not change it. -/
theorem halfProductsExact : Obligations.HalfProductsExact := by
  intro nan a b ha hb
  obtain ⟨f, hf, hv⟩ := exists_word_of_halfProduct ha hb
  obtain ⟨hfa, -⟩ := latticeMag_h2f ha
  obtain ⟨hfb, -⟩ := latticeMag_h2f hb
  obtain ⟨hround, -⟩ := fmul32_correctlyRounded nan hfa hfb
  have hexact : value32 (h2f a) * value32 (h2f b) = value32 f * 2 ^ 149 := by
    rw [value32_h2f ha, value32_h2f hb, hv]
    ring
  obtain ⟨hfin, hval⟩ := hround.eq_of_exact hf hexact
  refine ⟨hfin, ?_⟩
  rw [hval, hv]
  ring

/-! ## SADD (R132) and SGET (R133) -/

/-- Settles O37: both sources are read before `sd` is written, so the registers may coincide. -/
theorem saddAddsScalars : Obligations.SaddAddsScalars := by
  intro sd ss1 ss2
  exact ⟨fun et x y => decode_ok_iff.mpr ⟨rfl, rfl, rfl, rfl⟩,
    fun s => ⟨_, execSadd_of rfl rfl, scalarResult_spec s sd _⟩⟩

/-- An answer changes nothing but the responses. -/
theorem respond_onlyResponded (s : State) (err : Bool) (data : Word) :
    onlyResponded ⟨err, data⟩ s (s.respond err data) :=
  ⟨fun _ => rfl, fun _ => rfl, fun _ => rfl, ⟨rfl, rfl, rfl⟩, rfl⟩

/-- Settles O38: the answer carries the bits held, and an answer changes nothing else. -/
theorem sgetReturnsScalar : Obligations.SgetReturnsScalar := by
  intro ss1
  exact ⟨fun et x y => decode_ok_iff.mpr ⟨rfl, rfl, rfl, rfl⟩,
    fun s => ⟨_, execSget_of rfl, respond_onlyResponded s false _⟩⟩

end Sys2Proof.Machine

/-! PROOFS. CVTHS, CVTSH and CAPS (44_convert_caps.md R140 to R143): the word, the answer and the frame
of each, and the fields of the CAPS word. -/

namespace Sys2Proof.Machine

/-! ## The converter (R140, R141, R143) -/

/-- H8 is a variant with a converter (00_scope.md R7). -/
theorem etype_of_variant_h8 {s : State} (hv : s.params.variant = .h8) : s.etype = .f16 :=
  congrArg Variant.etype hv

/-- The operand travels on the bus, so CVTHS has one word (44_convert_caps.md R140). -/
theorem encode_cvths_word (h : Half) : (encode (.cvths h)).word = 0x0B000000 :=
  show encodeWord 0x0B 0 0 0 = 0x0B000000 by decide

/-- The operand travels on the bus, so CVTSH has one word (44_convert_caps.md R141). -/
theorem encode_cvtsh_word (f : Word) : (encode (.cvtsh f)).word = 0x0C000000 :=
  show encodeWord 0x0C 0 0 0 = 0x0C000000 by decide

/-- With a converter, CVTHS answers the widened operand (44_convert_caps.md R140). -/
theorem exec_cvths {s : State} (het : s.etype = .f16) (h : Half) :
    exec (.cvths h) s = .next (s.respond false (h2f h)) :=
  if_pos het

/-- With a converter, CVTSH answers the narrowed operand with bits 31:16 zero
(44_convert_caps.md R141). -/
theorem exec_cvtsh {s : State} (het : s.etype = .f16) (f : Word) :
    exec (.cvtsh f) s = .next (s.respond false ((0 : BitVec 16) ++ f2h f)) := by
  rw [← half_setWidth_eq_zero_append]
  exact if_pos het

/-- Settles O39: the word is refused by its converter clause whatever the buses carry; on H8 the
converter is there, and an answer changes nothing else. -/
theorem cvthsConverts : Obligations.CvthsConverts := by
  have hrefused : decode .f32 ⟨0x0B000000, 0, 0⟩ = .error .noConverter := by decide
  exact ⟨fun x y => decode_ok_iff.mpr ⟨(encode_cvths_word _).symm, rfl, rfl, rfl⟩,
    fun x y => decode_error_buses x y hrefused,
    fun s h hv => ⟨_, exec_cvths (etype_of_variant_h8 hv) h, respond_onlyResponded s false _⟩⟩

/-- Settles O40: as O39, and the narrowed pattern is zero-extended. -/
theorem cvtshConverts : Obligations.CvtshConverts := by
  have hrefused : decode .f32 ⟨0x0C000000, 0, 0⟩ = .error .noConverter := by decide
  exact ⟨fun x y => decode_ok_iff.mpr ⟨(encode_cvtsh_word _).symm, rfl, rfl, rfl⟩,
    fun x y => decode_error_buses x y hrefused,
    fun s f hv => ⟨_, exec_cvtsh (etype_of_variant_h8 hv) f, respond_onlyResponded s false _⟩⟩

/-! ## The CAPS word (R142) -/

/-- The fields of 10_state.md R28 on W4: version 1.0, HALF clear, SIZE 4. -/
theorem capsWord_w4 : capsWord .w4 = 0x01000004 := by decide

/-- The fields of 10_state.md R28 on W8: version 1.0, HALF clear, SIZE 8. -/
theorem capsWord_w8 : capsWord .w8 = 0x01000008 := by decide

/-- The layout of 10_state.md R28, from bit 0 up: SIZE, HALF, zeros, and the version 1.0. -/
theorem capsWord_fields (v : Variant) : ((capsWord v).extractLsb' 0 8).toNat = v.size ∧
    (capsWord v).getLsbD 8 = (v.etype == .f16) ∧ (capsWord v).extractLsb' 9 7 = 0 ∧
    (capsWord v).extractLsb' 16 8 = 0 ∧ (capsWord v).extractLsb' 24 8 = 1 := by
  cases v with
  | w4 => rw [capsWord_w4]; decide
  | w8 => rw [capsWord_w8]; decide
  | h8 => rw [capsWord_h8]; decide

/-- Settles O41: CAPS reads the variant alone, so every state has the answer. -/
theorem capsReturnsIdentity : Obligations.CapsReturnsIdentity :=
  ⟨fun _ _ _ => decode_ok_iff.mpr ⟨rfl, rfl, rfl, rfl⟩,
    fun s => ⟨_, exec_caps s, respond_onlyResponded s false _⟩,
    capsWord_fields, capsWord_w4, capsWord_w8, capsWord_h8⟩

end Sys2Proof.Machine

/-! PROOFS. The step of a command (60_exceptions.md R195) and of an empty port (R194). -/

namespace Sys2Proof.Machine

theorem step_legal {s : State} {c : Command} {rest : List HostAction} {i : Instr}
    (hp : s.port = .command c :: rest) (hd : decode s.etype c = .ok i) :
    step s = exec i (s.accept rest) := by
  simp only [step, hp, hd]

/-- Settles O8: both clauses by `step_legal`; accepting what was just presented leaves the state. -/
theorem stepRunsDecodedCommand : Obligations.StepRunsDecodedCommand := by
  refine ⟨fun s c rest i => step_legal, fun s nbits w i hd => ?_⟩
  exact step_legal (present_port s (Command.ofBits nbits w)) hd

/-- Settles O9: the branch of `step` for an empty port. -/
theorem idleUnitHoldsState : Obligations.IdleUnitHoldsState := by
  intro s hp
  simp only [step, hp, idle]

end Sys2Proof.Machine

/-! PROOFS. What a command sees of the state: `exec` gives the same outcome on two states that differ only
in the marks of 10_state.md R32 or in the responses delivered before (60_exceptions.md R181, R183). -/

namespace Sys2Proof.Machine

open Sys2Proof.Safety

/-! ## Outcomes under a change of the state -/

/-- The outcome with `g` applied to its next state. -/
def mapNext (g : State → State) : Out → Out
  | .next s => .next (g s)
  | .fault f => .fault f
  | .refused r => .refused r

@[simp] theorem mapNext_next (g : State → State) (s : State) : mapNext g (.next s) = .next (g s) := rfl

@[simp] theorem mapNext_fault (g : State → State) (f : Fault) : mapNext g (.fault f) = .fault f := rfl

theorem mapNext_eq_next_iff {g : State → State} {o : Out} {t : State} :
    mapNext g o = .next t ↔ ∃ u, o = .next u ∧ g u = t := by
  cases o <;> simp [mapNext]

theorem mapNext_eq_fault_iff {g : State → State} {o : Out} {f : Fault} :
    mapNext g o = .fault f ↔ o = .fault f := by
  cases o <;> simp [mapNext]

theorem orFault_mapNext {α : Type} {g : State → State} {k k' : α → Out} (r : Except Fault α)
    (h : ∀ a, k' a = mapNext g (k a)) : orFault r k' = mapNext g (orFault r k) := by
  cases r with
  | ok a => exact h a
  | error f => rfl

theorem orFault_map {α β : Type} (f : α → β) (r : Except Fault α) (k : β → Out) :
    orFault (r.map f) k = orFault r fun a => k (f a) := by
  cases r <;> rfl

/-! ## Changes that no command can see -/

/-- `g` changes nothing that a command reads: it commutes with every operation that commands are made
of. -/
structure Unseen (g : State → State) : Prop where
  params : ∀ s, (g s).params = s.params
  mem : ∀ s, (g s).mem = s.mem
  launch : ∀ s, (g s).launch = s.launch
  port : ∀ s, (g s).port = s.port
  readV : ∀ s k, (g s).readV k = s.readV k
  readS : ∀ s k, (g s).readS k = s.readS k
  writeV : ∀ s k lanes, (g s).writeV k lanes = g (s.writeV k lanes)
  writeS : ∀ s k bits, (g s).writeS k bits = g (s.writeS k bits)
  store : ∀ s m, { g s with mem := m } = g { s with mem := m }
  respond : ∀ s err data, (g s).respond err data = g (s.respond err data)
  accept : ∀ s rest, (g s).accept rest = g (s.accept rest)

namespace Unseen

variable {g : State → State} (hg : Unseen g) (s : State)
include hg

theorem size : (g s).size = s.size := congrArg (·.variant.size) (hg.params s)

theorem etype : (g s).etype = s.etype := congrArg (·.variant.etype) (hg.params s)

theorem esz : (g s).esz = s.esz := congrArg (·.variant.esz) (hg.params s)

theorem vbytes : (g s).vbytes = s.vbytes := congrArg (·.variant.vbytes) (hg.params s)

theorem nan : (g s).nan = s.nan := congrArg (·.nanResult) (hg.params s)

theorem readableWindow (a n : Nat) : (g s).readableWindow a n = s.readableWindow a n := by
  rw [State.readableWindow, hg.launch, State.readableWindow]

theorem writableWindow (a n : Nat) : (g s).writableWindow a n = s.writableWindow a n := by
  rw [State.writableWindow, hg.launch, State.writableWindow]

theorem elemAt (a : Nat) : (g s).elemAt a = s.elemAt a := by
  rw [State.elemAt, hg.etype, hg.mem, hg.esz, State.elemAt]

theorem loadElem (a : Nat) : (g s).loadElem a = s.loadElem a := by
  simp only [State.loadElem, State.memRead, hg.readableWindow, hg.mem, hg.esz, hg.etype]

theorem loadWindow (a : Nat) : (g s).loadWindow a = s.loadWindow a := by
  simp only [State.loadWindow, hg.readableWindow, hg.vbytes, hg.size, hg.params, hg.elemAt]

theorem storeWindow (a : Nat) (lanes : List Word) :
    (g s).storeWindow a lanes = (s.storeWindow a lanes).map g := by
  simp only [State.storeWindow, hg.writableWindow, hg.vbytes, hg.mem, hg.etype, hg.store]
  split <;> rfl

theorem answered (data : Word) :
    Machine.answered (g s) data = mapNext g (Machine.answered s data) := by
  rw [Machine.answered, hg.respond, Machine.answered, mapNext_next]

theorem illegalCommand : Machine.illegalCommand (g s) = mapNext g (Machine.illegalCommand s) := by
  rw [Machine.illegalCommand, hg.respond, Machine.illegalCommand, mapNext_next]

theorem answered_writeV (k : VReg) (lanes : List Word) :
    Machine.answered ((g s).writeV k lanes) 0 = mapNext g (Machine.answered (s.writeV k lanes) 0) := by
  rw [hg.writeV, hg.answered]

theorem answered_writeS (k : SReg) (bits : Word) :
    Machine.answered ((g s).writeS k bits) 0 = mapNext g (Machine.answered (s.writeS k bits) 0) := by
  rw [hg.writeS, hg.answered]

end Unseen

/-- A command has the same outcome after a change that it cannot see, and the change stays. -/
theorem exec_unseen {g : State → State} (hg : Unseen g) (i : Instr) (s : State) :
    exec i (g s) = mapNext g (exec i s) := by
  cases i with
  | vzero vd =>
    rw [exec, execVzero, hg.size]
    exact hg.answered_writeV s vd _
  | vload vd x =>
    rw [exec, execVload, hg.loadWindow]
    exact orFault_mapNext _ fun lanes => hg.answered_writeV s vd lanes
  | vstore vs1 x =>
    rw [exec, execVstore, hg.readV, hg.storeWindow, orFault_map]
    exact orFault_mapNext _ fun s' => hg.answered s' 0
  | vadd vd vs1 vs2 =>
    rw [exec, execVadd, hg.nan, hg.readV, hg.readV]
    exact hg.answered_writeV s vd _
  | vmul vd vs1 vs2 =>
    rw [exec, execVmul, hg.nan, hg.readV, hg.readV]
    exact hg.answered_writeV s vd _
  | vacc vd vs1 =>
    rw [exec, execVacc, hg.nan, hg.readV, hg.readV]
    exact hg.answered_writeV s vd _
  | hsum sd vs1 =>
    rw [exec, execHsum, hg.nan, hg.readV]
    exact hg.answered_writeS s sd _
  | smulm sd x y =>
    rw [exec, execSmulm, hg.loadElem, hg.loadElem, hg.nan]
    exact orFault_mapNext _ fun p => orFault_mapNext _ fun q => hg.answered_writeS s sd _
  | sadd sd ss1 ss2 =>
    rw [exec, execSadd, hg.nan, hg.readS, hg.readS]
    exact hg.answered_writeS s sd _
  | sget ss1 =>
    rw [exec, execSget, hg.readS]
    exact hg.answered s _
  | cvths | cvtsh =>
    simp only [exec, execCvths, execCvtsh, hg.etype, hg.answered, hg.illegalCommand]
    exact (apply_ite (mapNext g) _ _ _).symm
  | caps =>
    rw [exec, execCaps, hg.params]
    exact hg.answered s _

/-- So has the step of a command, legal or illegal. -/
theorem step_unseen {g : State → State} (hg : Unseen g) {s : State} {c : Command}
    {rest : List HostAction} (hp : s.port = .command c :: rest) : step (g s) = mapNext g (step s) := by
  have hp' : (g s).port = .command c :: rest := (hg.port s).trans hp
  have hetype : (g s).etype = s.etype := hg.etype s
  cases hd : decode s.etype c with
  | ok i =>
    rw [step_legal hp' (hetype ▸ hd), step_legal hp hd, hg.accept, exec_unseen hg]
  | error e =>
    rw [step_illegal hp' (hetype ▸ hd), step_illegal hp hd, hg.accept, hg.respond, mapNext_next]

/-- The marks of 10_state.md R32 are not seen (60_exceptions.md R183, log 2). -/
theorem allWritten_unseen : Unseen allWritten where
  params _ := rfl
  mem _ := rfl
  launch _ := rfl
  port _ := rfl
  readV := allWritten_readV
  readS := allWritten_readS
  writeV := allWritten_writeV
  writeS := allWritten_writeS
  store _ _ := rfl
  respond := allWritten_respond
  accept _ _ := rfl

/-- The state with `earlier` delivered before its own responses. -/
def State.withEarlier (earlier : List Response) (s : State) : State :=
  { s with responses := earlier ++ s.responses }

/-- The responses delivered before a command are not seen by it (60_exceptions.md R181). -/
theorem withEarlier_unseen (earlier : List Response) : Unseen (State.withEarlier earlier) where
  params _ := rfl
  mem _ := rfl
  launch _ := rfl
  port _ := rfl
  readV _ _ := rfl
  readS _ _ := rfl
  writeV _ _ _ := rfl
  writeS _ _ _ := rfl
  store _ _ := rfl
  respond s err data := by simp [State.withEarlier, State.respond]
  accept _ _ := rfl

/-- The state as at the start of a run: nothing delivered yet. -/
def State.undelivered (s : State) : State := { s with responses := [] }

theorem withEarlier_undelivered (s : State) (earlier : List Response) :
    s.undelivered.withEarlier earlier = { s with responses := earlier } := by
  rw [State.withEarlier, State.undelivered, List.append_nil]

/-- Whatever has been delivered, a command does what it does at the start of a run, and what it delivers
comes after. -/
theorem step_responses {s : State} {c : Command} {rest : List HostAction}
    (hp : s.port = .command c :: rest) (earlier : List Response) :
    step { s with responses := earlier } =
      mapNext (State.withEarlier earlier) (step s.undelivered) := by
  rw [← withEarlier_undelivered]
  exact step_unseen (withEarlier_unseen earlier) hp

/-- A command has the same outcome after one response more; it answers the same. -/
theorem step_next_of_response {s u : State} {c : Command} {rest : List HostAction}
    (hp : s.port = .command c :: rest) (r : Response) (h : step s = .next u) :
    ∃ q, u.responses = s.responses ++ [q] ∧
      step { s with responses := s.responses ++ [r] } =
        .next { u with responses := s.responses ++ [r, q] } := by
  obtain ⟨-, q, hq, -, -⟩ := responseOfEveryCommand s u c rest hp h
  obtain ⟨v, hv, rfl⟩ := mapNext_eq_next_iff.mp ((step_responses hp s.responses).symm.trans h)
  have hanswer : v.responses = [q] := List.append_cancel_left hq
  refine ⟨q, hq, ?_⟩
  rw [step_responses hp, hv, mapNext_next, State.withEarlier, hanswer, List.append_assoc]
  rfl

/-- A command that stops stops after one response more. -/
theorem step_fault_of_response {s : State} {c : Command} {rest : List HostAction} {f : Fault}
    (hp : s.port = .command c :: rest) (r : Response) (h : step s = .fault f) :
    step { s with responses := s.responses ++ [r] } = .fault f := by
  have hstop : step s.undelivered = .fault f :=
    mapNext_eq_fault_iff.mp ((step_responses hp s.responses).symm.trans h)
  rw [step_responses hp, hstop, mapNext_fault]

/-- Settles O10: after the illegal answer the next command meets the state it would have met, with one
response more. -/
theorem nextCommandUnaffectedByIllegal : Obligations.NextCommandUnaffectedByIllegal := by
  intro s c d rest e hp hd
  have hp' : (s.accept (.command d :: rest)).port = .command d :: rest := rfl
  exact ⟨_, step_illegal hp hd, rfl, fun u hu => step_next_of_response hp' ⟨true, 0⟩ hu,
    fun f hf => step_fault_of_response hp' ⟨true, 0⟩ hf⟩

end Sys2Proof.Machine

/-! PROOFS. The outcomes of a command (60_exceptions.md R195): a command stops exactly on an invalid
window, the verdicts tied to the step, and the run of commands that are all `ok`. -/

namespace Sys2Proof.Machine

open Sys2Proof.Safety

/-! ## Invalid windows (60_exceptions.md R182) -/

/-- A command whose windows are valid completes, whatever its registers hold (log 2). -/
theorem exec_completes {i : Instr} {s : State} (h : windowsValid s i = true) :
    ∃ t, exec i s = .next t := by
  cases i with
  | vzero | vadd | vmul | vacc | hsum | sadd | sget | caps => exact ⟨_, rfl⟩
  | vload vd x => exact ⟨_, execVload_window h⟩
  | vstore vs1 x => exact ⟨_, exec_vstore_next.mpr ⟨h, rfl⟩⟩
  | smulm sd x y =>
    obtain ⟨hx, hy⟩ := Bool.and_eq_true_iff.mp h
    exact ⟨_, execSmulm_elements hx hy⟩
  | cvths | cvtsh =>
    simp only [exec, execCvths, execCvtsh]
    split <;> exact ⟨_, rfl⟩

/-- A command that touches an invalid byte stops. -/
theorem exec_faults {i : Instr} {s : State} (h : windowsValid s i = false) :
    ∃ f, exec i s = .fault f := by
  cases i with
  | vload vd x => exact ⟨_, exec_vload_fault vd h⟩
  | vstore vs1 x => exact ⟨_, exec_vstore_fault vs1 h⟩
  | smulm sd x y => exact ⟨_, exec_smulm_fault sd (Bool.and_eq_false_iff.mp h)⟩
  | vzero | vadd | vmul | vacc | hsum | sadd | sget | cvths | cvtsh | caps => cases h

/-- Accepting an action does not touch the windows. -/
theorem accept_windowsValid (s : State) (rest : List HostAction) (i : Instr) :
    windowsValid (s.accept rest) i = windowsValid s i := by
  cases i <;> rfl

/-! ## The verdicts (60_exceptions.md R195) -/

theorem verdict_illegal_iff {s : State} {c : Command} :
    verdict s c = .illegal ↔ ∃ e, decode s.etype c = .error e := by
  unfold verdict
  cases decode s.etype c with
  | error e => simp
  | ok i => cases hi : inContract s i <;> simp [hi]

theorem verdict_fault_iff {s : State} {c : Command} :
    verdict s c = .fault ↔ ∃ i, decode s.etype c = .ok i ∧ inContract s i = false := by
  unfold verdict
  cases decode s.etype c with
  | error e => simp
  | ok i => cases hi : inContract s i <;> simp [hi]

theorem contractStep_of_fault {s : State} {c : Command} {rest : List HostAction}
    (hp : s.port = .command c :: rest) (hv : verdict s c = .fault) : contractStep s = none := by
  rw [contractStep_command hp, if_pos hv]

theorem contractStep_of_next {s t : State} {c : Command} {rest : List HostAction}
    (hp : s.port = .command c :: rest) (hv : verdict s c ≠ .fault) (h : step s = .next t) :
    contractStep s = some t := by
  rw [contractStep_command hp, if_neg hv, h, contractStep.nextOf]

/-- A command with verdict `ok` completes with one response, whose `err` is 0. -/
theorem step_of_verdict_ok {s : State} {c : Command} {rest : List HostAction}
    (hp : s.port = .command c :: rest) (hv : verdict s c = .ok) :
    ∃ t d, step s = .next t ∧ t.port = rest ∧ t.responses = s.responses ++ [⟨false, d⟩] := by
  obtain ⟨i, hd, hi⟩ := verdict_ok_iff.mp hv
  obtain ⟨-, hwindows⟩ := Bool.and_eq_true_iff.mp hi
  obtain ⟨-, hwf, -, -⟩ := decode_ok_iff.mp hd
  obtain ⟨t, ht⟩ := exec_completes ((accept_windowsValid s rest i).trans hwindows)
  obtain ⟨-, -, hport⟩ := exec_keepsSurroundings ht
  exact ⟨t, _, (step_legal hp hd).trans ht, hport, exec_responses (s := s.accept rest) hwf ht⟩

/-- Settles O12: one clause for each verdict. -/
theorem outcomeTable : Obligations.OutcomeTable := by
  intro s c rest hp
  refine ⟨fun hv => ?_, fun hv => ?_, fun hv => ⟨contractStep_of_fault hp hv, fun i hd hw => ?_⟩⟩
  · obtain ⟨t, d, hstep, -, hresp⟩ := step_of_verdict_ok hp hv
    exact ⟨t, d, hstep, contractStep_of_next hp (by simp [hv]) hstep, hresp⟩
  · obtain ⟨e, hd⟩ := verdict_illegal_iff.mp hv
    exact ⟨step_illegal hp hd, contractStep_of_next hp (by simp [hv]) (step_illegal hp hd)⟩
  · rw [step_legal hp hd]
    exact exec_faults ((accept_windowsValid s rest i).trans hw)

/-- Settles O13: the contract asks for the marks, and no command sees them. -/
theorem unwrittenSourceRead : Obligations.UnwrittenSourceRead := by
  refine ⟨fun s c rest i hp hd hsrc => ?_, fun s t i h => ?_, fun s i f h => ?_,
    fun s i => exec_completes⟩
  · have hout : inContract s i = false := by rw [inContract, hsrc, Bool.false_and]
    have hv : verdict s c = .fault := verdict_fault_iff.mpr ⟨i, hd, hout⟩
    exact ⟨hv, contractStep_of_fault hp hv⟩
  · rw [exec_unseen allWritten_unseen, h, mapNext_next]
  · rw [exec_unseen allWritten_unseen, h, mapNext_fault]

/-! ## A correct run (70_reset_and_hazards.md R208) -/

theorem run_of_step {M : Host.Core} {s t : M.State} (h : M.step s = .next t) (k : Nat) :
    M.run (k + 1) s = M.run k t := by
  rw [Host.Core.run, h]

theorem verdict_of_ranCorrectly {s : State} {c : Command} {rest : List HostAction}
    (h : ranCorrectly (.command c :: rest) s = true) : verdict s c = .ok := by
  rw [ranCorrectly, Bool.and_eq_true_iff] at h
  obtain ⟨hv, -⟩ := h
  exact eq_of_beq hv

/-- `u` is a state in which `n` commands have been answered since `s`, all with `err = 0`, and no action
is left on the port. -/
def AllAnswered (s u : State) (n : Nat) : Prop :=
  u.port = [] ∧ ∃ rs : List Response, u.responses = s.responses ++ rs ∧ rs.length = n ∧
    ∀ r ∈ rs, r.err = false

theorem AllAnswered.cons {s t u : State} {n : Nat} {d : Word}
    (ht : t.responses = s.responses ++ [⟨false, d⟩]) (h : AllAnswered t u n) :
    AllAnswered s u (n + 1) := by
  obtain ⟨hport, rs, hrs, hlen, herr⟩ := h
  refine ⟨hport, ⟨false, d⟩ :: rs, ?_, by rw [List.length_cons, hlen], ?_⟩
  · rw [hrs, ht, List.append_assoc, List.singleton_append]
  · exact List.forall_mem_cons.mpr ⟨rfl, herr⟩

theorem run_of_ranCorrectly {actions : List HostAction} {s : State} (hp : s.port = actions)
    (h : ranCorrectly actions s = true) :
    ∃ u, Sys2Proof.core.run actions.length s = .next u ∧ AllAnswered s u actions.length := by
  induction actions generalizing s with
  | nil => exact ⟨s, rfl, hp, [], by simp, rfl, by simp⟩
  | cons a rest ih =>
    cases a with
    | reset => cases h
    | command c =>
      obtain ⟨t, d, hstep, hport, hresp⟩ := step_of_verdict_ok hp (verdict_of_ranCorrectly h)
      have hpresented : step { s with port := .command c :: rest } = .next t := by rwa [← hp]
      obtain ⟨-, hrest⟩ := ranCorrectly_cons h hpresented
      obtain ⟨u, hrun, hall⟩ := ih hport hrest
      exact ⟨u, (run_of_step hstep rest.length).trans hrun, hall.cons hresp⟩

/-- Settles O14: each step by `step_of_verdict_ok`, the run by induction on the actions. -/
theorem correctRunCompletes : Obligations.CorrectRunCompletes :=
  fun _ h => run_of_ranCorrectly rfl h

end Sys2Proof.Machine

/-! PROOFS. A reset between commands (70_reset_and_hazards.md R200, R201). -/

namespace Sys2Proof.Machine

/-- A reset at the head of the queue is taken off it and then takes effect (log 8). -/
theorem step_reset {s : State} {rest : List HostAction} (hp : s.port = .reset :: rest) :
    step s = takeReset (s.accept rest) := by
  simp only [step, hp]

/-- There is no condition under which a reset between commands is not taken. -/
theorem takeReset_completes (s : State) : ∃ t, takeReset s = .next t := ⟨_, rfl⟩

/-- A reset between commands makes every scalar register unwritten (10_state.md R32). -/
theorem takeReset_sregs {s t : State} (h : takeReset s = .next t) (k : SReg) :
    t.sregs[k] = ScalarReg.unwritten := by
  obtain rfl := Host.Outcome.next.inj h
  exact Vector.getElem_replicate k.isLt

/-- A reset begins a new run, in which no response has been delivered (log 10). -/
theorem takeReset_responses {s t : State} (h : takeReset s = .next t) : t.responses = [] := by
  obtain rfl := Host.Outcome.next.inj h
  rfl

/-- Settles O15: the step is the reset, whose effect on each part of the state is a lemma. -/
theorem resetBetweenCommands : Obligations.ResetBetweenCommands := by
  intro s rest hp
  obtain ⟨t, ht⟩ := takeReset_completes (s.accept rest)
  obtain ⟨hparams, hlaunch, hport⟩ := takeReset_keepsSurroundings ht
  have hmem : t.mem = s.mem := (takeReset_mem ht).trans (accept_mem s rest)
  refine ⟨t, (step_reset hp).trans ht, fun k => ?_, fun k => ?_, fun a => ?_, hparams, hlaunch, hport,
    takeReset_responses ht⟩
  · rw [takeReset_vregs ht, VectorReg.unwritten_written]
  · rw [takeReset_sregs ht, ScalarReg.unwritten_written]
  · rw [hmem]

end Sys2Proof.Machine
